-- ==== Sys2Proof/Word.lean ====
section
/-! DEFINITION. The widths and the plain word types of the machine (spec 00_scope.md R7, R8, R9). -/

namespace Sys2Proof

/-- The width N of a value, "N = 32 or 64" (R9). XLEN itself is a `Width` (R7): RV32 is `w32`, RV64 is `w64`. -/
inductive Width where
  | w32
  | w64
deriving DecidableEq, Repr

/-- The number of bits N. -/
@[reducible] def Width.bits : Width → Nat
  | .w32 => 32
  | .w64 => 64

/-- log2(N): 5 on 32 bits, 6 on 64 bits (R101, R111). -/
def Width.log2 : Width → Nat
  | .w32 => 5
  | .w64 => 6

abbrev Byte := BitVec 8

/-- An instruction word, `bits` in the spec (ILEN = 32, R7). -/
abbrev InstrWord := BitVec 32

/-- A 5-bit unsigned register number 0..31 (R62). -/
abbrev RegNum := BitVec 5

end Sys2Proof
end

