-- ==== Sys2Proof/Machine/Operands.lean ====
section
/-! DEFINITION. The operand forms: which bits of a register or of an immediate an instruction uses (30_encoding.md R64,
R66, and the "Operation" lines of the family files), and the `*w` convention (D2). There are no flags (R26). -/

namespace Sys2Proof.Machine

/-- The low `k` bits of a register as a number: a rotate amount or a stage-select mask. Higher bits are ignored (U15). -/
def lowBits {n : Nat} (k : Nat) (v : BitVec n) : Nat := (v.extractLsb' 0 k).toNat

/-- `x[31:0]`: the word a `*w` form works on. -/
def lowWord {n : Nat} (v : BitVec n) : BitVec 32 := v.extractLsb' 0 32

/-- `sext_64(w)`: what a `*w` form writes (`n` is 64 there; a `*w` form exists on RV64 only). -/
def sextWord {n : Nat} (w : BitVec 32) : BitVec n := w.signExtend n

/-- Format I: `sext_XLEN(bits[31:20])` (R64). -/
def immI {n : Nat} (imm : BitVec 12) : BitVec n := imm.signExtend n

/-- Format U: `sext_XLEN` of `imm[31:12]` above twelve zeros (R64, R161). -/
def immU {n : Nat} (imm : BitVec 20) : BitVec n := BitVec.signExtend n (imm ++ 0#12 : BitVec 32)

end Sys2Proof.Machine
end

