-- ==== Sys2Proof/Config.lean ====
section
/-! DEFINITION. The launch parameters that the spec leaves OPEN (92_eei_decisions.md D1, D14, D15), at the one value
that `State.reset` gives each. No meaning reads them: a step reads the fields of State, so a statement over every state
covers every launch. -/

namespace Sys2Proof.Config

/-- XLEN at `State.reset`. DESIGN CHOICE (note 1), unsafe to lean on: RV64, the one width on which all 42 mnemonics exist (R2). -/
def resetXlen : Width := .w64

/-- RESET_PC at `State.reset`. DESIGN CHOICE (note 3), unsafe to lean on: the value the programs of 95_test_vectors.md use. -/
def resetPc : Nat := 0x1000

/-- HALT_PC at `State.reset`. DESIGN CHOICE (note 3), unsafe to lean on: the value the programs of 95_test_vectors.md use. -/
def haltPc : Nat := 0x2000

/-- x1..x31 at `State.reset`. DESIGN CHOICE (note 4), unsafe to lean on: the spec says "any XLEN-bit value" (R31). -/
def resetReg : Nat := 0

end Sys2Proof.Config
end

