-- ==== Sys2Proof/Syntax.lean ====
section
/-! DEFINITION. The instructions: one constructor per mnemonic of spec/opcode_table.json. The six mnemonics that have one
row per XLEN (R77) are one constructor each; the amount has the width of the RV64 row, and `Instr.wf` holds RV32 to the
narrower one. Operands stand in the order of the assembly syntax (R84). -/

namespace Sys2Proof

inductive Instr where
  -- Rotations (40_rotations.md)
  | ror (rd rs1 rs2 : RegNum)
  | rol (rd rs1 rs2 : RegNum)
  | rori (rd rs1 : RegNum) (shamt : BitVec 6)
  | rorw (rd rs1 rs2 : RegNum)
  | rolw (rd rs1 rs2 : RegNum)
  | roriw (rd rs1 : RegNum) (shamt : BitVec 5)
  -- Generalised reverse (41_permutations.md section 1)
  | grev (rd rs1 rs2 : RegNum)
  | grevi (rd rs1 : RegNum) (shamt : BitVec 6)
  | grevw (rd rs1 rs2 : RegNum)
  | greviw (rd rs1 : RegNum) (shamt : BitVec 5)
  -- Generalised or-combine (41_permutations.md section 2)
  | gorc (rd rs1 rs2 : RegNum)
  | gorci (rd rs1 : RegNum) (shamt : BitVec 6)
  | gorcw (rd rs1 rs2 : RegNum)
  | gorciw (rd rs1 : RegNum) (shamt : BitVec 5)
  -- Generalised shuffle (41_permutations.md section 3)
  | shfl (rd rs1 rs2 : RegNum)
  | unshfl (rd rs1 rs2 : RegNum)
  | shfli (rd rs1 : RegNum) (shamt : BitVec 5)
  | unshfli (rd rs1 : RegNum) (shamt : BitVec 5)
  | shflw (rd rs1 rs2 : RegNum)
  | unshflw (rd rs1 rs2 : RegNum)
  -- Carry-less multiply (42_clmul.md)
  | clmul (rd rs1 rs2 : RegNum)
  | clmulh (rd rs1 rs2 : RegNum)
  | clmulr (rd rs1 rs2 : RegNum)
  | clmulw (rd rs1 rs2 : RegNum)
  | clmulhw (rd rs1 rs2 : RegNum)
  | clmulrw (rd rs1 rs2 : RegNum)
  -- Logic with negate (43_logic_with_negate.md)
  | andn (rd rs1 rs2 : RegNum)
  | orn (rd rs1 rs2 : RegNum)
  | xorn (rd rs1 rs2 : RegNum)
  -- Packing (44_packing.md)
  | pack (rd rs1 rs2 : RegNum)
  | packu (rd rs1 rs2 : RegNum)
  | packh (rd rs1 rs2 : RegNum)
  | packw (rd rs1 rs2 : RegNum)
  | packuw (rd rs1 rs2 : RegNum)
  -- Crossbar permutation (45_xperm.md): `xperm.n`, `xperm.b`
  | xpermN (rd rs1 rs2 : RegNum)
  | xpermB (rd rs1 rs2 : RegNum)
  -- Companion base instructions (46_base_companion.md)
  | lui (rd : RegNum) (imm : BitVec 20)
  | addi (rd rs1 : RegNum) (imm : BitVec 12)
  | slli (rd rs1 : RegNum) (shamt : BitVec 6)
  | xor (rd rs1 rs2 : RegNum)
  | or (rd rs1 rs2 : RegNum)
  | jalr (rd rs1 : RegNum) (imm : BitVec 12)
deriving DecidableEq, Repr

end Sys2Proof
end

