-- ==== Sys2Proof/WellFormed.lean ====
section
/-! DEFINITION. Which instructions exist on which XLEN: the "RV64 only" forms (R2, R79) and the widths of the amounts
(R66, R80). -/

namespace Sys2Proof

/-- One of the 14 instructions the source lists under "RV64 only" (R2, R79). -/
def Instr.rv64Only : Instr → Bool
  | .rorw .. | .rolw .. | .roriw .. | .grevw .. | .greviw .. | .gorcw .. | .gorciw .. => true
  | .shflw .. | .unshflw .. | .clmulw .. | .clmulhw .. | .clmulrw .. | .packw .. | .packuw .. => true
  | .ror .. | .rol .. | .rori .. | .grev .. | .grevi .. | .gorc .. | .gorci .. => false
  | .shfl .. | .unshfl .. | .shfli .. | .unshfli .. | .clmul .. | .clmulh .. | .clmulr .. => false
  | .andn .. | .orn .. | .xorn .. | .pack .. | .packu .. | .packh .. | .xpermN .. | .xpermB .. => false
  | .lui .. | .addi .. | .slli .. | .xor .. | .or .. | .jalr .. => false

/-- The amount is within the range of R66 for the XLEN: below XLEN for `rori`, `grevi`, `gorci` and `slli`, below XLEN/2
for `shfli` and `unshfli`. The 5-bit amounts of `roriw`, `greviw`, `gorciw` are always in range. -/
def Instr.amountFits (x : Width) : Instr → Bool
  | .rori _ _ shamt | .grevi _ _ shamt | .gorci _ _ shamt | .slli _ _ shamt => decide (shamt.toNat < x.bits)
  | .shfli _ _ shamt | .unshfli _ _ shamt => decide (shamt.toNat < x.bits / 2)
  | .ror .. | .rol .. | .rorw .. | .rolw .. | .roriw .. | .grev .. | .grevw .. | .greviw .. => true
  | .gorc .. | .gorcw .. | .gorciw .. | .shfl .. | .unshfl .. | .shflw .. | .unshflw .. => true
  | .clmul .. | .clmulh .. | .clmulr .. | .clmulw .. | .clmulhw .. | .clmulrw .. => true
  | .andn .. | .orn .. | .xorn .. | .pack .. | .packu .. | .packh .. | .packw .. | .packuw .. => true
  | .xpermN .. | .xpermB .. | .lui .. | .addi .. | .xor .. | .or .. | .jalr .. => true

/-- The instruction exists on a machine of this XLEN. -/
def Instr.wf (x : Width) (i : Instr) : Bool :=
  (x == .w64 || !i.rv64Only) && i.amountFits x

end Sys2Proof
end

