-- ==== Sys2Proof/Decode.lean ====
section
/-! DEFINITION. The opcode map (30_encoding.md R67 to R75), the decoder of R78 with its illegal words (R79, R80) and
refused words (R81), and the encoder. Every bit pattern is the spec's own recollection (R60, note 9: UNVERIFIED). -/

namespace Sys2Proof

/-! ### Fields (R62 to R64) -/

def fieldRd (w : InstrWord) : RegNum := w.extractLsb' 7 5
def fieldRs1 (w : InstrWord) : RegNum := w.extractLsb' 15 5
def fieldRs2 (w : InstrWord) : RegNum := w.extractLsb' 20 5

/-- IS6: `shamt[5:0]` in bits 25:20 (R63). -/
def fieldShamt6 (w : InstrWord) : BitVec 6 := w.extractLsb' 20 6

/-- IS5: `shamt[4:0]` in bits 24:20 (R63). -/
def fieldShamt5 (w : InstrWord) : BitVec 5 := w.extractLsb' 20 5

/-- IS4: `shamt[3:0]` in bits 23:20 (R63). -/
def fieldShamt4 (w : InstrWord) : BitVec 4 := w.extractLsb' 20 4

/-- Format I: `imm[11:0]` in bits 31:20 (R64). -/
def fieldImm12 (w : InstrWord) : BitVec 12 := w.extractLsb' 20 12

/-- Format U: `imm[31:12]` in bits 31:12 (R64). -/
def fieldImm20 (w : InstrWord) : BitVec 20 := w.extractLsb' 12 20

/-- Major opcode, bits 6:0 (R65). -/
def fieldOpcode (w : InstrWord) : BitVec 7 := w.extractLsb' 0 7

/-! ### The opcode table (R77) -/

/-- One row of spec/opcode_table.json: for which XLEN it exists, its mask and match, and the instruction it stands for. -/
structure OpRow where
  rv32 : Bool
  rv64 : Bool
  mask : InstrWord
  pattern : InstrWord
  build : InstrWord → Instr

/-- The row exists for this XLEN. -/
def OpRow.has (r : OpRow) : Width → Bool
  | .w32 => r.rv32
  | .w64 => r.rv64

/-- "A word `bits` matches when `(bits & mask) == match`" (R77). -/
def OpRow.fits (r : OpRow) (w : InstrWord) : Bool := (w &&& r.mask) == r.pattern

/-- A format R row (mask `0xFE00707F`, R62). -/
def rowR (rv32 : Bool) (pattern : InstrWord) (c : RegNum → RegNum → RegNum → Instr) : OpRow :=
  ⟨rv32, true, 0xFE00707F#32, pattern, fun w => c (fieldRd w) (fieldRs1 w) (fieldRs2 w)⟩

/-- The RV64 row of an instruction with a 6-bit amount (format IS6, mask `0xFC00707F`, R63). -/
def rowIS6 (pattern : InstrWord) (c : RegNum → RegNum → BitVec 6 → Instr) : OpRow :=
  ⟨false, true, 0xFC00707F#32, pattern, fun w => c (fieldRd w) (fieldRs1 w) (fieldShamt6 w)⟩

/-- The RV32 row of an instruction whose RV64 row is IS6: a 5-bit amount (format IS5, mask `0xFE00707F`, R63). -/
def rowIS5of6 (pattern : InstrWord) (c : RegNum → RegNum → BitVec 6 → Instr) : OpRow :=
  ⟨true, false, 0xFE00707F#32, pattern, fun w => c (fieldRd w) (fieldRs1 w) ((fieldShamt5 w).setWidth 6)⟩

/-- An RV64 row with a 5-bit amount (format IS5, mask `0xFE00707F`, R63). -/
def rowIS5 (pattern : InstrWord) (c : RegNum → RegNum → BitVec 5 → Instr) : OpRow :=
  ⟨false, true, 0xFE00707F#32, pattern, fun w => c (fieldRd w) (fieldRs1 w) (fieldShamt5 w)⟩

/-- The RV32 row of an instruction whose RV64 row is IS5: a 4-bit amount (format IS4, mask `0xFF00707F`, R63). -/
def rowIS4of5 (pattern : InstrWord) (c : RegNum → RegNum → BitVec 5 → Instr) : OpRow :=
  ⟨true, false, 0xFF00707F#32, pattern, fun w => c (fieldRd w) (fieldRs1 w) ((fieldShamt4 w).setWidth 5)⟩

/-- A format I row (mask `0x0000707F`, R64, R75). -/
def rowI (pattern : InstrWord) (c : RegNum → RegNum → BitVec 12 → Instr) : OpRow :=
  ⟨true, true, 0x0000707F#32, pattern, fun w => c (fieldRd w) (fieldRs1 w) (fieldImm12 w)⟩

/-- A format U row (mask `0x0000007F`, R64, R75). -/
def rowU (pattern : InstrWord) (c : RegNum → BitVec 20 → Instr) : OpRow :=
  ⟨true, true, 0x0000007F#32, pattern, fun w => c (fieldRd w) (fieldImm20 w)⟩

/-- R67. -/
def rowsRotate : List OpRow :=
  [ rowR true 0x60005033#32 .ror, rowR true 0x60001033#32 .rol,
    rowIS5of6 0x60005013#32 .rori, rowIS6 0x60005013#32 .rori,
    rowR false 0x6000503B#32 .rorw, rowR false 0x6000103B#32 .rolw, rowIS5 0x6000501B#32 .roriw ]

/-- R68. -/
def rowsGrev : List OpRow :=
  [ rowR true 0x68005033#32 .grev, rowIS5of6 0x68005013#32 .grevi, rowIS6 0x68005013#32 .grevi,
    rowR false 0x6800503B#32 .grevw, rowIS5 0x6800501B#32 .greviw ]

/-- R69. -/
def rowsGorc : List OpRow :=
  [ rowR true 0x28005033#32 .gorc, rowIS5of6 0x28005013#32 .gorci, rowIS6 0x28005013#32 .gorci,
    rowR false 0x2800503B#32 .gorcw, rowIS5 0x2800501B#32 .gorciw ]

/-- R70. -/
def rowsShfl : List OpRow :=
  [ rowR true 0x08001033#32 .shfl, rowR true 0x08005033#32 .unshfl,
    rowIS4of5 0x08001013#32 .shfli, rowIS5 0x08001013#32 .shfli,
    rowIS4of5 0x08005013#32 .unshfli, rowIS5 0x08005013#32 .unshfli,
    rowR false 0x0800103B#32 .shflw, rowR false 0x0800503B#32 .unshflw ]

/-- R71. -/
def rowsClmul : List OpRow :=
  [ rowR true 0x0A001033#32 .clmul, rowR true 0x0A002033#32 .clmulr, rowR true 0x0A003033#32 .clmulh,
    rowR false 0x0A00103B#32 .clmulw, rowR false 0x0A00203B#32 .clmulrw, rowR false 0x0A00303B#32 .clmulhw ]

/-- R72, R73, R74. -/
def rowsLogicPackXperm : List OpRow :=
  [ rowR true 0x40007033#32 .andn, rowR true 0x40006033#32 .orn, rowR true 0x40004033#32 .xorn,
    rowR true 0x08004033#32 .pack, rowR true 0x48004033#32 .packu, rowR true 0x08007033#32 .packh,
    rowR false 0x0800403B#32 .packw, rowR false 0x4800403B#32 .packuw,
    rowR true 0x28002033#32 .xpermN, rowR true 0x28004033#32 .xpermB ]

/-- R75. -/
def rowsCompanion : List OpRow :=
  [ rowU 0x00000037#32 .lui, rowI 0x00000013#32 .addi,
    rowIS5of6 0x00001013#32 .slli, rowIS6 0x00001013#32 .slli,
    rowR true 0x00004033#32 .xor, rowR true 0x00006033#32 .or, rowI 0x00000067#32 .jalr ]

/-- The 48 rows (R77). -/
def opRows : List OpRow :=
  rowsRotate ++ rowsGrev ++ rowsGorc ++ rowsShfl ++ rowsClmul ++ rowsLogicPackXperm ++ rowsCompanion

/-! ### Illegal words (R79, R80) -/

/-- Which rule makes a word illegal. -/
inductive IllegalRule where
  /-- An RV64-only instruction word on RV32 (R79). -/
  | rv64OnlyOnRv32
  /-- An amount bit the XLEN does not have (R80). -/
  | reservedAmount
deriving DecidableEq, Repr

/-- R79: on XLEN = 32, a word of major opcode OP-32 or OP-IMM-32 that matches a row of an RV64-only instruction. -/
def isRv64OnlyWord (x : Width) (w : InstrWord) : Bool :=
  x == .w32 && (fieldOpcode w == 0b0111011#7 || fieldOpcode w == 0b0011011#7)
    && opRows.any (fun r => !r.rv32 && r.fits w)

/-- `bits & 0xFC00707F`, the part of a word by which R80 names the immediate forms. -/
def immFormKey (w : InstrWord) : InstrWord := w &&& 0xFC00707F#32

/-- R80's keys of the forms with a 6-bit amount on RV64: `rori`, `grevi`, `gorci`, companion `slli`. -/
def keysAmount6 : List InstrWord := [0x60005013#32, 0x68005013#32, 0x28005013#32, 0x00001013#32]

/-- R80's keys of `shfli` and `unshfli`. -/
def keysShuffle : List InstrWord := [0x08001013#32, 0x08005013#32]

/-- R80's keys of `roriw`, `greviw`, `gorciw`. -/
def keysWordAmount : List InstrWord := [0x6000501B#32, 0x6800501B#32, 0x2800501B#32]

/-- R80: the reserved immediate encodings. -/
def isReservedAmount (x : Width) (w : InstrWord) : Bool :=
  match x with
  | .w32 =>
    (keysAmount6.contains (immFormKey w) && w.getLsbD 25)
      || (keysShuffle.contains (immFormKey w) && (w.getLsbD 25 || w.getLsbD 24))
      || (keysWordAmount.contains (immFormKey w) && w.getLsbD 25)
  | .w64 =>
    (keysShuffle.contains (immFormKey w) && w.getLsbD 25)
      || (keysWordAmount.contains (immFormKey w) && w.getLsbD 25)

/-! ### The decoder (R78) -/

/-- What the decoder makes of a word. -/
inductive Decoded where
  /-- A row matches (step 1 of R78). -/
  | instr (i : Instr)
  /-- R79 or R80 names the word (step 2): IllegalInstruction. -/
  | illegal (rule : IllegalRule)
  /-- Any other word (step 3, R81): the spec gives it no meaning. -/
  | outsideSpec
deriving DecidableEq, Repr

/-- Steps 2 and 3 of R78, for a word that matches no row. -/
def decodeUnmatched (x : Width) (w : InstrWord) : Decoded :=
  if isRv64OnlyWord x w then .illegal .rv64OnlyOnRv32
  else if isReservedAmount x w then .illegal .reservedAmount
  else .outsideSpec

/-- The decoder of R78, total on all 2^32 words. -/
def decode (x : Width) (w : InstrWord) : Decoded :=
  match opRows.find? (fun r => r.has x && r.fits w) with
  | some r => .instr (r.build w)
  | none => decodeUnmatched x w

/-! ### Words and bytes (R42) -/

/-- Little-endian: the byte at the lowest address is `bits[7:0]` (R42). -/
def wordOfBytes (b0 b1 b2 b3 : Byte) : InstrWord := b3 ++ b2 ++ b1 ++ b0

/-- The four bytes of a word, the one at the lowest address first (R42). -/
def bytesOfWord (w : InstrWord) : List Byte :=
  [w.extractLsb' 0 8, w.extractLsb' 8 8, w.extractLsb' 16 8, w.extractLsb' 24 8]

/-- The decoder on a run of bytes: it reads the first four. Fewer than four hold no instruction word. -/
def decodeBytes (x : Width) : List Byte → Decoded
  | b0 :: b1 :: b2 :: b3 :: _ => decode x (wordOfBytes b0 b1 b2 b3)
  | _ => .outsideSpec

/-- The instruction the decoder reads from a row of the opcode table whose bits are `w`. DESIGN CHOICE (note 18): for
XLEN = 64, where every row's words decode to the row's instruction (an RV32 row's words are words of its RV64 row). -/
def decodeTableWord (nbits w : Nat) : Option Instr :=
  match decodeBytes .w64 (bytesOfWord (BitVec.ofNat 32 (w % 2 ^ nbits))) with
  | .instr i => some i
  | .illegal _ => none
  | .outsideSpec => none

/-! ### The encoder -/

/-- Format R (R62). -/
def wordR (f7 : BitVec 7) (f3 : BitVec 3) (op : BitVec 7) (rd rs1 rs2 : RegNum) : InstrWord :=
  f7 ++ rs2 ++ rs1 ++ f3 ++ rd ++ op

/-- Format IS6 (R63): `funct5` and the zero bit 26 as one 6-bit code. With an amount below 32 it is the IS5 word. -/
def wordIS6 (f6 : BitVec 6) (f3 : BitVec 3) (op : BitVec 7) (rd rs1 : RegNum) (shamt : BitVec 6) : InstrWord :=
  f6 ++ shamt ++ rs1 ++ f3 ++ rd ++ op

/-- Format IS5 (R63): `funct5` and the zero bits 26:25 as one 7-bit code. With an amount below 16 it is the IS4 word. -/
def wordIS5 (f7 : BitVec 7) (f3 : BitVec 3) (op : BitVec 7) (rd rs1 : RegNum) (shamt : BitVec 5) : InstrWord :=
  f7 ++ shamt ++ rs1 ++ f3 ++ rd ++ op

/-- Format I (R64). -/
def wordI (f3 : BitVec 3) (op : BitVec 7) (rd rs1 : RegNum) (imm : BitVec 12) : InstrWord :=
  imm ++ rs1 ++ f3 ++ rd ++ op

/-- Format U (R64). -/
def wordU (op : BitVec 7) (rd : RegNum) (imm : BitVec 20) : InstrWord :=
  imm ++ rd ++ op

/-- Major opcodes (R65). -/
def opOP : BitVec 7 := 0b0110011#7
def opOPIMM : BitVec 7 := 0b0010011#7
def opOP32 : BitVec 7 := 0b0111011#7
def opOPIMM32 : BitVec 7 := 0b0011011#7
def opLUI : BitVec 7 := 0b0110111#7
def opJALR : BitVec 7 := 0b1100111#7

/-- The word of an instruction, from the "pattern (31 .. 0)" columns of R67 to R75. -/
def encode : Instr → InstrWord
  | .ror rd rs1 rs2 => wordR 0b0110000#7 0b101#3 opOP rd rs1 rs2
  | .rol rd rs1 rs2 => wordR 0b0110000#7 0b001#3 opOP rd rs1 rs2
  | .rori rd rs1 shamt => wordIS6 0b011000#6 0b101#3 opOPIMM rd rs1 shamt
  | .rorw rd rs1 rs2 => wordR 0b0110000#7 0b101#3 opOP32 rd rs1 rs2
  | .rolw rd rs1 rs2 => wordR 0b0110000#7 0b001#3 opOP32 rd rs1 rs2
  | .roriw rd rs1 shamt => wordIS5 0b0110000#7 0b101#3 opOPIMM32 rd rs1 shamt
  | .grev rd rs1 rs2 => wordR 0b0110100#7 0b101#3 opOP rd rs1 rs2
  | .grevi rd rs1 shamt => wordIS6 0b011010#6 0b101#3 opOPIMM rd rs1 shamt
  | .grevw rd rs1 rs2 => wordR 0b0110100#7 0b101#3 opOP32 rd rs1 rs2
  | .greviw rd rs1 shamt => wordIS5 0b0110100#7 0b101#3 opOPIMM32 rd rs1 shamt
  | .gorc rd rs1 rs2 => wordR 0b0010100#7 0b101#3 opOP rd rs1 rs2
  | .gorci rd rs1 shamt => wordIS6 0b001010#6 0b101#3 opOPIMM rd rs1 shamt
  | .gorcw rd rs1 rs2 => wordR 0b0010100#7 0b101#3 opOP32 rd rs1 rs2
  | .gorciw rd rs1 shamt => wordIS5 0b0010100#7 0b101#3 opOPIMM32 rd rs1 shamt
  | .shfl rd rs1 rs2 => wordR 0b0000100#7 0b001#3 opOP rd rs1 rs2
  | .unshfl rd rs1 rs2 => wordR 0b0000100#7 0b101#3 opOP rd rs1 rs2
  | .shfli rd rs1 shamt => wordIS5 0b0000100#7 0b001#3 opOPIMM rd rs1 shamt
  | .unshfli rd rs1 shamt => wordIS5 0b0000100#7 0b101#3 opOPIMM rd rs1 shamt
  | .shflw rd rs1 rs2 => wordR 0b0000100#7 0b001#3 opOP32 rd rs1 rs2
  | .unshflw rd rs1 rs2 => wordR 0b0000100#7 0b101#3 opOP32 rd rs1 rs2
  | .clmul rd rs1 rs2 => wordR 0b0000101#7 0b001#3 opOP rd rs1 rs2
  | .clmulh rd rs1 rs2 => wordR 0b0000101#7 0b011#3 opOP rd rs1 rs2
  | .clmulr rd rs1 rs2 => wordR 0b0000101#7 0b010#3 opOP rd rs1 rs2
  | .clmulw rd rs1 rs2 => wordR 0b0000101#7 0b001#3 opOP32 rd rs1 rs2
  | .clmulhw rd rs1 rs2 => wordR 0b0000101#7 0b011#3 opOP32 rd rs1 rs2
  | .clmulrw rd rs1 rs2 => wordR 0b0000101#7 0b010#3 opOP32 rd rs1 rs2
  | .andn rd rs1 rs2 => wordR 0b0100000#7 0b111#3 opOP rd rs1 rs2
  | .orn rd rs1 rs2 => wordR 0b0100000#7 0b110#3 opOP rd rs1 rs2
  | .xorn rd rs1 rs2 => wordR 0b0100000#7 0b100#3 opOP rd rs1 rs2
  | .pack rd rs1 rs2 => wordR 0b0000100#7 0b100#3 opOP rd rs1 rs2
  | .packu rd rs1 rs2 => wordR 0b0100100#7 0b100#3 opOP rd rs1 rs2
  | .packh rd rs1 rs2 => wordR 0b0000100#7 0b111#3 opOP rd rs1 rs2
  | .packw rd rs1 rs2 => wordR 0b0000100#7 0b100#3 opOP32 rd rs1 rs2
  | .packuw rd rs1 rs2 => wordR 0b0100100#7 0b100#3 opOP32 rd rs1 rs2
  | .xpermN rd rs1 rs2 => wordR 0b0010100#7 0b010#3 opOP rd rs1 rs2
  | .xpermB rd rs1 rs2 => wordR 0b0010100#7 0b100#3 opOP rd rs1 rs2
  | .lui rd imm => wordU opLUI rd imm
  | .addi rd rs1 imm => wordI 0b000#3 opOPIMM rd rs1 imm
  | .slli rd rs1 shamt => wordIS6 0b000000#6 0b001#3 opOPIMM rd rs1 shamt
  | .xor rd rs1 rs2 => wordR 0b0000000#7 0b100#3 opOP rd rs1 rs2
  | .or rd rs1 rs2 => wordR 0b0000000#7 0b110#3 opOP rd rs1 rs2
  | .jalr rd rs1 imm => wordI 0b000#3 opJALR rd rs1 imm

end Sys2Proof
end

