-- ==== Sys2Proof/Machine/State.lean ====
section
/-! DEFINITION. The state, the launch and reset (10_state.md, 70_reset_and_hazards.md sections 1 and 2), and the reasons a
step can stop (60_exceptions.md R180, R181, R184). -/

namespace Sys2Proof.Machine

/-- IMEM as bytes (R41, R42): cells with strictly rising addresses. An unlisted address has no value: it is outside
dom(IMEM). -/
abbrev Memory := List Host.Cell

/-- The integer registers x1..x31, x<i> at place i - 1; x0 has no storage (R21). -/
abbrev RegFile (n : Nat) := Vector (BitVec n) 31

/-- The machine. The spec's own state is `regs` and `pc` (R20); `xlen`, `imem` and `haltPc` are its parameters XLEN, IMEM
and HALT_PC (R7), held here because a step takes a state only. No step changes them (notes 1, 2). -/
structure State where
  /-- XLEN: 32 or 64 (R7). -/
  xlen : Width
  /-- IMEM, the instruction memory (R29, R41). -/
  imem : Memory
  /-- HALT_PC, the address whose reaching ends the run (R204). -/
  haltPc : BitVec xlen.bits
  /-- x1..x31 (R21). -/
  regs : RegFile xlen.bits
  /-- The address of the instruction being executed (R24). -/
  pc : BitVec xlen.bits
deriving DecidableEq, Repr

/-- The causes of a trap (R184). -/
inductive Cause where
  /-- Raised by `jalr` when its target has bit 1 set; epc is the `jalr`'s address, tval the target (R183). Safe: the spec
  says the hardware takes this exception here (R181), and what a handler does after it is not claimed. -/
  | instructionAddressMisaligned
  /-- Raised by a fetch at a pc that is neither HALT_PC nor in dom(IMEM); epc and tval are that pc (R182). Safe. -/
  | instructionAccessFault
  /-- Raised at decode for a word of R79 or R80 (and by the meaning of an instruction that the XLEN does not have, note
  12); epc is its address, tval the word (R185). Safe. -/
  | illegalInstruction
deriving DecidableEq, Repr

/-- The RISC-V cause codes the spec lists (R184). -/
def Cause.code : Cause → Nat
  | .instructionAddressMisaligned => 0
  | .instructionAccessFault => 1
  | .illegalInstruction => 2

/-- The ways a run ends other than by a refused word (R204). -/
inductive Fault where
  /-- HALTED(x): a step that starts with pc = HALT_PC. Not an error: the run's normal end, `final` holds the registers the
  launcher reads back (R180, R201, R204). Raised by the step only. Safe: the spec takes no step from here either (note 5). -/
  | halted (final : State)
  /-- TRAP(cause, epc, tval), the whole of a trap: it saves nothing, changes nothing and ends the run (R184, R189). epc and
  tval are read as unsigned numbers (R8). Raised by the fetch, the decoder and `jalr`. Safe (D10: claims the least). -/
  | trap (cause : Cause) (epc tval : Nat)
deriving DecidableEq, Repr

/-- The ways a step is refused. -/
inductive Refusal where
  /-- An instruction that has no meaning in the model. Raised by no arm: every instruction has its meaning. Safe. -/
  | notModelled (mnemonic : String)
  /-- REFUSED(pc, bits): a word the spec gives no meaning (R81, R181). Raised by the step. Safe: no claim goes through it. -/
  | outsideSpec (pc : Nat) (bits : InstrWord)
deriving DecidableEq, Repr

/-- What one step, or one meaning, answers. -/
abbrev Result := Host.Outcome State Fault Refusal

/-- What a run is launched with (R201). -/
structure Launch where
  xlen : Width
  imem : Memory
  resetPc : BitVec xlen.bits
  haltPc : BitVec xlen.bits
  /-- The initial values of x1..x31: "any XLEN-bit value" (R31). -/
  regs : RegFile xlen.bits
deriving DecidableEq, Repr

/-- The state in which a run starts (R31, R200). -/
def State.launch (l : Launch) : State where
  xlen := l.xlen
  imem := l.imem
  haltPc := l.haltPc
  regs := l.regs
  pc := l.resetPc

/-- The launch that `State.reset` stands for: the open parameters at the values of `Config`, and no program (notes 1 to 4,
7). -/
def Launch.bare : Launch where
  xlen := Config.resetXlen
  imem := []
  resetPc := BitVec.ofNat _ Config.resetPc
  haltPc := BitVec.ofNat _ Config.haltPc
  regs := Vector.replicate 31 (BitVec.ofNat _ Config.resetReg)

/-- The machine right after reset (R31, R200). -/
def State.reset : State := State.launch Launch.bare

end Sys2Proof.Machine
end

