-- ==== Sys2Proof/Machine/Ops.lean ====
section
/-! DEFINITION. The named operations over memory, registers and the outcomes of a step: reading and writing instruction
memory, the one place x0 is hardwired, completing an instruction, and taking an exception. -/

namespace Sys2Proof.Machine

/-! ### Memory (20_memory.md) -/

/-- The byte at an address; none outside dom(IMEM). -/
def Memory.read : Memory → Nat → Option Byte
  | [], _ => none
  | (b, v) :: m, a => if a = b then some v else Memory.read m a

/-- Put one byte, keeping the addresses strictly rising. No instruction does this (R10, R46): it serves the loader only. -/
def Memory.write : Memory → Nat → Byte → Memory
  | [], a, v => [(a, v)]
  | (b, w) :: m, a, v =>
    if a < b then (a, v) :: (b, w) :: m
    else if a = b then (a, v) :: m
    else (b, w) :: Memory.write m a v

/-- Put a run of bytes from an address upward. -/
def Memory.writeBytes : Memory → Nat → List Byte → Memory
  | m, _, [] => m
  | m, a, v :: vs => Memory.writeBytes (m.write a v) (a + 1) vs

/-- The canonical form: strictly rising addresses (every listed byte has a value an unlisted one lacks). -/
def Memory.wf : Memory → Bool
  | [] => true
  | [_] => true
  | (a, _) :: (b, w) :: m => decide (a < b) && Memory.wf ((b, w) :: m)

/-- `MemRead(addr, 4)`, little-endian (R10, R42). -/
def Memory.readWord (m : Memory) (a : Nat) : Option InstrWord :=
  match m.read a, m.read (a + 1), m.read (a + 2), m.read (a + 3) with
  | some b0, some b1, some b2, some b3 => some (wordOfBytes b0 b1 b2 b3)
  | _, _, _, _ => none

/-- IMEM(a): the word at an address of dom(IMEM), which holds multiples of 4 only (R41, R44); none outside. -/
def Memory.fetchWord (m : Memory) (a : Nat) : Option InstrWord :=
  if a % 4 = 0 then m.readWord a else none

/-- `MemWrite(addr, 4, v)`, little-endian (R10, R42); the loader's. -/
def Memory.writeWord (m : Memory) (a : Nat) (w : InstrWord) : Memory :=
  m.writeBytes a (bytesOfWord w)

/-- IMEM from a listing: a program's words from address `a` upward (R42, R201). -/
def Memory.loadWords : Memory → Nat → List InstrWord → Memory
  | m, _, [] => m
  | m, a, w :: ws => Memory.loadWords (m.writeWord a w) (a + 4) ws

/-! ### Registers (10_state.md R21, R23) -/

/-- `x[i]`: x0 reads as zero (R21). -/
def RegFile.read {n : Nat} (f : RegFile n) (i : RegNum) : BitVec n :=
  if i = 0#5 then 0#n else f[i.toNat - 1]'(by have := i.isLt; omega)

/-- `x[i] <- v`: a write to x0 is discarded (R21). -/
def RegFile.write {n : Nat} (f : RegFile n) (i : RegNum) (v : BitVec n) : RegFile n :=
  if i = 0#5 then f else Vector.set f (i.toNat - 1) v (by have := i.isLt; omega)

/-- `x[i]` in a state. -/
def State.get (s : State) (i : RegNum) : BitVec s.xlen.bits := RegFile.read s.regs i

/-- The state with `x[rd] <- v` and `pc <- next`: the only writes an instruction makes (R23, R24, R168). -/
def State.commit (s : State) (rd : RegNum) (v next : BitVec s.xlen.bits) : State :=
  { s with regs := RegFile.write s.regs rd v, pc := next }

/-- `pc + 4` modulo 2^XLEN (R24). -/
def State.nextPc (s : State) : BitVec s.xlen.bits := s.pc + 4

/-! ### Completing an instruction -/

/-- An instruction other than `jalr` completes: `x[rd] <- v ; pc <- pc + 4` (R24, outcome NEXT of R180). -/
def retire (rd : RegNum) (s : State) (v : BitVec s.xlen.bits) : Result :=
  .next (s.commit rd v s.nextPc)

/-! ### Exceptions (60_exceptions.md) -/

/-- Taking an exception: the outcome TRAP(cause, epc, tval) with epc = pc (R184). It is terminal and precise: no register is
written, pc does not move, nothing is saved and no handler is entered (R189), and there is no return from it (R190). -/
def raise (c : Cause) (tval : Nat) (s : State) : Result :=
  .fault (.trap c s.pc.toNat tval)

/-- IllegalInstruction: tval is the word (R185). -/
def raiseIllegal (bits : InstrWord) (s : State) : Result :=
  raise .illegalInstruction bits.toNat s

/-- InstructionAccessFault: tval is the pc (R182). -/
def raiseAccessFault (s : State) : Result :=
  raise .instructionAccessFault s.pc.toNat s

/-- REFUSED(pc, bits) (R81, R180). -/
def refuseWord (bits : InstrWord) (s : State) : Result :=
  .refused (.outsideSpec s.pc.toNat bits)

/-- HALTED(x): the run has ended and its registers are its result (R180, R204). -/
def halt (s : State) : Result := .fault (.halted s)

/-- An instruction that the XLEN does not have raises IllegalInstruction with its own word as tval (R79, R80, R185; DEDUCED,
note 12). The decoder never hands one over; this says what its meaning is all the same. -/
def whenLegal (i : Instr) (s : State) (r : Result) : Result :=
  if i.wf s.xlen then r else raiseIllegal (encode i) s

/-! ### Fetch and launch -/

/-- IMEM at pc (R41). -/
def State.fetch (s : State) : Option InstrWord := s.imem.fetchWord s.pc.toNat

/-- The state with an instruction word placed at pc. Where pc is HALT_PC, at which nothing is fetched (R41), HALT_PC moves
on by four, so that the word is fetched (note 7). -/
def State.placeWord (s : State) (bits : InstrWord) : State :=
  { s with
    imem := s.imem.writeWord s.pc.toNat bits
    haltPc := if s.haltPc = s.pc then s.pc + 4 else s.haltPc }

end Sys2Proof.Machine
end

