-- ==== Sys2Proof/Machine/Clmul.lean ====
section
/-! DEFINITION. Carry-less multiply (42_clmul.md). The constant-time requirement (R137, R208) is about latency; the model
has no time (note 16). -/

namespace Sys2Proof.Machine

/-- One turn of R130's loop: `if b[i] == 1: p = p ^ (zext_2N(a) << i)`. -/
def clStep {n : Nat} (a b : BitVec n) (p : BitVec (2 * n)) (i : Nat) : BitVec (2 * n) :=
  if b.getLsbD i then p ^^^ (a.setWidth (2 * n) <<< i) else p

/-- `clprod_N(a, b)`, the carry-less product, 2N bits (R130). -/
def clprod {n : Nat} (a b : BitVec n) : BitVec (2 * n) :=
  (List.range n).foldl (clStep a b) 0

/-- `p[N-1 : 0]` (R131). -/
def clmulLow {n : Nat} (a b : BitVec n) : BitVec n := (clprod a b).extractLsb' 0 n

/-- `p[2N-1 : N]` (R132). -/
def clmulHigh {n : Nat} (a b : BitVec n) : BitVec n := (clprod a b).extractLsb' n n

/-- `p[2N-2 : N-1]` (R133). -/
def clmulRev {n : Nat} (a b : BitVec n) : BitVec n := (clprod a b).extractLsb' (n - 1) n

/-- R131. -/
def execClmul (rd rs1 rs2 : RegNum) (s : State) : Result :=
  retire rd s (clmulLow (s.get rs1) (s.get rs2))

/-- R132. -/
def execClmulh (rd rs1 rs2 : RegNum) (s : State) : Result :=
  retire rd s (clmulHigh (s.get rs1) (s.get rs2))

/-- R133. -/
def execClmulr (rd rs1 rs2 : RegNum) (s : State) : Result :=
  retire rd s (clmulRev (s.get rs1) (s.get rs2))

/-- R134. -/
def execClmulw (rd rs1 rs2 : RegNum) (s : State) : Result :=
  whenLegal (.clmulw rd rs1 rs2) s
    (retire rd s (sextWord (clmulLow (lowWord (s.get rs1)) (lowWord (s.get rs2)))))

/-- R135. -/
def execClmulhw (rd rs1 rs2 : RegNum) (s : State) : Result :=
  whenLegal (.clmulhw rd rs1 rs2) s
    (retire rd s (sextWord (clmulHigh (lowWord (s.get rs1)) (lowWord (s.get rs2)))))

/-- R136. -/
def execClmulrw (rd rs1 rs2 : RegNum) (s : State) : Result :=
  whenLegal (.clmulrw rd rs1 rs2) s
    (retire rd s (sextWord (clmulRev (lowWord (s.get rs1)) (lowWord (s.get rs2)))))

end Sys2Proof.Machine
end

