-- ==== Sys2Proof/Machine/Companion.lean ====
section
/-! DEFINITION. The companion base instructions (46_base_companion.md). -/

namespace Sys2Proof.Machine

/-- R161. -/
def execLui (rd : RegNum) (imm : BitVec 20) (s : State) : Result :=
  retire rd s (immU imm)

/-- R162. -/
def execAddi (rd rs1 : RegNum) (imm : BitVec 12) (s : State) : Result :=
  retire rd s (s.get rs1 + immI imm)

/-- R163. -/
def execSlli (rd rs1 : RegNum) (shamt : BitVec 6) (s : State) : Result :=
  whenLegal (.slli rd rs1 shamt) s (retire rd s (s.get rs1 <<< shamt.toNat))

/-- R164. -/
def execXor (rd rs1 rs2 : RegNum) (s : State) : Result :=
  retire rd s (s.get rs1 ^^^ s.get rs2)

/-- R165. -/
def execOr (rd rs1 rs2 : RegNum) (s : State) : Result :=
  retire rd s (s.get rs1 ||| s.get rs2)

/-- The target of a `jalr`: `x[rs1] + sext(imm12)` with bit 0 cleared (R168). -/
def jalrTarget (rs1 : RegNum) (imm : BitVec 12) (s : State) : BitVec s.xlen.bits :=
  (s.get rs1 + immI imm) &&& ~~~1

/-- R168: a target with bit 1 set raises InstructionAddressMisaligned on the `jalr` itself (R183); otherwise the link is
written and pc becomes the target. `x[rs1]` is read before `x[rd]` is written. -/
def execJalr (rd rs1 : RegNum) (imm : BitVec 12) (s : State) : Result :=
  if (jalrTarget rs1 imm s).getLsbD 1 then
    raise .instructionAddressMisaligned (jalrTarget rs1 imm s).toNat s
  else
    .next (s.commit rd s.nextPc (jalrTarget rs1 imm s))

end Sys2Proof.Machine
end

