-- ==== Sys2Proof/Machine/Logic.lean ====
section
/-! DEFINITION. Logic with negate (43_logic_with_negate.md). -/

namespace Sys2Proof.Machine

/-- R140. -/
def execAndn (rd rs1 rs2 : RegNum) (s : State) : Result :=
  retire rd s (s.get rs1 &&& ~~~(s.get rs2))

/-- R141. -/
def execOrn (rd rs1 rs2 : RegNum) (s : State) : Result :=
  retire rd s (s.get rs1 ||| ~~~(s.get rs2))

/-- R142; the Bitmanip draft's `xnor` (90_conflicts.md C4). -/
def execXorn (rd rs1 rs2 : RegNum) (s : State) : Result :=
  retire rd s (s.get rs1 ^^^ ~~~(s.get rs2))

end Sys2Proof.Machine
end

