-- ==== Sys2Proof/Machine/Pack.lean ====
section
/-! DEFINITION. Packing (44_packing.md). -/

namespace Sys2Proof.Machine

/-- `{ b[H-1:0], a[H-1:0] }` with `H = N/2` (R145). -/
def packLow {n : Nat} (a b : BitVec n) : BitVec n :=
  BitVec.setWidth n (b.extractLsb' 0 (n / 2) ++ a.extractLsb' 0 (n / 2))

/-- `{ b[N-1:H], a[N-1:H] }` with `H = N/2` (R146). -/
def packHigh {n : Nat} (a b : BitVec n) : BitVec n :=
  BitVec.setWidth n (b.extractLsb' (n / 2) (n / 2) ++ a.extractLsb' (n / 2) (n / 2))

/-- `zext_N({ b[7:0], a[7:0] })` (R147). -/
def packBytes {n : Nat} (a b : BitVec n) : BitVec n :=
  BitVec.setWidth n (b.extractLsb' 0 8 ++ a.extractLsb' 0 8)

/-- R145. -/
def execPack (rd rs1 rs2 : RegNum) (s : State) : Result :=
  retire rd s (packLow (s.get rs1) (s.get rs2))

/-- R146. -/
def execPacku (rd rs1 rs2 : RegNum) (s : State) : Result :=
  retire rd s (packHigh (s.get rs1) (s.get rs2))

/-- R147. -/
def execPackh (rd rs1 rs2 : RegNum) (s : State) : Result :=
  retire rd s (packBytes (s.get rs1) (s.get rs2))

/-- R148: "RV32's `pack` applied to the low words, sign-extended". -/
def execPackw (rd rs1 rs2 : RegNum) (s : State) : Result :=
  whenLegal (.packw rd rs1 rs2) s
    (retire rd s (sextWord (packLow (lowWord (s.get rs1)) (lowWord (s.get rs2)))))

/-- R149: "RV32's `packu` applied to the low words, sign-extended". -/
def execPackuw (rd rs1 rs2 : RegNum) (s : State) : Result :=
  whenLegal (.packuw rd rs1 rs2) s
    (retire rd s (sextWord (packHigh (lowWord (s.get rs1)) (lowWord (s.get rs2)))))

end Sys2Proof.Machine
end

