-- ==== Sys2Proof/Machine/Permute.lean ====
section
/-! DEFINITION. Generalised reverse, or-combine and shuffle (41_permutations.md). -/

namespace Sys2Proof.Machine

/-! ### Generalised reverse and or-combine -/

/-- `LO_k` at 64 bits, the low half of every block of stage k (R110). -/
def loMask64 : Nat → BitVec 64
  | 0 => 0x5555555555555555#64
  | 1 => 0x3333333333333333#64
  | 2 => 0x0F0F0F0F0F0F0F0F#64
  | 3 => 0x00FF00FF00FF00FF#64
  | 4 => 0x0000FFFF0000FFFF#64
  | _ => 0x00000000FFFFFFFF#64

/-- `LO_k` truncated to N bits (R8, R110). -/
def loMask (n k : Nat) : BitVec n := (loMask64 k).setWidth n

/-- Stage k of the reverse: every block's halves exchanged, `HI_k = ~LO_k` (R110, R111). -/
def swapHalves {n : Nat} (k : Nat) (v : BitVec n) : BitVec n :=
  ((v &&& loMask n k) <<< 2 ^ k) ||| ((v &&& ~~~(loMask n k)) >>> 2 ^ k)

/-- Stage k of the reverse if control bit k is set. -/
def grevStage {n : Nat} (s : Nat) (v : BitVec n) (k : Nat) : BitVec n :=
  if s.testBit k then swapHalves k v else v

/-- `grev_N(v, s)`: stages 0, 1, ..., log2(N) - 1 in this order (R111). -/
def grev (w : Width) (v : BitVec w.bits) (s : Nat) : BitVec w.bits :=
  (List.range w.log2).foldl (grevStage s) v

/-- Stage k of the or-combine if control bit k is set. -/
def gorcStage {n : Nat} (s : Nat) (v : BitVec n) (k : Nat) : BitVec n :=
  if s.testBit k then v ||| swapHalves k v else v

/-- `gorc_N(v, s)`: stages 0, 1, ..., log2(N) - 1 in this order (R116). -/
def gorc (w : Width) (v : BitVec w.bits) (s : Nat) : BitVec w.bits :=
  (List.range w.log2).foldl (gorcStage s) v

/-! ### Generalised shuffle -/

/-- `L_k` at 64 bits (R121). -/
def shflLeft64 : Nat → BitVec 64
  | 0 => 0x4444444444444444#64
  | 1 => 0x3030303030303030#64
  | 2 => 0x0F000F000F000F00#64
  | 3 => 0x00FF000000FF0000#64
  | _ => 0x0000FFFF00000000#64

/-- `R_k` at 64 bits (R121). -/
def shflRight64 : Nat → BitVec 64
  | 0 => 0x2222222222222222#64
  | 1 => 0x0C0C0C0C0C0C0C0C#64
  | 2 => 0x00F000F000F000F0#64
  | 3 => 0x0000FF000000FF00#64
  | _ => 0x00000000FFFF0000#64

/-- `stage_N(x, L, R, n)`: two groups of bits move past each other, the rest stays (R121). -/
def crossStage {n : Nat} (v left right : BitVec n) (dist : Nat) : BitVec n :=
  (v &&& ~~~(left ||| right)) ||| ((v <<< dist) &&& left) ||| ((v >>> dist) &&& right)

/-- Stage k of the shuffle if control bit k is set. -/
def shflStage {n : Nat} (s : Nat) (v : BitVec n) (k : Nat) : BitVec n :=
  if s.testBit k then crossStage v ((shflLeft64 k).setWidth n) ((shflRight64 k).setWidth n) (2 ^ k) else v

/-- `shfl_N(v, s)`: stages log2(N) - 2 down to 0, the widest first (R121). -/
def shfl (w : Width) (v : BitVec w.bits) (s : Nat) : BitVec w.bits :=
  (List.range (w.log2 - 1)).reverse.foldl (shflStage s) v

/-- `unshfl_N(v, s)`: stages 0 up to log2(N) - 2, the narrowest first (R121). -/
def unshfl (w : Width) (v : BitVec w.bits) (s : Nat) : BitVec w.bits :=
  (List.range (w.log2 - 1)).foldl (shflStage s) v

/-! ### The instructions -/

/-- R112. -/
def execGrev (rd rs1 rs2 : RegNum) (s : State) : Result :=
  retire rd s (grev s.xlen (s.get rs1) (lowBits s.xlen.log2 (s.get rs2)))

/-- R113. -/
def execGrevi (rd rs1 : RegNum) (shamt : BitVec 6) (s : State) : Result :=
  whenLegal (.grevi rd rs1 shamt) s (retire rd s (grev s.xlen (s.get rs1) shamt.toNat))

/-- R114. -/
def execGrevw (rd rs1 rs2 : RegNum) (s : State) : Result :=
  whenLegal (.grevw rd rs1 rs2) s
    (retire rd s (sextWord (grev .w32 (lowWord (s.get rs1)) (lowBits 5 (s.get rs2)))))

/-- R115. -/
def execGreviw (rd rs1 : RegNum) (shamt : BitVec 5) (s : State) : Result :=
  whenLegal (.greviw rd rs1 shamt) s
    (retire rd s (sextWord (grev .w32 (lowWord (s.get rs1)) shamt.toNat)))

/-- R117. -/
def execGorc (rd rs1 rs2 : RegNum) (s : State) : Result :=
  retire rd s (gorc s.xlen (s.get rs1) (lowBits s.xlen.log2 (s.get rs2)))

/-- R118. -/
def execGorci (rd rs1 : RegNum) (shamt : BitVec 6) (s : State) : Result :=
  whenLegal (.gorci rd rs1 shamt) s (retire rd s (gorc s.xlen (s.get rs1) shamt.toNat))

/-- R119. -/
def execGorcw (rd rs1 rs2 : RegNum) (s : State) : Result :=
  whenLegal (.gorcw rd rs1 rs2) s
    (retire rd s (sextWord (gorc .w32 (lowWord (s.get rs1)) (lowBits 5 (s.get rs2)))))

/-- R120. -/
def execGorciw (rd rs1 : RegNum) (shamt : BitVec 5) (s : State) : Result :=
  whenLegal (.gorciw rd rs1 shamt) s
    (retire rd s (sextWord (gorc .w32 (lowWord (s.get rs1)) shamt.toNat)))

/-- R122: the control is one bit narrower than a rotate amount. -/
def execShfl (rd rs1 rs2 : RegNum) (s : State) : Result :=
  retire rd s (shfl s.xlen (s.get rs1) (lowBits (s.xlen.log2 - 1) (s.get rs2)))

/-- R123. -/
def execUnshfl (rd rs1 rs2 : RegNum) (s : State) : Result :=
  retire rd s (unshfl s.xlen (s.get rs1) (lowBits (s.xlen.log2 - 1) (s.get rs2)))

/-- R124: the third operand is an immediate (90_conflicts.md C1). -/
def execShfli (rd rs1 : RegNum) (shamt : BitVec 5) (s : State) : Result :=
  whenLegal (.shfli rd rs1 shamt) s (retire rd s (shfl s.xlen (s.get rs1) shamt.toNat))

/-- R125: the third operand is an immediate (90_conflicts.md C1). -/
def execUnshfli (rd rs1 : RegNum) (shamt : BitVec 5) (s : State) : Result :=
  whenLegal (.unshfli rd rs1 shamt) s (retire rd s (unshfl s.xlen (s.get rs1) shamt.toNat))

/-- R126: four control bits. -/
def execShflw (rd rs1 rs2 : RegNum) (s : State) : Result :=
  whenLegal (.shflw rd rs1 rs2) s
    (retire rd s (sextWord (shfl .w32 (lowWord (s.get rs1)) (lowBits 4 (s.get rs2)))))

/-- R127: four control bits. -/
def execUnshflw (rd rs1 rs2 : RegNum) (s : State) : Result :=
  whenLegal (.unshflw rd rs1 rs2) s
    (retire rd s (sextWord (unshfl .w32 (lowWord (s.get rs1)) (lowBits 4 (s.get rs2)))))

end Sys2Proof.Machine
end

