-- ==== Sys2Proof/Machine/Rotate.lean ====
section
/-! DEFINITION. Rotations (40_rotations.md). -/

namespace Sys2Proof.Machine

/-- `ror_N(v, s)`, for `s < N` (R100). -/
def rotr {n : Nat} (v : BitVec n) (s : Nat) : BitVec n :=
  if s = 0 then v else (v >>> s) ||| (v <<< (n - s))

/-- `rol_N(v, s)`, for `s < N` (R100). -/
def rotl {n : Nat} (v : BitVec n) (s : Nat) : BitVec n :=
  if s = 0 then v else (v <<< s) ||| (v >>> (n - s))

/-- R101. -/
def execRor (rd rs1 rs2 : RegNum) (s : State) : Result :=
  retire rd s (rotr (s.get rs1) (lowBits s.xlen.log2 (s.get rs2)))

/-- R102. -/
def execRol (rd rs1 rs2 : RegNum) (s : State) : Result :=
  retire rd s (rotl (s.get rs1) (lowBits s.xlen.log2 (s.get rs2)))

/-- R103. -/
def execRori (rd rs1 : RegNum) (shamt : BitVec 6) (s : State) : Result :=
  whenLegal (.rori rd rs1 shamt) s (retire rd s (rotr (s.get rs1) shamt.toNat))

/-- R104. -/
def execRorw (rd rs1 rs2 : RegNum) (s : State) : Result :=
  whenLegal (.rorw rd rs1 rs2) s
    (retire rd s (sextWord (rotr (lowWord (s.get rs1)) (lowBits 5 (s.get rs2)))))

/-- R105. -/
def execRolw (rd rs1 rs2 : RegNum) (s : State) : Result :=
  whenLegal (.rolw rd rs1 rs2) s
    (retire rd s (sextWord (rotl (lowWord (s.get rs1)) (lowBits 5 (s.get rs2)))))

/-- R106. -/
def execRoriw (rd rs1 : RegNum) (shamt : BitVec 5) (s : State) : Result :=
  whenLegal (.roriw rd rs1 shamt) s (retire rd s (sextWord (rotr (lowWord (s.get rs1)) shamt.toNat)))

end Sys2Proof.Machine
end

