-- ==== Sys2Proof/Machine/Xperm.lean ====
section
/-! DEFINITION. Crossbar permutation (45_xperm.md). -/

namespace Sys2Proof.Machine

/-- Element i of a register read as a vector of `w`-bit elements: bits `w*i + w-1 : w*i` (R155). -/
def element {n : Nat} (w : Nat) (v : BitVec n) (i : Nat) : BitVec w := v.extractLsb' (w * i) w

/-- One turn of R155's loop: element i of the result, still zero, takes the indexed element of the table `a` if the index,
element i of `b`, is below the element count. -/
def xpermStep {n : Nat} (w : Nat) (a b : BitVec n) (r : BitVec n) (i : Nat) : BitVec n :=
  if (element w b i).toNat < n / w then
    r ||| ((element w a (element w b i).toNat).setWidth n <<< (w * i))
  else r

/-- `xperm_N_w(a, b)` (R155, 90_conflicts.md C2). -/
def xperm {n : Nat} (w : Nat) (a b : BitVec n) : BitVec n :=
  (List.range (n / w)).foldl (xpermStep w a b) 0

/-- `xperm.n` (R156). -/
def execXpermN (rd rs1 rs2 : RegNum) (s : State) : Result :=
  retire rd s (xperm 4 (s.get rs1) (s.get rs2))

/-- `xperm.b` (R157). -/
def execXpermB (rd rs1 rs2 : RegNum) (s : State) : Result :=
  retire rd s (xperm 8 (s.get rs1) (s.get rs2))

end Sys2Proof.Machine
end

