-- ==== Sys2Proof/Machine/Dispatch.lean ====
section
/-! DEFINITION. The dispatch: one arm per instruction, each one call of its meaning. -/

namespace Sys2Proof.Machine

def exec (i : Instr) (s : State) : Host.Outcome State Fault Refusal :=
  match i with
  -- Rotations (40_rotations.md)
  | .ror rd rs1 rs2 => Sys2Proof.Machine.execRor rd rs1 rs2 s
  | .rol rd rs1 rs2 => Sys2Proof.Machine.execRol rd rs1 rs2 s
  | .rori rd rs1 shamt => Sys2Proof.Machine.execRori rd rs1 shamt s
  | .rorw rd rs1 rs2 => Sys2Proof.Machine.execRorw rd rs1 rs2 s
  | .rolw rd rs1 rs2 => Sys2Proof.Machine.execRolw rd rs1 rs2 s
  | .roriw rd rs1 shamt => Sys2Proof.Machine.execRoriw rd rs1 shamt s
  -- Generalised reverse (41_permutations.md section 1)
  | .grev rd rs1 rs2 => Sys2Proof.Machine.execGrev rd rs1 rs2 s
  | .grevi rd rs1 shamt => Sys2Proof.Machine.execGrevi rd rs1 shamt s
  | .grevw rd rs1 rs2 => Sys2Proof.Machine.execGrevw rd rs1 rs2 s
  | .greviw rd rs1 shamt => Sys2Proof.Machine.execGreviw rd rs1 shamt s
  -- Generalised or-combine (41_permutations.md section 2)
  | .gorc rd rs1 rs2 => Sys2Proof.Machine.execGorc rd rs1 rs2 s
  | .gorci rd rs1 shamt => Sys2Proof.Machine.execGorci rd rs1 shamt s
  | .gorcw rd rs1 rs2 => Sys2Proof.Machine.execGorcw rd rs1 rs2 s
  | .gorciw rd rs1 shamt => Sys2Proof.Machine.execGorciw rd rs1 shamt s
  -- Generalised shuffle (41_permutations.md section 3)
  | .shfl rd rs1 rs2 => Sys2Proof.Machine.execShfl rd rs1 rs2 s
  | .unshfl rd rs1 rs2 => Sys2Proof.Machine.execUnshfl rd rs1 rs2 s
  | .shfli rd rs1 shamt => Sys2Proof.Machine.execShfli rd rs1 shamt s
  | .unshfli rd rs1 shamt => Sys2Proof.Machine.execUnshfli rd rs1 shamt s
  | .shflw rd rs1 rs2 => Sys2Proof.Machine.execShflw rd rs1 rs2 s
  | .unshflw rd rs1 rs2 => Sys2Proof.Machine.execUnshflw rd rs1 rs2 s
  -- Carry-less multiply (42_clmul.md)
  | .clmul rd rs1 rs2 => Sys2Proof.Machine.execClmul rd rs1 rs2 s
  | .clmulh rd rs1 rs2 => Sys2Proof.Machine.execClmulh rd rs1 rs2 s
  | .clmulr rd rs1 rs2 => Sys2Proof.Machine.execClmulr rd rs1 rs2 s
  | .clmulw rd rs1 rs2 => Sys2Proof.Machine.execClmulw rd rs1 rs2 s
  | .clmulhw rd rs1 rs2 => Sys2Proof.Machine.execClmulhw rd rs1 rs2 s
  | .clmulrw rd rs1 rs2 => Sys2Proof.Machine.execClmulrw rd rs1 rs2 s
  -- Logic with negate (43_logic_with_negate.md)
  | .andn rd rs1 rs2 => Sys2Proof.Machine.execAndn rd rs1 rs2 s
  | .orn rd rs1 rs2 => Sys2Proof.Machine.execOrn rd rs1 rs2 s
  | .xorn rd rs1 rs2 => Sys2Proof.Machine.execXorn rd rs1 rs2 s
  -- Packing (44_packing.md)
  | .pack rd rs1 rs2 => Sys2Proof.Machine.execPack rd rs1 rs2 s
  | .packu rd rs1 rs2 => Sys2Proof.Machine.execPacku rd rs1 rs2 s
  | .packh rd rs1 rs2 => Sys2Proof.Machine.execPackh rd rs1 rs2 s
  | .packw rd rs1 rs2 => Sys2Proof.Machine.execPackw rd rs1 rs2 s
  | .packuw rd rs1 rs2 => Sys2Proof.Machine.execPackuw rd rs1 rs2 s
  -- Crossbar permutation (45_xperm.md): `xperm.n`, `xperm.b`
  | .xpermN rd rs1 rs2 => Sys2Proof.Machine.execXpermN rd rs1 rs2 s
  | .xpermB rd rs1 rs2 => Sys2Proof.Machine.execXpermB rd rs1 rs2 s
  -- Companion base instructions (46_base_companion.md)
  | .lui rd imm => Sys2Proof.Machine.execLui rd imm s
  | .addi rd rs1 imm => Sys2Proof.Machine.execAddi rd rs1 imm s
  | .slli rd rs1 shamt => Sys2Proof.Machine.execSlli rd rs1 shamt s
  | .xor rd rs1 rs2 => Sys2Proof.Machine.execXor rd rs1 rs2 s
  | .or rd rs1 rs2 => Sys2Proof.Machine.execOr rd rs1 rs2 s
  | .jalr rd rs1 imm => Sys2Proof.Machine.execJalr rd rs1 imm s

end Sys2Proof.Machine
end

