-- ==== Sys2Proof/Machine/Step.lean ====
section
/-! DEFINITION. The step function of R180. -/

namespace Sys2Proof.Machine

/-- What the decoder's answer for a fetched word leads to (steps 4 and 5 of R180). -/
def runDecoded (bits : InstrWord) (s : State) : Decoded → Host.Outcome State Fault Refusal
  | .instr i => exec i s
  | .illegal _ => raiseIllegal bits s
  | .outsideSpec => refuseWord bits s

/-- One step (R180). The order is the priority of the exceptions (R187); there is no interrupt to take first (R188). -/
def step (s : State) : Host.Outcome State Fault Refusal :=
  if s.pc = s.haltPc then halt s
  else
    match s.fetch with
    | none => raiseAccessFault s
    | some bits => runDecoded bits s (decode s.xlen bits)

/-- The state with an instruction of the opcode table stored where the next step fetches (note 7: it stands for the
launcher's loading of a program, R201). Bits above `nbits` are zero. -/
def State.withFetchWord (s : State) (nbits w : Nat) : State :=
  s.placeWord (BitVec.ofNat 32 (w % 2 ^ nbits))

end Sys2Proof.Machine
end

