-- ==== Sys2Proof/Machine/Asm.lean ====
section
/-! DEFINITION. The assembler's side of the spec: register names (R22), mnemonics and operand syntax (R84), the
pseudo-instructions `ret` and `li` (R85, R166, R167) and the named special cases of R86. No meaning depends on it. -/

namespace Sys2Proof.Machine

/-- The assembler name the model prints for each of x0..x31 (R22). DESIGN CHOICE (note 20): R22 gives x8 two names,
`s0 / fp`, and does not say which one is printed; the model prints `s0`. -/
def abiNames : List String :=
  ["zero", "ra", "sp", "gp", "tp", "t0", "t1", "t2", "s0", "s1", "a0", "a1", "a2", "a3", "a4", "a5",
   "a6", "a7", "s2", "s3", "s4", "s5", "s6", "s7", "s8", "s9", "s10", "s11", "t3", "t4", "t5", "t6"]

/-- The assembler name of a register (R22; for x8 note 20). -/
def abiName (r : RegNum) : String := abiNames.getD r.toNat ""

/-- Every spelling of a register in assembly: `x0`..`x31` or the names of R22 (R84), for x8 `fp` too. -/
def spellings (r : RegNum) : List String :=
  ["x" ++ toString r.toNat, abiName r] ++ (if r = 8#5 then ["fp"] else [])

/-- The mnemonic of an instruction (R84). -/
def mnemonic : Instr → String
  | .ror .. => "ror"
  | .rol .. => "rol"
  | .rori .. => "rori"
  | .rorw .. => "rorw"
  | .rolw .. => "rolw"
  | .roriw .. => "roriw"
  | .grev .. => "grev"
  | .grevi .. => "grevi"
  | .grevw .. => "grevw"
  | .greviw .. => "greviw"
  | .gorc .. => "gorc"
  | .gorci .. => "gorci"
  | .gorcw .. => "gorcw"
  | .gorciw .. => "gorciw"
  | .shfl .. => "shfl"
  | .unshfl .. => "unshfl"
  | .shfli .. => "shfli"
  | .unshfli .. => "unshfli"
  | .shflw .. => "shflw"
  | .unshflw .. => "unshflw"
  | .clmul .. => "clmul"
  | .clmulh .. => "clmulh"
  | .clmulr .. => "clmulr"
  | .clmulw .. => "clmulw"
  | .clmulhw .. => "clmulhw"
  | .clmulrw .. => "clmulrw"
  | .andn .. => "andn"
  | .orn .. => "orn"
  | .xorn .. => "xorn"
  | .pack .. => "pack"
  | .packu .. => "packu"
  | .packh .. => "packh"
  | .packw .. => "packw"
  | .packuw .. => "packuw"
  | .xpermN .. => "xperm.n"
  | .xpermB .. => "xperm.b"
  | .lui .. => "lui"
  | .addi .. => "addi"
  | .slli .. => "slli"
  | .xor .. => "xor"
  | .or .. => "or"
  | .jalr .. => "jalr"

/-- The operands as the assembly writes them (R84; for the companion instructions R161, R162, R168). DESIGN CHOICE (note 21):
every immediate is printed in decimal, where R84 also allows hexadecimal with `0x` and R161's examples use it. -/
def operands : Instr → List String
  | .ror rd rs1 rs2 | .rol rd rs1 rs2 | .rorw rd rs1 rs2 | .rolw rd rs1 rs2 | .grev rd rs1 rs2 =>
    [abiName rd, abiName rs1, abiName rs2]
  | .grevw rd rs1 rs2 | .gorc rd rs1 rs2 | .gorcw rd rs1 rs2 | .shfl rd rs1 rs2 | .unshfl rd rs1 rs2 =>
    [abiName rd, abiName rs1, abiName rs2]
  | .shflw rd rs1 rs2 | .unshflw rd rs1 rs2 | .clmul rd rs1 rs2 | .clmulh rd rs1 rs2 | .clmulr rd rs1 rs2 =>
    [abiName rd, abiName rs1, abiName rs2]
  | .clmulw rd rs1 rs2 | .clmulhw rd rs1 rs2 | .clmulrw rd rs1 rs2 | .andn rd rs1 rs2 | .orn rd rs1 rs2 =>
    [abiName rd, abiName rs1, abiName rs2]
  | .xorn rd rs1 rs2 | .pack rd rs1 rs2 | .packu rd rs1 rs2 | .packh rd rs1 rs2 | .packw rd rs1 rs2 =>
    [abiName rd, abiName rs1, abiName rs2]
  | .packuw rd rs1 rs2 | .xpermN rd rs1 rs2 | .xpermB rd rs1 rs2 | .xor rd rs1 rs2 | .or rd rs1 rs2 =>
    [abiName rd, abiName rs1, abiName rs2]
  | .roriw rd rs1 shamt | .greviw rd rs1 shamt | .gorciw rd rs1 shamt | .shfli rd rs1 shamt | .unshfli rd rs1 shamt =>
    [abiName rd, abiName rs1, toString shamt.toNat]
  | .rori rd rs1 shamt | .grevi rd rs1 shamt | .gorci rd rs1 shamt | .slli rd rs1 shamt =>
    [abiName rd, abiName rs1, toString shamt.toNat]
  | .lui rd imm => [abiName rd, toString imm.toNat]
  | .addi rd rs1 imm => [abiName rd, abiName rs1, toString imm.toInt]
  | .jalr rd rs1 imm => [abiName rd, toString imm.toInt ++ "(" ++ abiName rs1 ++ ")"]

/-- One line of assembly: the mnemonic, then the operands separated by commas, destination first (R84). The single space after
the mnemonic and after each comma is a DESIGN CHOICE (note 21): whitespace is not significant (R84). -/
def assemblyLine (i : Instr) : String := mnemonic i ++ " " ++ String.intercalate ", " (operands i)

/-- A list of instructions run one after the other, stopping at the first that does not complete (R49). -/
def execSeq : List Instr → State → Result
  | [], s => .next s
  | i :: is, s =>
    match exec i s with
    | .next t => execSeq is t
    | .fault f => .fault f
    | .refused r => .refused r

/-! ### Pseudo-instructions -/

/-- `ret` is `jalr x0, 0(x1)` (R167). -/
def ret : Instr := .jalr 0 1 0

/-- `c[11:0]`, whose signed reading is `lo` in R166. -/
def liLow {n : Nat} (c : BitVec n) : BitVec 12 := c.extractLsb' 0 12

/-- `((c - lo) >> 12) & 0xFFFFF`, `hi` in R166. -/
def liHigh {n : Nat} (c : BitVec n) : BitVec 20 := (c - immI (liLow c)).extractLsb' 12 20

/-- `c` fits in 12 signed bits. -/
def liFits12 {n : Nat} (c : BitVec n) : Bool := immI (liLow c) == c

/-- R166's RV32 sequence: `lui` then `addi`, the `addi` alone where 12 bits do, the `lui` alone where `lo = 0`. -/
def liPair {n : Nat} (rd : RegNum) (c : BitVec n) : List Instr :=
  if liFits12 c then [.addi rd 0 (liLow c)]
  else if liLow c = 0 then [.lui rd (liHigh c)]
  else [.lui rd (liHigh c), .addi rd rd (liLow c)]

/-- The number of trailing zero bits of a nonzero constant. -/
def trailingZeros (c : BitVec 64) : Nat := ((List.range 64).find? (fun i => c.getLsbD i)).getD 0

/-- R166's `chain(c)`; six turns are enough for 64 bits, since each drops at least 12. -/
def liChain : Nat → RegNum → BitVec 64 → List Instr
  | 0, rd, c => [.addi rd 0 (liLow c)]
  | fuel + 1, rd, c =>
    if liFits12 c then [.addi rd 0 (liLow c)]
    else
      let rest := c - immI (liLow c)
      let amount := trailingZeros rest
      liChain fuel rd (rest.sshiftRight amount) ++ .slli rd rd (BitVec.ofNat 6 amount) ::
        (if liLow c = 0 then [] else [.addi rd rd (liLow c)])

/-- `li rd, c` (R166). DESIGN CHOICE (note 19): on RV64 the `lui`, `addi` pair is used where it reaches `c`; for the 2048
constants 0x7FFFF800 to 0x7FFFFFFF, which fit 32 signed bits and which the pair misses, `chain(c)` is used. -/
def li : (x : Width) → RegNum → BitVec x.bits → List Instr
  | .w32, rd, c => liPair rd c
  | .w64, rd, c =>
    if (c.extractLsb' 0 32).signExtend 64 = c ∧ immU (liHigh c) + immI (liLow c) = c then liPair rd c
    else liChain 6 rd c

/-! ### Named special cases (R86) -/

/-- Byte-order swap, the draft's `rev8`: control 24 or 56. -/
def rev8 (x : Width) (rd rs : RegNum) : Instr := .grevi rd rs (BitVec.ofNat 6 (x.bits - 8))

/-- Bitwise reversal, `rev`: control 31 or 63. -/
def revAll (x : Width) (rd rs : RegNum) : Instr := .grevi rd rs (BitVec.ofNat 6 (x.bits - 1))

/-- Short-order swap, `rev16`: control 16 or 48. -/
def rev16 (x : Width) (rd rs : RegNum) : Instr := .grevi rd rs (BitVec.ofNat 6 (x.bits - 16))

/-- Word-order swap, `rev32`, on RV64: control 32. -/
def rev32 (rd rs : RegNum) : Instr := .grevi rd rs 32

/-- Nibble-order swap, `rev4`: control 28 or 60. -/
def rev4 (x : Width) (rd rs : RegNum) : Instr := .grevi rd rs (BitVec.ofNat 6 (x.bits - 4))

/-- Bitwise reversal in a byte, `rev.b`: control 7. -/
def revB (rd rs : RegNum) : Instr := .grevi rd rs 7

/-- `orc.b`. -/
def orcB (rd rs : RegNum) : Instr := .gorci rd rs 7

/-- `zip`: control XLEN/2 - 1. -/
def zip (x : Width) (rd rs : RegNum) : Instr := .shfli rd rs (BitVec.ofNat 5 (x.bits / 2 - 1))

/-- `unzip`: control XLEN/2 - 1. -/
def unzip (x : Width) (rd rs : RegNum) : Instr := .unshfli rd rs (BitVec.ofNat 5 (x.bits / 2 - 1))

end Sys2Proof.Machine
end

