-- ==== Sys2Proof/Safety.lean ====
section
/-! DEFINITION. The terms in which statements speak of the machine: what is observed of a state, the invariant, a valid
launch, what an instruction reads and writes, how it completes or traps, and what a safe run is. -/

namespace Sys2Proof.Machine

/-! ### What is observed

The type of a register depends on XLEN, so registers of two states are compared bit by bit, or as unsigned numbers (R8). -/

/-- Bit k of `x[r]`; false at and above XLEN. -/
def State.bit (s : State) (r : RegNum) (k : Nat) : Bool := (s.get r).getLsbD k

/-- `x[r]` as an unsigned number (R8). -/
def State.val (s : State) (r : RegNum) : Nat := (s.get r).toNat

/-- The parameters are the same: XLEN, HALT_PC and every byte of IMEM (R7, R20, R29). -/
def SameParameters (s t : State) : Prop :=
  t.xlen = s.xlen ∧ t.haltPc.toNat = s.haltPc.toNat ∧ ∀ a, Memory.read t.imem a = Memory.read s.imem a

/-- Every register but `rd` is the same. -/
def SameRegistersBut (rd : RegNum) (s t : State) : Prop :=
  ∀ r, r ≠ rd → ∀ k, t.bit r k = s.bit r k

/-! ### Bit positions and sums, as the spec characterises its permutations and products -/

/-- The index obtained from `i` by exchanging index bits `k` and `k + 1`: where stage k of the shuffle sends the bit at `i`
(R121). -/
def swapIndexBits (k i : Nat) : Nat := if i.testBit k = i.testBit (k + 1) then i else i ^^^ (3 * 2 ^ k)

/-- The index after the stages of a list, of those that the control `s` selects, the first of the list first. -/
def sendIndex (s : Nat) (stages : List Nat) (i : Nat) : Nat :=
  stages.foldl (fun j k => if s.testBit k then swapIndexBits k j else j) i

/-- The exclusive or of `f 0`, ..., `f (n - 1)`. -/
def xorOver (n : Nat) (f : Nat → Bool) : Bool := (List.range n).foldl (fun acc i => acc ^^ f i) false

/-- Bit k of the carry-less product: "the exclusive or of `a[i] & b[k-i]` over all `i` with `0 <= i < N` and
`0 <= k-i < N`" (R130). -/
def clprodBit (n : Nat) (a b : Nat → Bool) (k : Nat) : Bool :=
  xorOver n fun i => decide (i ≤ k) && decide (k - i < n) && (a i && b (k - i))

/-- A `*w` form's result: the bits of a 32-bit word, bit 31 copied above (D2). -/
def sext32 (w : Nat → Bool) (k : Nat) : Bool := w (min k 31)

/-- The number of set bits. -/
def onesCount {n : Nat} (v : BitVec n) : Nat := ((List.range n).filter fun i => v.getLsbD i).length

/-! ### How an instruction completes -/

/-- Executing `i` at `s` completes (outcome NEXT of R180) with bit k of `x[rd]` equal to `f k` for every k below XLEN, or
with nothing written if `rd` is x0. Every other register, every byte of IMEM and the other parameters are as before, x0
reads zero, and pc has moved on by 4 modulo 2^XLEN (R21, R23, R24). -/
def CompletesWith (i : Instr) (s : State) (rd : RegNum) (f : Nat → Bool) : Prop :=
  ∃ t, exec i s = .next t ∧ SameParameters s t ∧ t.pc.toNat = (s.pc.toNat + 4) % 2 ^ s.xlen.bits ∧
    SameRegistersBut rd s t ∧ (∀ k, t.bit 0#5 k = false) ∧
    (rd ≠ 0#5 → ∀ k, k < s.xlen.bits → t.bit rd k = f k)

/-- The rule of one instruction: its assembly (mnemonic and operands, R84), the word that decodes to it, and what it writes
when it completes. Which allowed spelling of an operand is printed is the model's choice (notes 20, 21). -/
def Performs (s : State) (word : InstrWord) (i : Instr) (name : String) (args : List String) (rd : RegNum)
    (f : Nat → Bool) : Prop :=
  mnemonic i = name ∧ operands i = args ∧ decode s.xlen word = .instr i ∧ CompletesWith i s rd f

/-- The word is illegal at `s` (R79, R80): fetched, it raises IllegalInstruction with the word as tval (R185). -/
def TrapsAsIllegal (s : State) (word : InstrWord) : Prop :=
  (∃ rule, decode s.xlen word = .illegal rule) ∧
    (s.pc ≠ s.haltPc → s.fetch = some word →
      step s = .fault (.trap .illegalInstruction s.pc.toNat word.toNat))

/-! ### Invariant and launch -/

/-- IMEM lists whole aligned words only: it is a map from multiples of 4 to words (R41). -/
def Memory.wholeWords (m : Memory) : Bool := m.all fun c => (m.fetchWord (c.1 - c.1 % 4)).isSome

/-- Every listed address is an XLEN-bit address (R29). -/
def Memory.within (m : Memory) (x : Width) : Bool := m.all fun c => decide (c.1 < 2 ^ x.bits)

/-- What holds of every state of a run: pc and HALT_PC are multiples of 4 (R25, R7), IMEM is a map in canonical form from
aligned XLEN-bit addresses to words, and HALT_PC is outside its domain (R41). -/
abbrev State.Inv (s : State) : Prop :=
  s.pc.toNat % 4 = 0 ∧ s.haltPc.toNat % 4 = 0 ∧ Memory.wf s.imem = true ∧ Memory.wholeWords s.imem = true ∧
    Memory.within s.imem s.xlen = true ∧ Memory.fetchWord s.imem s.haltPc.toNat = none

/-- A launch as R201 and R7 describe it. -/
abbrev Launch.Valid (l : Launch) : Prop :=
  l.resetPc.toNat % 4 = 0 ∧ l.haltPc.toNat % 4 = 0 ∧ Memory.wf l.imem = true ∧ Memory.wholeWords l.imem = true ∧
    Memory.within l.imem l.xlen = true ∧ Memory.fetchWord l.imem l.haltPc.toNat = none

end Sys2Proof.Machine

namespace Sys2Proof

/-! ### What an instruction names -/

/-- The instruction is the companion `jalr`, the only one that changes pc other than by 4 (R24). -/
def Instr.isJalr : Instr → Bool
  | .jalr .. => true
  | .ror .. | .rol .. | .rori .. | .rorw .. | .rolw .. | .roriw .. => false
  | .grev .. | .grevi .. | .grevw .. | .greviw .. | .gorc .. | .gorci .. | .gorcw .. | .gorciw .. => false
  | .shfl .. | .unshfl .. | .shfli .. | .unshfli .. | .shflw .. | .unshflw .. => false
  | .clmul .. | .clmulh .. | .clmulr .. | .clmulw .. | .clmulhw .. | .clmulrw .. => false
  | .andn .. | .orn .. | .xorn .. | .pack .. | .packu .. | .packh .. | .packw .. | .packuw .. => false
  | .xpermN .. | .xpermB .. | .lui .. | .addi .. | .slli .. | .xor .. | .or .. => false

/-- The destination register `rd` (R23). -/
def Instr.dest : Instr → RegNum
  | .ror rd _ _ | .rol rd _ _ | .rori rd _ _ | .rorw rd _ _ | .rolw rd _ _ | .roriw rd _ _ => rd
  | .grev rd _ _ | .grevi rd _ _ | .grevw rd _ _ | .greviw rd _ _ => rd
  | .gorc rd _ _ | .gorci rd _ _ | .gorcw rd _ _ | .gorciw rd _ _ => rd
  | .shfl rd _ _ | .unshfl rd _ _ | .shfli rd _ _ | .unshfli rd _ _ | .shflw rd _ _ | .unshflw rd _ _ => rd
  | .clmul rd _ _ | .clmulh rd _ _ | .clmulr rd _ _ | .clmulw rd _ _ | .clmulhw rd _ _ | .clmulrw rd _ _ => rd
  | .andn rd _ _ | .orn rd _ _ | .xorn rd _ _ => rd
  | .pack rd _ _ | .packu rd _ _ | .packh rd _ _ | .packw rd _ _ | .packuw rd _ _ => rd
  | .xpermN rd _ _ | .xpermB rd _ _ => rd
  | .lui rd _ | .addi rd _ _ | .slli rd _ _ | .xor rd _ _ | .or rd _ _ | .jalr rd _ _ => rd

/-- The source registers: `rs1` and `rs2`, or `rs1` alone, or none (R23). -/
def Instr.sources : Instr → List RegNum
  | .ror _ rs1 rs2 | .rol _ rs1 rs2 | .rorw _ rs1 rs2 | .rolw _ rs1 rs2 => [rs1, rs2]
  | .grev _ rs1 rs2 | .grevw _ rs1 rs2 | .gorc _ rs1 rs2 | .gorcw _ rs1 rs2 => [rs1, rs2]
  | .shfl _ rs1 rs2 | .unshfl _ rs1 rs2 | .shflw _ rs1 rs2 | .unshflw _ rs1 rs2 => [rs1, rs2]
  | .clmul _ rs1 rs2 | .clmulh _ rs1 rs2 | .clmulr _ rs1 rs2 => [rs1, rs2]
  | .clmulw _ rs1 rs2 | .clmulhw _ rs1 rs2 | .clmulrw _ rs1 rs2 => [rs1, rs2]
  | .andn _ rs1 rs2 | .orn _ rs1 rs2 | .xorn _ rs1 rs2 => [rs1, rs2]
  | .pack _ rs1 rs2 | .packu _ rs1 rs2 | .packh _ rs1 rs2 | .packw _ rs1 rs2 | .packuw _ rs1 rs2 => [rs1, rs2]
  | .xpermN _ rs1 rs2 | .xpermB _ rs1 rs2 | .xor _ rs1 rs2 | .or _ rs1 rs2 => [rs1, rs2]
  | .rori _ rs1 _ | .grevi _ rs1 _ | .gorci _ rs1 _ | .slli _ rs1 _ => [rs1]
  | .roriw _ rs1 _ | .greviw _ rs1 _ | .gorciw _ rs1 _ | .shfli _ rs1 _ | .unshfli _ rs1 _ => [rs1]
  | .addi _ rs1 _ | .jalr _ rs1 _ => [rs1]
  | .lui _ _ => []

end Sys2Proof

namespace Sys2Proof.Machine

/-! ### Runs -/

/-- `k` steps (R180: "`NEXT` is the only outcome from which another step is taken"). -/
def run (k : Nat) (s : State) : Result := Host.Core.run Sys2Proof.core k s

/-- The outcome HALTED (R204 (a)). -/
def Halted (r : Result) : Prop := ∃ t, r = .fault (.halted t)

/-- The words of a program stand at pc, pc + 4, ... (modulo 2^XLEN), none of these addresses is HALT_PC, and each word
decodes to an instruction other than `jalr` (R205). -/
def StraightLineAt (s : State) (p : List InstrWord) : Prop :=
  ∀ k (h : k < p.length),
    Memory.fetchWord s.imem ((s.pc.toNat + 4 * k) % 2 ^ s.xlen.bits) = some p[k] ∧
    s.haltPc.toNat ≠ (s.pc.toNat + 4 * k) % 2 ^ s.xlen.bits ∧
    ∃ i, decode s.xlen p[k] = .instr i ∧ i.isJalr = false

/-- A run that is safe for `k` steps: it completes them or halts, with no trap and no refused word (R181, R204). -/
def SafeFor (k : Nat) (s : State) : Prop := (∃ t, run k s = .next t) ∨ Halted (run k s)

end Sys2Proof.Machine
end

