-- ==== Sys2Proof/Certificates/Slice0/Obligations.lean ====
section
/-! DEFINITION. The statements. The words are written out from the "Encoding" lines of the family files, never with the
model's encoder, and the results bit by bit from what the spec says a result is, never with the model's own helpers. Where an
operand clause spells a register or an immediate, which of the allowed spellings is printed is the model's choice (notes 20,
21). -/

section Statements

open Sys2Proof Sys2Proof.Machine

/-! ### Rotations (40_rotations.md) -/

/-- R101, R102: bit k of a rotate right by `x[rs2] mod XLEN` is bit k + amount modulo XLEN, of a rotate left bit k - amount. -/
def Obligations.RegisterRotatesMoveBits : Prop :=
  ∀ (s : State) (rd rs1 rs2 : RegNum),
    Performs s (wordR 0b0110000#7 0b101#3 0b0110011#7 rd rs1 rs2) (.ror rd rs1 rs2)
      "ror" [abiName rd, abiName rs1, abiName rs2] rd
      (fun k => s.bit rs1 ((k + s.val rs2 % s.xlen.bits) % s.xlen.bits)) ∧
    Performs s (wordR 0b0110000#7 0b001#3 0b0110011#7 rd rs1 rs2) (.rol rd rs1 rs2)
      "rol" [abiName rd, abiName rs1, abiName rs2] rd
      (fun k => s.bit rs1 ((k + s.xlen.bits - s.val rs2 % s.xlen.bits) % s.xlen.bits))

/-- R103: every word of the pattern, with the six bits 25:20 as the amount; an amount of XLEN or more is illegal. -/
def Obligations.ImmediateRotateMovesBits : Prop :=
  ∀ (s : State) (rd rs1 : RegNum) (u : BitVec 6),
    if u.toNat < s.xlen.bits then
      Performs s (wordIS6 0b011000#6 0b101#3 0b0010011#7 rd rs1 u) (.rori rd rs1 u)
        "rori" [abiName rd, abiName rs1, toString u.toNat] rd
        (fun k => s.bit rs1 ((k + u.toNat) % s.xlen.bits))
    else TrapsAsIllegal s (wordIS6 0b011000#6 0b101#3 0b0010011#7 rd rs1 u)

/-- R104, R105, R106: the low word rotated, sign-extended; illegal on RV32, and with a six-bit amount. -/
def Obligations.WordRotatesMoveBits : Prop :=
  ∀ (s : State) (rd rs1 rs2 : RegNum) (u : BitVec 6),
    (s.xlen = .w64 →
      Performs s (wordR 0b0110000#7 0b101#3 0b0111011#7 rd rs1 rs2) (.rorw rd rs1 rs2)
        "rorw" [abiName rd, abiName rs1, abiName rs2] rd
        (sext32 fun k => s.bit rs1 ((k + s.val rs2 % 32) % 32)) ∧
      Performs s (wordR 0b0110000#7 0b001#3 0b0111011#7 rd rs1 rs2) (.rolw rd rs1 rs2)
        "rolw" [abiName rd, abiName rs1, abiName rs2] rd
        (sext32 fun k => s.bit rs1 ((k + 32 - s.val rs2 % 32) % 32)) ∧
      (if u.toNat < 32 then
        Performs s (wordIS6 0b011000#6 0b101#3 0b0011011#7 rd rs1 u) (.roriw rd rs1 (u.setWidth 5))
          "roriw" [abiName rd, abiName rs1, toString u.toNat] rd
          (sext32 fun k => s.bit rs1 ((k + u.toNat) % 32))
      else TrapsAsIllegal s (wordIS6 0b011000#6 0b101#3 0b0011011#7 rd rs1 u))) ∧
    (s.xlen = .w32 →
      TrapsAsIllegal s (wordR 0b0110000#7 0b101#3 0b0111011#7 rd rs1 rs2) ∧
      TrapsAsIllegal s (wordR 0b0110000#7 0b001#3 0b0111011#7 rd rs1 rs2) ∧
      TrapsAsIllegal s (wordIS6 0b011000#6 0b101#3 0b0011011#7 rd rs1 u))

/-- R100: the two formulas, their bit by bit reading, and the laws the rule derives. -/
def Obligations.RotationLaws : Prop :=
  ∀ (w : Width) (v : BitVec w.bits) (a b : Nat), a < w.bits → b < w.bits →
    rotr v a = (if a = 0 then v else (v >>> a) ||| (v <<< (w.bits - a))) ∧
    rotl v a = (if a = 0 then v else (v <<< a) ||| (v >>> (w.bits - a))) ∧
    (∀ i, i < w.bits → (rotr v a).getLsbD i = v.getLsbD ((i + a) % w.bits)) ∧
    (∀ i, i < w.bits → (rotl v a).getLsbD i = v.getLsbD ((i + w.bits - a) % w.bits)) ∧
    rotl v a = rotr v ((w.bits - a) % w.bits) ∧
    rotr (rotr v a) b = rotr v ((a + b) % w.bits) ∧
    rotl (rotr v a) a = v ∧
    onesCount (rotr v a) = onesCount v ∧ onesCount (rotl v a) = onesCount v ∧
    rotr (0#w.bits) a = 0#w.bits ∧ rotr (BitVec.allOnes w.bits) a = BitVec.allOnes w.bits

/-! ### Generalised reverse and or-combine (41_permutations.md sections 1 and 2) -/

/-- R112, R113: bit k of the result is bit `k XOR control`. -/
def Obligations.ReversesPermuteByIndexXor : Prop :=
  ∀ (s : State) (rd rs1 rs2 : RegNum) (u : BitVec 6),
    Performs s (wordR 0b0110100#7 0b101#3 0b0110011#7 rd rs1 rs2) (.grev rd rs1 rs2)
      "grev" [abiName rd, abiName rs1, abiName rs2] rd
      (fun k => s.bit rs1 (k ^^^ (s.val rs2 % s.xlen.bits))) ∧
    (if u.toNat < s.xlen.bits then
      Performs s (wordIS6 0b011010#6 0b101#3 0b0010011#7 rd rs1 u) (.grevi rd rs1 u)
        "grevi" [abiName rd, abiName rs1, toString u.toNat] rd
        (fun k => s.bit rs1 (k ^^^ u.toNat))
    else TrapsAsIllegal s (wordIS6 0b011010#6 0b101#3 0b0010011#7 rd rs1 u))

/-- R114, R115: the low word reversed, sign-extended; illegal on RV32, and with a six-bit control. -/
def Obligations.WordReversesPermuteByIndexXor : Prop :=
  ∀ (s : State) (rd rs1 rs2 : RegNum) (u : BitVec 6),
    (s.xlen = .w64 →
      Performs s (wordR 0b0110100#7 0b101#3 0b0111011#7 rd rs1 rs2) (.grevw rd rs1 rs2)
        "grevw" [abiName rd, abiName rs1, abiName rs2] rd
        (sext32 fun k => s.bit rs1 (k ^^^ (s.val rs2 % 32))) ∧
      (if u.toNat < 32 then
        Performs s (wordIS6 0b011010#6 0b101#3 0b0011011#7 rd rs1 u) (.greviw rd rs1 (u.setWidth 5))
          "greviw" [abiName rd, abiName rs1, toString u.toNat] rd
          (sext32 fun k => s.bit rs1 (k ^^^ u.toNat))
      else TrapsAsIllegal s (wordIS6 0b011010#6 0b101#3 0b0011011#7 rd rs1 u))) ∧
    (s.xlen = .w32 →
      TrapsAsIllegal s (wordR 0b0110100#7 0b101#3 0b0111011#7 rd rs1 rs2) ∧
      TrapsAsIllegal s (wordIS6 0b011010#6 0b101#3 0b0011011#7 rd rs1 u))

/-- R111: each bit's source, the consequences and the named cases. -/
def Obligations.ReverseLaws : Prop :=
  ∀ (w : Width) (v : BitVec w.bits) (a b : Nat), a < w.bits → b < w.bits →
    (∀ i, i < w.bits → (grev w v a).getLsbD i = v.getLsbD (i ^^^ a)) ∧
    grev w v 0 = v ∧ grev w (grev w v a) a = v ∧ grev w (grev w v a) b = grev w v (a ^^^ b) ∧
    (∀ j k, j < w.log2 → k < w.log2 → grevStage a (grevStage a v j) k = grevStage a (grevStage a v k) j) ∧
    onesCount (grev w v a) = onesCount v ∧
    (∀ q r, q < w.bits / 8 → r < 8 →
      (grev w v (w.bits - 8)).getLsbD (8 * q + r) = v.getLsbD (8 * (w.bits / 8 - 1 - q) + r)) ∧
    (∀ i, i < w.bits → (grev w v (w.bits - 1)).getLsbD i = v.getLsbD (w.bits - 1 - i)) ∧
    (∀ q r, q < w.bits / 16 → r < 16 →
      (grev w v (w.bits - 16)).getLsbD (16 * q + r) = v.getLsbD (16 * (w.bits / 16 - 1 - q) + r)) ∧
    (w = .w64 → ∀ r, r < 32 →
      (grev w v 32).getLsbD r = v.getLsbD (32 + r) ∧ (grev w v 32).getLsbD (32 + r) = v.getLsbD r) ∧
    (∀ q r, q < w.bits / 4 → r < 4 →
      (grev w v (w.bits - 4)).getLsbD (4 * q + r) = v.getLsbD (4 * (w.bits / 4 - 1 - q) + r)) ∧
    (∀ q r, q < w.bits / 8 → r < 8 → (grev w v 7).getLsbD (8 * q + r) = v.getLsbD (8 * q + (7 - r)))

/-- R117, R118: bit k of the result is the or of the bits j for which `k XOR j` has ones only where the control has. -/
def Obligations.OrCombinesGatherBits : Prop :=
  ∀ (s : State) (rd rs1 rs2 : RegNum) (u : BitVec 6),
    Performs s (wordR 0b0010100#7 0b101#3 0b0110011#7 rd rs1 rs2) (.gorc rd rs1 rs2)
      "gorc" [abiName rd, abiName rs1, abiName rs2] rd
      (fun k => (List.range s.xlen.bits).any fun j =>
        (k ^^^ j) &&& (s.val rs2 % s.xlen.bits) == (k ^^^ j) && s.bit rs1 j) ∧
    (if u.toNat < s.xlen.bits then
      Performs s (wordIS6 0b001010#6 0b101#3 0b0010011#7 rd rs1 u) (.gorci rd rs1 u)
        "gorci" [abiName rd, abiName rs1, toString u.toNat] rd
        (fun k => (List.range s.xlen.bits).any fun j => (k ^^^ j) &&& u.toNat == (k ^^^ j) && s.bit rs1 j)
    else TrapsAsIllegal s (wordIS6 0b001010#6 0b101#3 0b0010011#7 rd rs1 u))

/-- R119, R120: the low word combined, sign-extended; illegal on RV32, and with a six-bit control. -/
def Obligations.WordOrCombinesGatherBits : Prop :=
  ∀ (s : State) (rd rs1 rs2 : RegNum) (u : BitVec 6),
    (s.xlen = .w64 →
      Performs s (wordR 0b0010100#7 0b101#3 0b0111011#7 rd rs1 rs2) (.gorcw rd rs1 rs2)
        "gorcw" [abiName rd, abiName rs1, abiName rs2] rd
        (sext32 fun k => (List.range 32).any fun j =>
          (k ^^^ j) &&& (s.val rs2 % 32) == (k ^^^ j) && s.bit rs1 j) ∧
      (if u.toNat < 32 then
        Performs s (wordIS6 0b001010#6 0b101#3 0b0011011#7 rd rs1 u) (.gorciw rd rs1 (u.setWidth 5))
          "gorciw" [abiName rd, abiName rs1, toString u.toNat] rd
          (sext32 fun k => (List.range 32).any fun j => (k ^^^ j) &&& u.toNat == (k ^^^ j) && s.bit rs1 j)
      else TrapsAsIllegal s (wordIS6 0b001010#6 0b101#3 0b0011011#7 rd rs1 u))) ∧
    (s.xlen = .w32 →
      TrapsAsIllegal s (wordR 0b0010100#7 0b101#3 0b0111011#7 rd rs1 rs2) ∧
      TrapsAsIllegal s (wordIS6 0b001010#6 0b101#3 0b0011011#7 rd rs1 u))

/-- R116: each bit of the or-combine and the consequences the rule derives. -/
def Obligations.OrCombineLaws : Prop :=
  (∀ (w : Width) (v : BitVec w.bits) (a : Nat), a < w.bits →
    (∀ i, i < w.bits → ((gorc w v a).getLsbD i = true ↔
      ∃ j, j < w.bits ∧ v.getLsbD j = true ∧ ∀ b, (i ^^^ j).testBit b = true → a.testBit b = true)) ∧
    (∀ j k, j < w.log2 → k < w.log2 → gorcStage a (gorcStage a v j) k = gorcStage a (gorcStage a v k) j) ∧
    gorc w v 0 = v ∧ (∀ i, v.getLsbD i = true → (gorc w v a).getLsbD i = true) ∧
    gorc w (gorc w v a) a = gorc w v a ∧ gorc w (0#w.bits) a = 0#w.bits ∧
    gorc w v (w.bits - 1) = (if v = 0#w.bits then 0#w.bits else BitVec.allOnes w.bits) ∧
    (∀ q r, q < w.bits / 8 → r < 8 →
      (gorc w v 7).getLsbD (8 * q + r) = (List.range 8).any fun b => v.getLsbD (8 * q + b))) ∧
  (∀ w : Width, ∃ v v' : BitVec w.bits, v ≠ v' ∧ gorc w v (w.bits - 1) = gorc w v' (w.bits - 1))

/-- R86: the immediates of the named operations, and what they do to the bits of a register. -/
def Obligations.NamedSpecialCases : Prop :=
  (∀ rd rs : RegNum,
    rev8 .w32 rd rs = .grevi rd rs 24 ∧ rev8 .w64 rd rs = .grevi rd rs 56 ∧
    revAll .w32 rd rs = .grevi rd rs 31 ∧ revAll .w64 rd rs = .grevi rd rs 63 ∧
    rev16 .w32 rd rs = .grevi rd rs 16 ∧ rev16 .w64 rd rs = .grevi rd rs 48 ∧
    rev32 rd rs = .grevi rd rs 32 ∧
    rev4 .w32 rd rs = .grevi rd rs 28 ∧ rev4 .w64 rd rs = .grevi rd rs 60 ∧
    revB rd rs = .grevi rd rs 7 ∧ orcB rd rs = .gorci rd rs 7 ∧
    zip .w32 rd rs = .shfli rd rs 15 ∧ zip .w64 rd rs = .shfli rd rs 31 ∧
    unzip .w32 rd rs = .unshfli rd rs 15 ∧ unzip .w64 rd rs = .unshfli rd rs 31) ∧
  (∀ (s : State) (rd rs : RegNum),
    CompletesWith (rev8 s.xlen rd rs) s rd
      (fun k => s.bit rs (8 * (s.xlen.bits / 8 - 1 - k / 8) + k % 8)) ∧
    CompletesWith (revAll s.xlen rd rs) s rd (fun k => s.bit rs (s.xlen.bits - 1 - k)) ∧
    CompletesWith (rev16 s.xlen rd rs) s rd
      (fun k => s.bit rs (16 * (s.xlen.bits / 16 - 1 - k / 16) + k % 16)) ∧
    (s.xlen = .w64 → CompletesWith (rev32 rd rs) s rd (fun k => s.bit rs (32 * (1 - k / 32) + k % 32))) ∧
    CompletesWith (rev4 s.xlen rd rs) s rd
      (fun k => s.bit rs (4 * (s.xlen.bits / 4 - 1 - k / 4) + k % 4)) ∧
    CompletesWith (revB rd rs) s rd (fun k => s.bit rs (8 * (k / 8) + (7 - k % 8))) ∧
    CompletesWith (orcB rd rs) s rd (fun k => (List.range 8).any fun b => s.bit rs (8 * (k / 8) + b)) ∧
    CompletesWith (zip s.xlen rd rs) s rd
      (fun k => s.bit rs (if k % 2 = 0 then k / 2 else s.xlen.bits / 2 + k / 2)) ∧
    CompletesWith (unzip s.xlen rd rs) s rd
      (fun k => s.bit rs (if k < s.xlen.bits / 2 then 2 * k else 2 * (k - s.xlen.bits / 2) + 1)))

/-! ### Generalised shuffle (41_permutations.md section 3) -/

/-- R122, R123: the source of bit k after the stages of the control, XLEN/2 values of it. -/
def Obligations.RegisterShufflesMoveBits : Prop :=
  ∀ (s : State) (rd rs1 rs2 : RegNum),
    Performs s (wordR 0b0000100#7 0b001#3 0b0110011#7 rd rs1 rs2) (.shfl rd rs1 rs2)
      "shfl" [abiName rd, abiName rs1, abiName rs2] rd
      (fun k => s.bit rs1 (sendIndex (s.val rs2 % (s.xlen.bits / 2)) (List.range (s.xlen.log2 - 1)) k)) ∧
    Performs s (wordR 0b0000100#7 0b101#3 0b0110011#7 rd rs1 rs2) (.unshfl rd rs1 rs2)
      "unshfl" [abiName rd, abiName rs1, abiName rs2] rd
      (fun k => s.bit rs1 (sendIndex (s.val rs2 % (s.xlen.bits / 2)) (List.range (s.xlen.log2 - 1)).reverse k))

/-- R124, R125: every word of the two patterns, with the six bits 25:20 as the control; XLEN/2 or more is illegal. -/
def Obligations.ImmediateShufflesMoveBits : Prop :=
  ∀ (s : State) (rd rs1 : RegNum) (u : BitVec 6),
    (if u.toNat < s.xlen.bits / 2 then
      Performs s (wordIS6 0b000010#6 0b001#3 0b0010011#7 rd rs1 u) (.shfli rd rs1 (u.setWidth 5))
        "shfli" [abiName rd, abiName rs1, toString u.toNat] rd
        (fun k => s.bit rs1 (sendIndex u.toNat (List.range (s.xlen.log2 - 1)) k))
    else TrapsAsIllegal s (wordIS6 0b000010#6 0b001#3 0b0010011#7 rd rs1 u)) ∧
    (if u.toNat < s.xlen.bits / 2 then
      Performs s (wordIS6 0b000010#6 0b101#3 0b0010011#7 rd rs1 u) (.unshfli rd rs1 (u.setWidth 5))
        "unshfli" [abiName rd, abiName rs1, toString u.toNat] rd
        (fun k => s.bit rs1 (sendIndex u.toNat (List.range (s.xlen.log2 - 1)).reverse k))
    else TrapsAsIllegal s (wordIS6 0b000010#6 0b101#3 0b0010011#7 rd rs1 u))

/-- R126, R127: the low word shuffled by four control bits, sign-extended; illegal on RV32. -/
def Obligations.WordShufflesMoveBits : Prop :=
  ∀ (s : State) (rd rs1 rs2 : RegNum),
    (s.xlen = .w64 →
      Performs s (wordR 0b0000100#7 0b001#3 0b0111011#7 rd rs1 rs2) (.shflw rd rs1 rs2)
        "shflw" [abiName rd, abiName rs1, abiName rs2] rd
        (sext32 fun k => s.bit rs1 (sendIndex (s.val rs2 % 16) (List.range 4) k)) ∧
      Performs s (wordR 0b0000100#7 0b101#3 0b0111011#7 rd rs1 rs2) (.unshflw rd rs1 rs2)
        "unshflw" [abiName rd, abiName rs1, abiName rs2] rd
        (sext32 fun k => s.bit rs1 (sendIndex (s.val rs2 % 16) (List.range 4).reverse k))) ∧
    (s.xlen = .w32 →
      TrapsAsIllegal s (wordR 0b0000100#7 0b001#3 0b0111011#7 rd rs1 rs2) ∧
      TrapsAsIllegal s (wordR 0b0000100#7 0b101#3 0b0111011#7 rd rs1 rs2))

/-- R121: what one stage does to the indices, where each bit of a shuffle comes from, and the consequences the rule derives. -/
def Obligations.ShuffleLaws : Prop :=
  (∀ (w : Width) (v : BitVec w.bits) (a : Nat), a < w.bits / 2 →
    (∀ k i, k < w.log2 - 1 → i < w.bits → a.testBit k = true →
      (shflStage a v k).getLsbD i = v.getLsbD (swapIndexBits k i)) ∧
    (∀ k, k < w.log2 - 1 → shflStage a (shflStage a v k) k = v) ∧
    (∀ i, i < w.bits →
      (shfl w v a).getLsbD i = v.getLsbD (sendIndex a (List.range (w.log2 - 1)) i) ∧
      (unshfl w v a).getLsbD i = v.getLsbD (sendIndex a (List.range (w.log2 - 1)).reverse i)) ∧
    unshfl w (shfl w v a) a = v ∧ shfl w (unshfl w v a) a = v ∧
    shfl w v 0 = v ∧ unshfl w v 0 = v ∧
    (∀ k, k < w.log2 - 1 → shfl w v (2 ^ k) = unshfl w v (2 ^ k)) ∧
    onesCount (shfl w v a) = onesCount v ∧ onesCount (unshfl w v a) = onesCount v ∧
    (∀ i, i < w.bits / 2 →
      (shfl w v (w.bits / 2 - 1)).getLsbD (2 * i) = v.getLsbD i ∧
      (shfl w v (w.bits / 2 - 1)).getLsbD (2 * i + 1) = v.getLsbD (w.bits / 2 + i) ∧
      (unshfl w v (w.bits / 2 - 1)).getLsbD i = v.getLsbD (2 * i) ∧
      (unshfl w v (w.bits / 2 - 1)).getLsbD (w.bits / 2 + i) = v.getLsbD (2 * i + 1))) ∧
  (∀ w : Width, ∃ v : BitVec w.bits, shflStage 3 (shflStage 3 v 0) 1 ≠ shflStage 3 (shflStage 3 v 1) 0)

/-! ### Carry-less multiply (42_clmul.md) -/

/-- R131, R132, R133: bits XLEN-1:0, 2*XLEN-1:XLEN and 2*XLEN-2:XLEN-1 of the carry-less product. -/
def Obligations.CarrylessMultiplies : Prop :=
  ∀ (s : State) (rd rs1 rs2 : RegNum),
    Performs s (wordR 0b0000101#7 0b001#3 0b0110011#7 rd rs1 rs2) (.clmul rd rs1 rs2)
      "clmul" [abiName rd, abiName rs1, abiName rs2] rd
      (fun k => clprodBit s.xlen.bits (s.bit rs1) (s.bit rs2) k) ∧
    Performs s (wordR 0b0000101#7 0b011#3 0b0110011#7 rd rs1 rs2) (.clmulh rd rs1 rs2)
      "clmulh" [abiName rd, abiName rs1, abiName rs2] rd
      (fun k => clprodBit s.xlen.bits (s.bit rs1) (s.bit rs2) (s.xlen.bits + k)) ∧
    Performs s (wordR 0b0000101#7 0b010#3 0b0110011#7 rd rs1 rs2) (.clmulr rd rs1 rs2)
      "clmulr" [abiName rd, abiName rs1, abiName rs2] rd
      (fun k => clprodBit s.xlen.bits (s.bit rs1) (s.bit rs2) (s.xlen.bits - 1 + k))

/-- R134, R135, R136: the same three parts of the product of the low words, sign-extended; illegal on RV32. -/
def Obligations.WordCarrylessMultiplies : Prop :=
  ∀ (s : State) (rd rs1 rs2 : RegNum),
    (s.xlen = .w64 →
      Performs s (wordR 0b0000101#7 0b001#3 0b0111011#7 rd rs1 rs2) (.clmulw rd rs1 rs2)
        "clmulw" [abiName rd, abiName rs1, abiName rs2] rd
        (sext32 fun k => clprodBit 32 (s.bit rs1) (s.bit rs2) k) ∧
      Performs s (wordR 0b0000101#7 0b011#3 0b0111011#7 rd rs1 rs2) (.clmulhw rd rs1 rs2)
        "clmulhw" [abiName rd, abiName rs1, abiName rs2] rd
        (sext32 fun k => clprodBit 32 (s.bit rs1) (s.bit rs2) (32 + k)) ∧
      Performs s (wordR 0b0000101#7 0b010#3 0b0111011#7 rd rs1 rs2) (.clmulrw rd rs1 rs2)
        "clmulrw" [abiName rd, abiName rs1, abiName rs2] rd
        (sext32 fun k => clprodBit 32 (s.bit rs1) (s.bit rs2) (31 + k))) ∧
    (s.xlen = .w32 →
      TrapsAsIllegal s (wordR 0b0000101#7 0b001#3 0b0111011#7 rd rs1 rs2) ∧
      TrapsAsIllegal s (wordR 0b0000101#7 0b011#3 0b0111011#7 rd rs1 rs2) ∧
      TrapsAsIllegal s (wordR 0b0000101#7 0b010#3 0b0111011#7 rd rs1 rs2))

/-- R130: each bit of the product, and the laws the rule derives. -/
def Obligations.CarrylessProductLaws : Prop :=
  ∀ (w : Width) (a b c : BitVec w.bits),
    (∀ k, k < 2 * w.bits →
      (clprod a b).getLsbD k = clprodBit w.bits (fun i => a.getLsbD i) (fun i => b.getLsbD i) k) ∧
    (clprod a b).getLsbD (2 * w.bits - 1) = false ∧
    clprod a b = clprod b a ∧ clprod a (0#w.bits) = 0#(2 * w.bits) ∧
    clprod a (1#w.bits) = a.setWidth (2 * w.bits) ∧
    (∀ j, j < w.bits → clprod a (BitVec.twoPow w.bits j) = a.setWidth (2 * w.bits) <<< j) ∧
    clprod (a ^^^ c) b = clprod a b ^^^ clprod c b

/-- The corner cases of R133 that the rule derives: `clmulr` from `clmulh` and `clmul`, and as the low product reversed. -/
def Obligations.ReversedCarrylessMultiply : Prop :=
  ∀ (w : Width) (a b : BitVec w.bits),
    clmulRev a b = (clmulHigh a b <<< 1) ||| (clmulLow a b >>> (w.bits - 1)) ∧
    clmulRev a b =
      grev w (clmulLow (grev w a (w.bits - 1)) (grev w b (w.bits - 1))) (w.bits - 1) ∧
    clprod a b = BitVec.setWidth (2 * w.bits) (clmulHigh a b ++ clmulLow a b)

/-! ### Logic with negate, packing, crossbar (43 to 45) -/

/-- R140, R141, R142. -/
def Obligations.LogicWithNegate : Prop :=
  ∀ (s : State) (rd rs1 rs2 : RegNum),
    Performs s (wordR 0b0100000#7 0b111#3 0b0110011#7 rd rs1 rs2) (.andn rd rs1 rs2)
      "andn" [abiName rd, abiName rs1, abiName rs2] rd (fun k => s.bit rs1 k && !s.bit rs2 k) ∧
    Performs s (wordR 0b0100000#7 0b110#3 0b0110011#7 rd rs1 rs2) (.orn rd rs1 rs2)
      "orn" [abiName rd, abiName rs1, abiName rs2] rd (fun k => s.bit rs1 k || !s.bit rs2 k) ∧
    Performs s (wordR 0b0100000#7 0b100#3 0b0110011#7 rd rs1 rs2) (.xorn rd rs1 rs2)
      "xorn" [abiName rd, abiName rs1, abiName rs2] rd (fun k => s.bit rs1 k == s.bit rs2 k)

/-- R145, R146, R147: the low halves, the high halves, the low bytes; `rs1` gives the lower part. -/
def Obligations.PacksJoinHalves : Prop :=
  ∀ (s : State) (rd rs1 rs2 : RegNum),
    Performs s (wordR 0b0000100#7 0b100#3 0b0110011#7 rd rs1 rs2) (.pack rd rs1 rs2)
      "pack" [abiName rd, abiName rs1, abiName rs2] rd
      (fun k => if k < s.xlen.bits / 2 then s.bit rs1 k else s.bit rs2 (k - s.xlen.bits / 2)) ∧
    Performs s (wordR 0b0100100#7 0b100#3 0b0110011#7 rd rs1 rs2) (.packu rd rs1 rs2)
      "packu" [abiName rd, abiName rs1, abiName rs2] rd
      (fun k => if k < s.xlen.bits / 2 then s.bit rs1 (k + s.xlen.bits / 2) else s.bit rs2 k) ∧
    Performs s (wordR 0b0000100#7 0b111#3 0b0110011#7 rd rs1 rs2) (.packh rd rs1 rs2)
      "packh" [abiName rd, abiName rs1, abiName rs2] rd
      (fun k => if k < 8 then s.bit rs1 k else if k < 16 then s.bit rs2 (k - 8) else false)

/-- R148, R149: RV32's `pack` and `packu` on the low words, sign-extended; illegal on RV32. -/
def Obligations.WordPacksJoinHalves : Prop :=
  ∀ (s : State) (rd rs1 rs2 : RegNum),
    (s.xlen = .w64 →
      Performs s (wordR 0b0000100#7 0b100#3 0b0111011#7 rd rs1 rs2) (.packw rd rs1 rs2)
        "packw" [abiName rd, abiName rs1, abiName rs2] rd
        (sext32 fun k => if k < 16 then s.bit rs1 k else s.bit rs2 (k - 16)) ∧
      Performs s (wordR 0b0100100#7 0b100#3 0b0111011#7 rd rs1 rs2) (.packuw rd rs1 rs2)
        "packuw" [abiName rd, abiName rs1, abiName rs2] rd
        (sext32 fun k => if k < 16 then s.bit rs1 (k + 16) else s.bit rs2 k)) ∧
    (s.xlen = .w32 →
      TrapsAsIllegal s (wordR 0b0000100#7 0b100#3 0b0111011#7 rd rs1 rs2) ∧
      TrapsAsIllegal s (wordR 0b0100100#7 0b100#3 0b0111011#7 rd rs1 rs2))

/-- R156, R157: element k / w of the result is the element of `x[rs1]` that element k / w of `x[rs2]` names, or zero when
that index is XLEN/w or more. -/
def Obligations.CrossbarsLookUpElements : Prop :=
  ∀ (s : State) (rd rs1 rs2 : RegNum),
    Performs s (wordR 0b0010100#7 0b010#3 0b0110011#7 rd rs1 rs2) (.xpermN rd rs1 rs2)
      "xperm.n" [abiName rd, abiName rs1, abiName rs2] rd
      (fun k => if s.val rs2 / 16 ^ (k / 4) % 16 < s.xlen.bits / 4
        then s.bit rs1 (4 * (s.val rs2 / 16 ^ (k / 4) % 16) + k % 4) else false) ∧
    Performs s (wordR 0b0010100#7 0b100#3 0b0110011#7 rd rs1 rs2) (.xpermB rd rs1 rs2)
      "xperm.b" [abiName rd, abiName rs1, abiName rs2] rd
      (fun k => if s.val rs2 / 256 ^ (k / 8) % 256 < s.xlen.bits / 8
        then s.bit rs1 (8 * (s.val rs2 / 256 ^ (k / 8) % 256) + k % 8) else false)

/-- R155: each element of the result, and the properties the rule derives. -/
def Obligations.CrossbarLaws : Prop :=
  ∀ (x : Width) (w : Nat) (a b : BitVec x.bits), w = 4 ∨ w = 8 →
    (∀ i, i < x.bits / w → element w (xperm w a b) i =
      if (element w b i).toNat < x.bits / w then element w a (element w b i).toNat else 0#w) ∧
    ((∀ i, i < x.bits / w → (element w b i).toNat = i) → xperm w a b = a) ∧
    xperm w (0#x.bits) b = 0#x.bits ∧
    (∀ i, i < x.bits / w → element w (xperm w a (0#x.bits)) i = element w a 0)

/-! ### Companion base instructions (46_base_companion.md) -/

/-- R161, R162. -/
def Obligations.LuiAndAddi : Prop :=
  ∀ (s : State) (rd rs1 : RegNum) (imm20 : BitVec 20) (imm12 : BitVec 12),
    Performs s (wordU 0b0110111#7 rd imm20) (.lui rd imm20) "lui" [abiName rd, toString imm20.toNat] rd
      (sext32 fun k => if k < 12 then false else imm20.getLsbD (k - 12)) ∧
    Performs s (wordI 0b000#3 0b0010011#7 rd rs1 imm12) (.addi rd rs1 imm12)
      "addi" [abiName rd, abiName rs1, toString imm12.toInt] rd
      (fun k => (((s.val rs1 : Int) + imm12.toInt) % (2 ^ s.xlen.bits : Nat)).toNat.testBit k)

/-- R163: zeros enter at bit 0; a shift of XLEN or more is illegal. -/
def Obligations.ShiftLeftImmediate : Prop :=
  ∀ (s : State) (rd rs1 : RegNum) (u : BitVec 6),
    if u.toNat < s.xlen.bits then
      Performs s (wordIS6 0b000000#6 0b001#3 0b0010011#7 rd rs1 u) (.slli rd rs1 u)
        "slli" [abiName rd, abiName rs1, toString u.toNat] rd
        (fun k => if k < u.toNat then false else s.bit rs1 (k - u.toNat))
    else TrapsAsIllegal s (wordIS6 0b000000#6 0b001#3 0b0010011#7 rd rs1 u)

/-- R164, R165. -/
def Obligations.XorAndOr : Prop :=
  ∀ (s : State) (rd rs1 rs2 : RegNum),
    Performs s (wordR 0b0000000#7 0b100#3 0b0110011#7 rd rs1 rs2) (.xor rd rs1 rs2)
      "xor" [abiName rd, abiName rs1, abiName rs2] rd (fun k => s.bit rs1 k ^^ s.bit rs2 k) ∧
    Performs s (wordR 0b0000000#7 0b110#3 0b0110011#7 rd rs1 rs2) (.or rd rs1 rs2)
      "or" [abiName rd, abiName rs1, abiName rs2] rd (fun k => s.bit rs1 k || s.bit rs2 k)

/-- R168: `target` is `(x[rs1] + sext(imm12)) mod 2^XLEN` with bit 0 cleared. With bit 1 of it set nothing is written and
InstructionAddressMisaligned is raised; otherwise the old pc + 4 is linked and pc becomes the target, be there a word in
IMEM or not. -/
def Obligations.JumpAndLinkRegister : Prop :=
  ∀ (s : State) (rd rs1 : RegNum) (imm : BitVec 12) (sum target : Nat),
    sum = (((s.val rs1 : Int) + imm.toInt) % (2 ^ s.xlen.bits : Nat)).toNat → target = sum - sum % 2 →
    mnemonic (.jalr rd rs1 imm) = "jalr" ∧
    operands (.jalr rd rs1 imm) = [abiName rd, toString imm.toInt ++ "(" ++ abiName rs1 ++ ")"] ∧
    decode s.xlen (wordI 0b000#3 0b1100111#7 rd rs1 imm) = .instr (.jalr rd rs1 imm) ∧
    (target.testBit 1 = true →
      exec (.jalr rd rs1 imm) s = .fault (.trap .instructionAddressMisaligned s.pc.toNat target)) ∧
    (target.testBit 1 = false →
      ∃ t, exec (.jalr rd rs1 imm) s = .next t ∧ SameParameters s t ∧ t.pc.toNat = target ∧
        SameRegistersBut rd s t ∧ t.val 0#5 = 0 ∧
        (rd ≠ 0#5 → t.val rd = (s.pc.toNat + 4) % 2 ^ s.xlen.bits))

/-- R167: `ret` is the word 0x00008067; it jumps to `x[1]` with bit 0 cleared and writes no register, or traps as `jalr`. -/
def Obligations.RetJumpsToReturnAddress : Prop :=
  ret = .jalr 0 1 0 ∧
  ∀ s : State, decode s.xlen 0x00008067#32 = .instr ret ∧
    (s.bit 1#5 1 = true →
      exec ret s = .fault (.trap .instructionAddressMisaligned s.pc.toNat (s.val 1#5 - s.val 1#5 % 2))) ∧
    (s.bit 1#5 1 = false →
      ∃ t, exec ret s = .next t ∧ SameParameters s t ∧ t.pc.toNat = s.val 1#5 - s.val 1#5 % 2 ∧
        ∀ r k, t.bit r k = s.bit r k)

/-- R166, for the model's own choice of the sequence (note 19): it consists of `lui`, `addi` and, on RV64, `slli`, and
leaves the constant in `rd` and nothing else changed. -/
def Obligations.LoadImmediateLeavesConstant : Prop :=
  ∀ (s : State) (rd : RegNum) (c : BitVec s.xlen.bits),
    (∀ i ∈ li s.xlen rd c, (∃ imm, i = .lui rd imm) ∨ (∃ rs1 imm, i = .addi rd rs1 imm) ∨
      (s.xlen = .w64 ∧ ∃ shamt, i = .slli rd rd shamt)) ∧
    ∃ t, execSeq (li s.xlen rd c) s = .next t ∧ SameParameters s t ∧
      t.pc.toNat = (s.pc.toNat + 4 * (li s.xlen rd c).length) % 2 ^ s.xlen.bits ∧
      SameRegistersBut rd s t ∧ (∀ k, t.bit 0#5 k = false) ∧
      (rd ≠ 0#5 → ∀ k, k < s.xlen.bits → t.bit rd k = c.getLsbD k)

/-! ### Encoding (30_encoding.md) -/

/-- Decode and encode agree: an instruction that the XLEN has comes back from its own word, every operand at every value. -/
def Obligations.DecodeOfEncode : Prop :=
  ∀ (x : Width) (i : Instr), i.wf x = true → decode x (encode i) = .instr i

/-- Each word has one meaning: what decodes to an instruction is the word of that instruction, and the XLEN has it. -/
def Obligations.EncodeOfDecode : Prop :=
  ∀ (x : Width) (w : InstrWord) (i : Instr), decode x w = .instr i → i.wf x = true ∧ encode i = w

/-- The word of an instruction that the XLEN lacks is illegal, and its meaning raises the same exception. The second clause
is the model's (note 12): the decoder never hands such an instruction to its meaning. -/
def Obligations.AbsentInstructionIsIllegal : Prop :=
  ∀ (i : Instr) (s : State), i.wf s.xlen = false →
    TrapsAsIllegal s (encode i) ∧
    exec i s = .fault (.trap .illegalInstruction s.pc.toNat (encode i).toNat)

/-- R76, R77: 48 rows, 28 of them for RV32 and 42 for RV64, and no word matches two rows of one XLEN. -/
def Obligations.OpcodeRowsAreDisjoint : Prop :=
  opRows.length = 48 ∧ (opRows.filter (OpRow.has · .w32)).length = 28 ∧
  (opRows.filter (OpRow.has · .w64)).length = 42 ∧
  ∀ (x : Width) (w : InstrWord) (a b : Fin opRows.length),
    (opRows.get a).has x = true → (opRows.get b).has x = true →
    (opRows.get a).fits w = true → (opRows.get b).fits w = true → a = b

/-- R61: an instruction's word ends in 11; a 16-bit parcel and the start of a longer instruction are refused. -/
def Obligations.OnlyThirtyTwoBitWordsDecode : Prop :=
  ∀ (x : Width) (w : InstrWord),
    (∀ i, decode x w = .instr i → w.extractLsb' 0 2 = 0b11#2) ∧
    (w.extractLsb' 0 2 ≠ 0b11#2 → decode x w = .outsideSpec) ∧
    (w.extractLsb' 0 5 = 0b11111#5 → decode x w = .outsideSpec)

/-- R79, R80, R185: exactly the words that the two rules name are illegal, and each raises IllegalInstruction. -/
def Obligations.IllegalWordsAreThoseNamed : Prop :=
  (∀ w : InstrWord, (∃ r, decode .w64 w = .illegal r) ↔
    (w &&& 0xFC00707F#32 = 0x08001013#32 ∨ w &&& 0xFC00707F#32 = 0x08005013#32 ∨
      w &&& 0xFC00707F#32 = 0x6000501B#32 ∨ w &&& 0xFC00707F#32 = 0x6800501B#32 ∨
      w &&& 0xFC00707F#32 = 0x2800501B#32) ∧ w.getLsbD 25 = true) ∧
  (∀ w : InstrWord, (∃ r, decode .w32 w = .illegal r) ↔
    (∃ i, i.rv64Only = true ∧ encode i = w) ∨
    ((w &&& 0xFC00707F#32 = 0x60005013#32 ∨ w &&& 0xFC00707F#32 = 0x68005013#32 ∨
      w &&& 0xFC00707F#32 = 0x28005013#32 ∨ w &&& 0xFC00707F#32 = 0x00001013#32) ∧ w.getLsbD 25 = true) ∨
    ((w &&& 0xFC00707F#32 = 0x08001013#32 ∨ w &&& 0xFC00707F#32 = 0x08005013#32) ∧
      w.extractLsb' 24 2 ≠ 0b00#2) ∨
    ((w &&& 0xFC00707F#32 = 0x6000501B#32 ∨ w &&& 0xFC00707F#32 = 0x6800501B#32 ∨
      w &&& 0xFC00707F#32 = 0x2800501B#32) ∧ w.getLsbD 25 = true)) ∧
  (∀ (s : State) (w : InstrWord) (r : IllegalRule), decode s.xlen w = .illegal r → TrapsAsIllegal s w)

/-- R78, R81: a word is refused exactly when it is no instruction's word for the XLEN and is not illegal. -/
def Obligations.EveryOtherWordIsRefused : Prop :=
  ∀ (x : Width) (w : InstrWord),
    (decode x w = .outsideSpec ↔
      (∀ i : Instr, i.wf x = true → encode i ≠ w) ∧ ∀ r, decode x w ≠ .illegal r) ∧
    ∀ s : State, s.xlen = x → s.pc ≠ s.haltPc → s.fetch = some w → decode x w = .outsideSpec →
      step s = .refused (.outsideSpec s.pc.toNat w)

/-- The words of loads, stores, fences and system instructions, which R46, R50 and R193 say are refused. -/
def Obligations.MemoryAndSystemWordsAreRefused : Prop :=
  ∀ (x : Width) (w : InstrWord),
    w.extractLsb' 0 7 = 0b0000011#7 ∨ w.extractLsb' 0 7 = 0b0100011#7 ∨
    w.extractLsb' 0 7 = 0b0001111#7 ∨ w.extractLsb' 0 7 = 0b1110011#7 → decode x w = .outsideSpec

/-- Words written out in the spec's examples decode to the instruction they stand for. -/
def Obligations.SampleWordsDecode : Prop :=
  decode .w32 0x60C5D533#32 = .instr (.ror 10 11 12) ∧ decode .w64 0x6285D513#32 = .instr (.rori 10 11 40) ∧
  decode .w64 0x68C5D53B#32 = .instr (.grevw 10 11 12) ∧ decode .w32 0x2875D513#32 = .instr (.gorci 10 11 7) ∧
  decode .w64 0x09F59513#32 = .instr (.shfli 10 11 31) ∧ decode .w32 0x0AC5A533#32 = .instr (.clmulr 10 11 12) ∧
  decode .w32 0x40C5C533#32 = .instr (.xorn 10 11 12) ∧ decode .w64 0x48C5C53B#32 = .instr (.packuw 10 11 12) ∧
  decode .w64 0x28A2A533#32 = .instr (.xpermN 10 5 10) ∧ decode .w32 0x4D5E12B7#32 = .instr (.lui 5 0x4D5E1) ∧
  decode .w32 0x87628293#32 = .instr (.addi 5 5 (-1930)) ∧ decode .w64 0x00008067#32 = .instr (.jalr 0 1 0)

/-! ### Fetch and step (20_memory.md, 60_exceptions.md) -/

/-- R41, R42, R44: the byte at pc is the word's lowest; a fetch answers exactly the four bytes from an aligned pc upward. That
a misaligned pc (note 10) and a word of which only a part is listed (note 11) fetch nothing is the model's choice. -/
def Obligations.FetchIsLittleEndian : Prop :=
  ∀ (s : State) (w : InstrWord), s.fetch = some w ↔
    s.pc.toNat % 4 = 0 ∧
    Memory.read s.imem s.pc.toNat = some (w.extractLsb' 0 8) ∧
    Memory.read s.imem (s.pc.toNat + 1) = some (w.extractLsb' 8 8) ∧
    Memory.read s.imem (s.pc.toNat + 2) = some (w.extractLsb' 16 8) ∧
    Memory.read s.imem (s.pc.toNat + 3) = some (w.extractLsb' 24 8)

/-- When the four bytes at an aligned pc, which is not HALT_PC, decode to an instruction, the step is that instruction's
execution at that state, and nothing else. -/
def Obligations.StepRunsDecodedInstruction : Prop :=
  ∀ (s : State) (b0 b1 b2 b3 : Byte) (i : Instr),
    s.pc ≠ s.haltPc → s.pc.toNat % 4 = 0 →
    Memory.read s.imem s.pc.toNat = some b0 → Memory.read s.imem (s.pc.toNat + 1) = some b1 →
    Memory.read s.imem (s.pc.toNat + 2) = some b2 → Memory.read s.imem (s.pc.toNat + 3) = some b3 →
    decodeBytes s.xlen [b0, b1, b2, b3] = .instr i → i.wf s.xlen = true ∧ step s = exec i s

/-- R180: the one outcome of a step, case by case in the rule's order. NEXT is the only outcome after which a run goes on. -/
def Obligations.StepOutcomes : Prop :=
  ∀ s : State,
    (s.pc = s.haltPc → step s = .fault (.halted s)) ∧
    (s.pc ≠ s.haltPc → s.fetch = none → step s = .fault (.trap .instructionAccessFault s.pc.toNat s.pc.toNat)) ∧
    (∀ w, s.pc ≠ s.haltPc → s.fetch = some w →
      (∀ i, decode s.xlen w = .instr i → step s = exec i s ∧
        ((∃ t, exec i s = .next t ∧ (i.isJalr = false → t.pc.toNat = (s.pc.toNat + 4) % 2 ^ s.xlen.bits)) ∨
          (i.isJalr = true ∧
            ∃ target, exec i s = .fault (.trap .instructionAddressMisaligned s.pc.toNat target)))) ∧
      (∀ r, decode s.xlen w = .illegal r → step s = .fault (.trap .illegalInstruction s.pc.toNat w.toNat)) ∧
      (decode s.xlen w = .outsideSpec → step s = .refused (.outsideSpec s.pc.toNat w))) ∧
    (∀ k, run (k + 1) s = match step s with
      | .next t => run k t
      | .fault f => .fault f
      | .refused r => .refused r)

/-- R183, R184: the three causes with their codes, what raises each, and the epc and tval it reports. -/
def Obligations.TrapReportsCauseAndAddress : Prop :=
  Cause.instructionAddressMisaligned.code = 0 ∧ Cause.instructionAccessFault.code = 1 ∧
  Cause.illegalInstruction.code = 2 ∧
  ∀ (s : State) (c : Cause) (epc tval : Nat), step s = .fault (.trap c epc tval) →
    s.pc ≠ s.haltPc ∧ epc = s.pc.toNat ∧
    (c = .instructionAddressMisaligned →
      ∃ w rd rs1 imm, s.fetch = some w ∧ decode s.xlen w = .instr (.jalr rd rs1 imm) ∧
        (tval : Int) = ((s.val rs1 : Int) + imm.toInt) % (2 ^ s.xlen.bits : Nat) -
          ((s.val rs1 : Int) + imm.toInt) % 2 ∧ tval % 4 = 2) ∧
    (c = .instructionAccessFault → s.fetch = none ∧ tval = s.pc.toNat) ∧
    (c = .illegalInstruction →
      ∃ w r, s.fetch = some w ∧ decode s.xlen w = .illegal r ∧ tval = w.toNat)

/-- R186: once decoded, every instruction but `jalr` completes under all operand values. -/
def Obligations.DecodedInstructionsNeverRaise : Prop :=
  ∀ (s : State) (w : InstrWord) (i : Instr), decode s.xlen w = .instr i → i.isJalr = false →
    ∃ t, exec i s = .next t ∧ SameParameters s t ∧ SameRegistersBut i.dest s t ∧
      t.pc.toNat = (s.pc.toNat + 4) % 2 ^ s.xlen.bits

/-- R21, R24, R25, R29: what a completed step changes: the destination of the instruction that it fetched and decoded, and
pc, by 4 unless that instruction is a `jalr`. -/
def Obligations.StepChangesOneRegisterAndPc : Prop :=
  ∀ s t : State, step s = .next t →
    SameParameters s t ∧ (∀ k, t.bit 0#5 k = false) ∧
    ∃ w i, s.fetch = some w ∧ decode s.xlen w = .instr i ∧ SameRegistersBut i.dest s t ∧
      (i.isJalr = false → t.pc.toNat = (s.pc.toNat + 4) % 2 ^ s.xlen.bits) ∧
      (i.isJalr = true → t.pc.toNat % 4 = 0)

/-- R23, R47: the result is a function of the XLEN and the source registers alone, not of pc, IMEM, HALT_PC or any other
register. -/
def Obligations.ResultDependsOnSourcesOnly : Prop :=
  ∀ (i : Instr) (s t : State), s.xlen = t.xlen → i.wf s.xlen = true → i.isJalr = false →
    (∀ r ∈ i.sources, ∀ k, s.bit r k = t.bit r k) →
    ∃ s' t', exec i s = .next s' ∧ exec i t = .next t' ∧ ∀ k, s'.bit i.dest k = t'.bit i.dest k

/-- R82: with destination x0 an instruction other than `jalr` changes nothing but pc. -/
def Obligations.DestinationX0ChangesOnlyPc : Prop :=
  ∀ (i : Instr) (s : State), i.wf s.xlen = true → i.isJalr = false → i.dest = 0#5 →
    ∃ t, exec i s = .next t ∧ SameParameters s t ∧ (∀ r k, t.bit r k = s.bit r k) ∧
      t.pc.toNat = (s.pc.toNat + 4) % 2 ^ s.xlen.bits

/-! ### State, launch and runs (10_state.md, 70_reset_and_hazards.md) -/

/-- R21: 31 registers hold the last value written, x0 reads zero and discards writes, and none is wider than XLEN. -/
def Obligations.RegistersHoldLastValueWritten : Prop :=
  ∀ (s : State) (rd : RegNum) (v next : BitVec s.xlen.bits) (r : RegNum) (k : Nat),
    (s.commit rd v next).bit r k =
      (if r = 0#5 then false else if r = rd then v.getLsbD k else s.bit r k) ∧
    s.bit 0#5 k = false ∧ (s.xlen.bits ≤ k → s.bit r k = false)

/-- R200: a run starts at RESET_PC with x0 zero and x1..x31 as the launch supplies them, whatever they are. -/
def Obligations.LaunchSetsPcAndRegisters : Prop :=
  ∀ l : Launch, (State.launch l).xlen = l.xlen ∧ (State.launch l).pc = l.resetPc ∧
    (State.launch l).haltPc = l.haltPc ∧ (State.launch l).imem = l.imem ∧ (State.launch l).val 0#5 = 0 ∧
    ∀ n : Fin 31, (State.launch l).val (BitVec.ofNat 5 (n + 1)) = l.regs[n].toNat

/-- The model's own reset: the values of notes 1 to 4 and 7, which the spec leaves open; nothing is loaded, so the first
step is an access fault. -/
def Obligations.ResetStateOfTheModel : Prop :=
  State.reset.xlen = .w64 ∧ State.reset.pc.toNat = 0x1000 ∧ State.reset.haltPc.toNat = 0x2000 ∧
  State.reset.imem = [] ∧ (∀ r, State.reset.val r = 0) ∧
  step State.reset = .fault (.trap .instructionAccessFault 0x1000 0x1000)

/-- The invariant holds of the reset state and of every launch that R7 and R201 allow. -/
def Obligations.LaunchMeetsStateConditions : Prop :=
  State.reset.Inv ∧ ∀ l : Launch, l.Valid → (State.launch l).Inv

/-- R25: every step from a state of the invariant leads to one: pc is a multiple of 4 again, and IMEM stays a map from
aligned XLEN-bit addresses to words that does not hold HALT_PC. -/
def Obligations.StepKeepsStateConditions : Prop :=
  ∀ s t : State, s.Inv → step s = .next t → t.Inv

/-- A program's words laid out from an aligned base are what is fetched there, nothing else is, and with HALT_PC outside
them the launch is one that R201 allows. -/
def Obligations.LoadedProgramIsFetched : Prop :=
  ∀ (x : Width) (a : Nat) (p : List InstrWord) (haltPc resetPc : BitVec x.bits) (regs : RegFile x.bits),
    a % 4 = 0 → a + 4 * p.length ≤ 2 ^ x.bits → haltPc.toNat % 4 = 0 → resetPc.toNat % 4 = 0 →
    (haltPc.toNat < a ∨ a + 4 * p.length ≤ haltPc.toNat) →
    (∀ k (h : k < p.length), Memory.fetchWord (Memory.loadWords [] a p) (a + 4 * k) = some p[k]) ∧
    (∀ b, b < a ∨ a + 4 * p.length ≤ b → Memory.read (Memory.loadWords [] a p) b = none) ∧
    Launch.Valid ⟨x, Memory.loadWords [] a p, resetPc, haltPc, regs⟩

/-- The state with a word placed for the next step (note 7): that step fetches exactly this word, and nothing else but
HALT_PC, where it stood at pc, and the four bytes at pc has changed. -/
def Obligations.PlacedWordIsFetchedNext : Prop :=
  ∀ (s : State) (nbits w : Nat), s.pc.toNat % 4 = 0 →
    (s.withFetchWord nbits w).fetch = some (BitVec.ofNat 32 (w % 2 ^ nbits)) ∧
    (s.withFetchWord nbits w).pc.toNat = s.pc.toNat ∧
    (s.withFetchWord nbits w).pc.toNat ≠ (s.withFetchWord nbits w).haltPc.toNat ∧
    (s.pc ≠ s.haltPc → (s.withFetchWord nbits w).haltPc.toNat = s.haltPc.toNat) ∧
    (s.withFetchWord nbits w).xlen = s.xlen ∧ (∀ r k, (s.withFetchWord nbits w).bit r k = s.bit r k) ∧
    (∀ b, b < s.pc.toNat ∨ s.pc.toNat + 4 ≤ b →
      Memory.read (s.withFetchWord nbits w).imem b = Memory.read s.imem b)

/-- R205: a straight-line program runs its n instructions once each in order: after k steps the run is where executing the
first k decoded instructions one after the other leads, registers and pc. Then it halts if HALT_PC is next and access-faults
if nothing is there; what it leaves in the registers does not depend on where it stands. -/
def Obligations.StraightLineProgramsRunInOrder : Prop :=
  ∀ (s : State) (p : List InstrWord), StraightLineAt s p →
    (∃ is : List Instr, p.map (decode s.xlen) = is.map Decoded.instr ∧
      ∀ k, k ≤ p.length → run k s = execSeq (is.take k) s) ∧
    (∀ k, k ≤ p.length → ∃ t, run k s = .next t ∧ SameParameters s t ∧
      t.pc.toNat = (s.pc.toNat + 4 * k) % 2 ^ s.xlen.bits ∧
      (k = p.length → t.pc = t.haltPc → run (k + 1) s = .fault (.halted t)) ∧
      (k = p.length → t.pc ≠ t.haltPc → t.fetch = none →
        run (k + 1) s = .fault (.trap .instructionAccessFault t.pc.toNat t.pc.toNat))) ∧
    (∀ s' : State, s'.xlen = s.xlen → StraightLineAt s' p → (∀ r k, s'.bit r k = s.bit r k) →
      ∃ t t', run p.length s = .next t ∧ run p.length s' = .next t' ∧ ∀ r k, t'.bit r k = t.bit r k)

/-! ### Assembly (10_state.md R22) -/

/-- R22, R84: the name the model prints for each register is the table's, where that x8 prints as `s0` and not as `fp` is the
model's choice (note 20); no spelling, `x<i>` and `fp` included, is shared by two registers. -/
def Obligations.RegisterNames : Prop :=
  (List.range 32).map (fun i => abiName (BitVec.ofNat 5 i)) =
    ["zero", "ra", "sp", "gp", "tp", "t0", "t1", "t2", "s0", "s1", "a0", "a1", "a2", "a3", "a4", "a5",
     "a6", "a7", "s2", "s3", "s4", "s5", "s6", "s7", "s8", "s9", "s10", "s11", "t3", "t4", "t5", "t6"] ∧
  (∀ a b : RegNum, abiName a = abiName b → a = b) ∧
  (∀ r : RegNum, ("x" ++ toString r.toNat) ∈ spellings r ∧ abiName r ∈ spellings r) ∧ "fp" ∈ spellings 8#5 ∧
  (∀ (a b : RegNum) (n : String), n ∈ spellings a → n ∈ spellings b → a = b)

end Statements
end

