-- ==== Sys2Proof/Laws/State.lean ====
section
/-! SUPPORT. The small lemmas of State: one per field per update, and the register file's laws (R21, R23). -/

namespace Sys2Proof.Machine

/-! ### Fields after a commit -/

section
variable (s : State) (rd : RegNum) (v next : BitVec s.xlen.bits)

@[simp] theorem State.commit_xlen : (s.commit rd v next).xlen = s.xlen := rfl
@[simp] theorem State.commit_imem : (s.commit rd v next).imem = s.imem := rfl
@[simp] theorem State.commit_haltPc : (s.commit rd v next).haltPc = s.haltPc := rfl
@[simp] theorem State.commit_regs : (s.commit rd v next).regs = RegFile.write s.regs rd v := rfl
@[simp] theorem State.commit_pc : (s.commit rd v next).pc = next := rfl
@[simp] theorem State.commit_pc_toNat : (s.commit rd v next).pc.toNat = next.toNat := rfl
@[simp] theorem State.commit_haltPc_toNat : (s.commit rd v next).haltPc.toNat = s.haltPc.toNat := rfl

end

/-! ### Fields after a launch and after placing a word -/

section
variable (l : Launch)

@[simp] theorem State.launch_xlen : (State.launch l).xlen = l.xlen := rfl
@[simp] theorem State.launch_imem : (State.launch l).imem = l.imem := rfl
@[simp] theorem State.launch_haltPc : (State.launch l).haltPc = l.haltPc := rfl
@[simp] theorem State.launch_regs : (State.launch l).regs = l.regs := rfl
@[simp] theorem State.launch_pc : (State.launch l).pc = l.resetPc := rfl

end

section
variable (s : State) (bits : InstrWord)

@[simp] theorem State.placeWord_xlen : (s.placeWord bits).xlen = s.xlen := rfl
@[simp] theorem State.placeWord_imem : (s.placeWord bits).imem = s.imem.writeWord s.pc.toNat bits := rfl
@[simp] theorem State.placeWord_regs : (s.placeWord bits).regs = s.regs := rfl
@[simp] theorem State.placeWord_pc : (s.placeWord bits).pc = s.pc := rfl

end

/-! ### Registers -/

section
variable {n : Nat} (f : RegFile n)

@[simp] theorem RegFile.read_zero : RegFile.read f 0#5 = 0#n := by
  simp [RegFile.read]

@[simp] theorem RegFile.write_zero (v : BitVec n) : RegFile.write f 0#5 v = f := by
  simp [RegFile.write]

theorem RegFile.read_write_same (i : RegNum) (v : BitVec n) (h : i ≠ 0#5) :
    RegFile.read (RegFile.write f i v) i = v := by
  simp [RegFile.read, RegFile.write, h]

theorem RegFile.read_write_other (i j : RegNum) (v : BitVec n) (h : j ≠ i) :
    RegFile.read (RegFile.write f i v) j = RegFile.read f j := by
  unfold RegFile.read RegFile.write
  split
  · rfl
  · rename_i hj
    split
    · rfl
    · rename_i hi
      have hi' : i.toNat ≠ 0 := fun e => hi (BitVec.eq_of_toNat_eq e)
      have hj' : j.toNat ≠ 0 := fun e => hj (BitVec.eq_of_toNat_eq e)
      have hij : i.toNat ≠ j.toNat := fun e => h (BitVec.eq_of_toNat_eq e.symm)
      rw [Vector.getElem_set_ne]
      omega

end

@[simp] theorem State.get_zero (s : State) : s.get 0#5 = 0#_ := RegFile.read_zero _

theorem State.get_commit_same (s : State) (rd : RegNum) (v next : BitVec s.xlen.bits) (h : rd ≠ 0#5) :
    (s.commit rd v next).get rd = v :=
  RegFile.read_write_same _ _ _ h

theorem State.get_commit_other (s : State) (rd r : RegNum) (v next : BitVec s.xlen.bits) (h : r ≠ rd) :
    (s.commit rd v next).get r = s.get r :=
  RegFile.read_write_other _ _ _ _ h

@[simp] theorem State.bit_zero (s : State) (k : Nat) : s.bit 0#5 k = false := by
  simp [State.bit]

theorem State.bit_commit_same (s : State) (rd : RegNum) (v next : BitVec s.xlen.bits) (h : rd ≠ 0#5) (k : Nat) :
    (s.commit rd v next).bit rd k = v.getLsbD k := by
  unfold State.bit; rw [State.get_commit_same s rd v next h]; rfl

theorem State.bit_commit_other (s : State) (rd r : RegNum) (v next : BitVec s.xlen.bits) (h : r ≠ rd) (k : Nat) :
    (s.commit rd v next).bit r k = s.bit r k := by
  unfold State.bit; rw [State.get_commit_other s rd r v next h]; rfl

theorem State.val_commit_other (s : State) (rd r : RegNum) (v next : BitVec s.xlen.bits) (h : r ≠ rd) :
    (s.commit rd v next).val r = s.val r := by
  unfold State.val; rw [State.get_commit_other s rd r v next h]; rfl

/-- A bit at or above XLEN reads false. -/
theorem State.bit_of_le (s : State) (r : RegNum) (k : Nat) (h : s.xlen.bits ≤ k) : s.bit r k = false :=
  BitVec.getLsbD_of_ge _ _ h

theorem State.commit_sameParameters (s : State) (rd : RegNum) (v next : BitVec s.xlen.bits) :
    SameParameters s (s.commit rd v next) := ⟨rfl, rfl, fun _ => rfl⟩

theorem State.commit_sameRegistersBut (s : State) (rd : RegNum) (v next : BitVec s.xlen.bits) :
    SameRegistersBut rd s (s.commit rd v next) := fun r h => State.bit_commit_other s rd r v next h

end Sys2Proof.Machine
end

