-- ==== Sys2Proof/Laws/Ops.lean ====
section
/-! SUPPORT. What the shared operations answer: completing an instruction, taking an exception, the legality check, and
the operand forms. -/

namespace Sys2Proof

/-- 2 ^ log2(N) = N. -/
theorem Width.two_pow_log2 (w : Width) : 2 ^ w.log2 = w.bits := by cases w <;> rfl

theorem Width.log2_le (w : Width) : w.log2 ≤ 6 := by cases w <;> decide

theorem Width.bits_le (w : Width) : w.bits ≤ 64 := by cases w <;> decide

end Sys2Proof

namespace Sys2Proof.Machine

/-! ### Outcomes -/

/-- Completing always answers the committed state. -/
theorem retire_eq (rd : RegNum) (s : State) (v : BitVec s.xlen.bits) :
    retire rd s v = .next (s.commit rd v s.nextPc) := rfl

/-- A completed instruction is a commit of its value at pc + 4. -/
theorem retire_next {rd : RegNum} {s t : State} {v : BitVec s.xlen.bits} :
    retire rd s v = .next t ↔ t = s.commit rd v s.nextPc := by
  rw [retire_eq]
  exact ⟨fun h => (Host.Outcome.next.inj h).symm, fun h => by rw [h]⟩

/-- An exception never answers a next state (R189). -/
theorem raise_ne_next (c : Cause) (n : Nat) (s t : State) : raise c n s ≠ .next t := by
  unfold raise; exact fun h => nomatch h

theorem raiseIllegal_eq (bits : InstrWord) (s : State) :
    raiseIllegal bits s = .fault (.trap .illegalInstruction s.pc.toNat bits.toNat) := rfl

theorem raiseAccessFault_eq (s : State) :
    raiseAccessFault s = .fault (.trap .instructionAccessFault s.pc.toNat s.pc.toNat) := rfl

theorem refuseWord_eq (bits : InstrWord) (s : State) :
    refuseWord bits s = .refused (.outsideSpec s.pc.toNat bits) := rfl

theorem halt_eq (s : State) : halt s = .fault (.halted s) := rfl

theorem whenLegal_of_wf {i : Instr} {s : State} {r : Result} (h : i.wf s.xlen = true) : whenLegal i s r = r := by
  simp [whenLegal, h]

theorem whenLegal_of_not_wf {i : Instr} {s : State} {r : Result} (h : i.wf s.xlen = false) :
    whenLegal i s r = raiseIllegal (encode i) s := by
  simp [whenLegal, h]

/-- What the legality check can lead to. -/
theorem whenLegal_next {i : Instr} {s t : State} {r : Result} (h : whenLegal i s r = .next t) :
    i.wf s.xlen = true ∧ r = .next t := by
  unfold whenLegal at h
  split at h
  · exact ⟨by assumption, h⟩
  · exact absurd h (raise_ne_next _ _ _ _)

theorem State.nextPc_toNat (s : State) : s.nextPc.toNat = (s.pc.toNat + 4) % 2 ^ s.xlen.bits := by
  simp [State.nextPc, BitVec.toNat_add]

/-! ### Operand forms -/

theorem lowBits_eq {n : Nat} (k : Nat) (v : BitVec n) : lowBits k v = v.toNat % 2 ^ k := by
  simp [lowBits, BitVec.extractLsb'_toNat]

/-- The low log2(N) bits of a register are its value modulo N (R101). -/
theorem lowBits_log2 {n : Nat} (w : Width) (v : BitVec n) : lowBits w.log2 v = v.toNat % w.bits := by
  rw [lowBits_eq, Width.two_pow_log2]

/-- The low log2(N) - 1 bits are the value modulo N/2 (R122). -/
theorem lowBits_log2_pred {n : Nat} (w : Width) (v : BitVec n) :
    lowBits (w.log2 - 1) v = v.toNat % (w.bits / 2) := by
  rw [lowBits_eq]; cases w <;> rfl

theorem getLsbD_lowWord {n : Nat} (v : BitVec n) (k : Nat) :
    (lowWord v).getLsbD k = (decide (k < 32) && v.getLsbD k) := by
  simp [lowWord]

/-- A `*w` result: bits above 31 copy bit 31 (D2). -/
theorem getLsbD_sextWord {n : Nat} (w : BitVec 32) (k : Nat) (hk : k < n) :
    (sextWord w : BitVec n).getLsbD k = w.getLsbD (min k 31) := by
  unfold sextWord
  rw [BitVec.getLsbD_signExtend]
  by_cases h : k < 32
  · simp [hk, h, Nat.min_eq_left (Nat.le_of_lt_succ h)]
  · rw [Nat.min_eq_right (by omega)]
    simp [hk, h, BitVec.msb_eq_getLsbD_last]

/-- The immediate of `lui`: zeros below bit 12, bit 31 copied above (R161). -/
theorem getLsbD_immU {n : Nat} (imm : BitVec 20) (k : Nat) (hk : k < n) :
    (immU imm : BitVec n).getLsbD k = sext32 (fun j => if j < 12 then false else imm.getLsbD (j - 12)) k := by
  have key (j : Nat) : (if j < 12 then false else imm.getLsbD (j - 12)) = (imm ++ 0#12 : BitVec 32).getLsbD j := by
    rw [BitVec.getLsbD_append]
    split <;> simp
  unfold sext32
  simp only [key]
  exact getLsbD_sextWord (imm ++ 0#12 : BitVec 32) k hk

/-- Adding a format I immediate is adding its signed value modulo 2^N (R162, R168). -/
theorem add_immI_toNat (w : Width) (v : BitVec w.bits) (imm : BitVec 12) :
    (v + immI imm).toNat = (((v.toNat : Int) + imm.toInt) % (2 ^ w.bits : Nat)).toNat := by
  have hle : 12 ≤ w.bits := by cases w <;> decide
  have h : (immI imm : BitVec w.bits).toInt = imm.toInt := BitVec.toInt_signExtend_of_le hle
  have e : ((v + immI imm).toNat : Int) = ((v.toNat : Int) + imm.toInt) % (2 ^ w.bits : Nat) := by
    rw [← h, BitVec.toInt_eq_toNat_bmod, BitVec.toNat_add]
    push_cast
    exact (Int.add_emod_eq_add_emod_left _ (Int.bmod_emod)).symm
  rw [← e, Int.toNat_natCast]

/-! ### Completion -/

/-- An instruction that retires a value completes with that value's bits. -/
theorem completesWith_of_retire {i : Instr} {s : State} {rd : RegNum} {v : BitVec s.xlen.bits} {f : Nat → Bool}
    (h : exec i s = retire rd s v) (hf : ∀ k, k < s.xlen.bits → v.getLsbD k = f k) : CompletesWith i s rd f := by
  refine ⟨_, h.trans (retire_eq rd s v), State.commit_sameParameters s rd v s.nextPc, ?_,
    State.commit_sameRegistersBut s rd v s.nextPc, fun k => State.bit_zero _ k, fun hrd k hk => ?_⟩
  · rw [State.commit_pc]
    exact State.nextPc_toNat s
  · rw [State.bit_commit_same s rd v _ hrd, hf k hk]

end Sys2Proof.Machine
end

