-- ==== Sys2Proof/Laws/Bits.lean ====
section
/-! SUPPORT. What each family's helper function computes, bit by bit: the characterisations the spec gives beside its
pseudocode (R100, R111, R116, R121, R130, R145 to R147, R155). -/

namespace Sys2Proof.Machine

/-! ### Rotations (R100) -/

theorem getLsbD_rotr {n : Nat} (v : BitVec n) (s k : Nat) (hs : s < n) (hk : k < n) :
    (rotr v s).getLsbD k = v.getLsbD ((k + s) % n) := by
  unfold rotr
  split
  · rename_i h; subst h; simp [Nat.mod_eq_of_lt hk]
  · rename_i h
    simp only [BitVec.getLsbD_or, BitVec.getLsbD_ushiftRight, BitVec.getLsbD_shiftLeft]
    by_cases hw : k + s < n
    · have : k < n - s := by omega
      simp [this, Nat.mod_eq_of_lt hw, Nat.add_comm s k]
    · have h1 : (k + s) % n = k + s - n := by
        rw [Nat.mod_eq_sub_mod (by omega), Nat.mod_eq_of_lt (by omega)]
      have h2 : ¬ k < n - s := by omega
      have h3 : k - (n - s) = k + s - n := by omega
      have h4 : n ≤ s + k := by omega
      simp [h1, h2, h3, hk, BitVec.getLsbD_of_ge v _ h4]

theorem getLsbD_rotl {n : Nat} (v : BitVec n) (s k : Nat) (hs : s < n) (hk : k < n) :
    (rotl v s).getLsbD k = v.getLsbD ((k + n - s) % n) := by
  unfold rotl
  split
  · rename_i h; subst h; simp [Nat.mod_eq_of_lt hk]
  · rename_i h
    simp only [BitVec.getLsbD_or, BitVec.getLsbD_ushiftRight, BitVec.getLsbD_shiftLeft]
    by_cases hw : k < s
    · have h1 : (k + n - s) % n = n - s + k := by rw [Nat.mod_eq_of_lt (by omega)]; omega
      simp [h1, hw, hk]
    · have h1 : (k + n - s) % n = k - s := by
        rw [Nat.mod_eq_sub_mod (by omega), Nat.mod_eq_of_lt (by omega)]; omega
      have h2 : n ≤ n - s + k := by omega
      simp [h1, hw, hk, BitVec.getLsbD_of_ge v _ h2]

/-! ### Generalised reverse and or-combine (R110, R111, R116) -/

/-- An index below N stays below N when an index bit that N has is flipped. -/
theorem xor_two_pow_lt (w : Width) {i k : Nat} (hi : i < w.bits) (hk : k < w.log2) : i ^^^ 2 ^ k < w.bits := by
  rw [← Width.two_pow_log2] at *
  exact Nat.xor_lt_two_pow hi (Nat.pow_lt_pow_right (by decide) hk)

/-- The masks of R110: `LO_k` has the indices whose bit k is 0. -/
theorem getLsbD_loMask64 : ∀ k < 6, ∀ i < 64, (loMask64 k).getLsbD i = !i.testBit k := by decide

theorem xor_two_pow_eq : ∀ k < 6, ∀ i < 64, i ^^^ 2 ^ k = if i.testBit k then i - 2 ^ k else i + 2 ^ k := by decide

theorem testBit_two_pow_le : ∀ k < 6, ∀ i < 64, i.testBit k = true → 2 ^ k ≤ i := by decide

theorem testBit_sub_two_pow : ∀ k < 6, ∀ i < 64, 2 ^ k ≤ i → (i - 2 ^ k).testBit k = !i.testBit k := by decide

theorem testBit_add_two_pow : ∀ k < 6, ∀ i < 64, (i + 2 ^ k).testBit k = !i.testBit k := by decide

theorem getLsbD_loMask (w : Width) (k i : Nat) (hk : k < w.log2) (hi : i < w.bits) :
    (loMask w.bits k).getLsbD i = !i.testBit k := by
  have := getLsbD_loMask64 k (Nat.lt_of_lt_of_le hk w.log2_le) i (Nat.lt_of_lt_of_le hi w.bits_le)
  simp [loMask, hi, this]

/-- Stage k swaps every bit with the one 2^k positions away inside its block (R111). -/
theorem getLsbD_swapHalves (w : Width) (v : BitVec w.bits) (k i : Nat) (hk : k < w.log2) (hi : i < w.bits) :
    (swapHalves k v).getLsbD i = v.getLsbD (i ^^^ 2 ^ k) := by
  have hk6 := Nat.lt_of_lt_of_le hk w.log2_le
  have hi64 := Nat.lt_of_lt_of_le hi w.bits_le
  have hx := xor_two_pow_lt w hi hk
  have hxe := xor_two_pow_eq k hk6 i hi64
  simp only [swapHalves, BitVec.getLsbD_or, BitVec.getLsbD_shiftLeft, BitVec.getLsbD_ushiftRight,
    BitVec.getLsbD_and, BitVec.getLsbD_not]
  cases hb : i.testBit k with
  | true =>
    have hle := testBit_two_pow_le k hk6 i hi64 hb
    have hs := testBit_sub_two_pow k hk6 i hi64 hle
    rw [hb] at hxe hs
    simp only [if_true] at hxe
    rw [hxe] at hx ⊢
    have h1 := getLsbD_loMask w k (i - 2 ^ k) hk hx
    have h2 : (v.getLsbD (2 ^ k + i) && (decide (2 ^ k + i < w.bits) && !(loMask w.bits k).getLsbD (2 ^ k + i)))
        = false := by
      by_cases hlt : 2 ^ k + i < w.bits
      · have := getLsbD_loMask w k (2 ^ k + i) hk hlt
        rw [Nat.add_comm, testBit_add_two_pow k hk6 i hi64, hb] at this
        rw [Nat.add_comm] at this ⊢
        simp [Nat.add_comm i, this]
      · simp [hlt]
    rw [h2, h1, hs]
    simp [hi, Nat.not_lt.mpr hle]
  | false =>
    rw [hb] at hxe
    simp only [Bool.false_eq_true, if_false] at hxe
    rw [hxe] at hx ⊢
    have h1 := getLsbD_loMask w k (i + 2 ^ k) hk hx
    rw [testBit_add_two_pow k hk6 i hi64, hb] at h1
    have h2 : (decide (i < w.bits) && !decide (i < 2 ^ k) &&
        (v.getLsbD (i - 2 ^ k) && (loMask w.bits k).getLsbD (i - 2 ^ k))) = false := by
      by_cases hle : 2 ^ k ≤ i
      · have := getLsbD_loMask w k (i - 2 ^ k) hk (Nat.lt_of_le_of_lt (Nat.sub_le _ _) hi)
        rw [testBit_sub_two_pow k hk6 i hi64 hle, hb] at this
        simp [this]
      · simp [Nat.lt_of_not_le hle]
    rw [h2, Nat.add_comm (2 ^ k) i, h1]
    simp [hx]

theorem getLsbD_grevStage (w : Width) (v : BitVec w.bits) (s k i : Nat) (hk : k < w.log2) (hi : i < w.bits) :
    (grevStage s v k).getLsbD i = v.getLsbD (if s.testBit k then i ^^^ 2 ^ k else i) := by
  unfold grevStage
  split
  · exact getLsbD_swapHalves w v k i hk hi
  · rfl

theorem getLsbD_gorcStage (w : Width) (v : BitVec w.bits) (s k i : Nat) (hk : k < w.log2) (hi : i < w.bits) :
    (gorcStage s v k).getLsbD i = (v.getLsbD i || (s.testBit k && v.getLsbD (i ^^^ 2 ^ k))) := by
  unfold gorcStage
  split
  · rename_i hs
    rw [BitVec.getLsbD_or, getLsbD_swapHalves w v k i hk hi, hs, Bool.true_and]
  · rename_i hs
    simp [hs]

/-- The first m stages of the reverse, bit by bit. -/
theorem getLsbD_foldl_grevStage (w : Width) (v : BitVec w.bits) (s m i : Nat) (hm : m ≤ w.log2) (hi : i < w.bits) :
    ((List.range m).foldl (grevStage s) v).getLsbD i = v.getLsbD (i ^^^ s % 2 ^ m) := by
  induction m generalizing i with
  | zero => simp [Nat.mod_one]
  | succ m ih =>
    rw [List.range_succ, List.foldl_append, List.foldl_cons, List.foldl_nil]
    have hx : s % 2 ^ (m + 1) = if s.testBit m then 2 ^ m ^^^ s % 2 ^ m else s % 2 ^ m := by
      apply Nat.eq_of_testBit_eq
      intro b
      by_cases hs : s.testBit m
      · simp only [hs, if_true, Nat.testBit_xor, Nat.testBit_mod_two_pow, Nat.testBit_two_pow]
        rcases Nat.lt_trichotomy b m with h | h | h
        · simp [h, Nat.lt_succ_of_lt h, Nat.ne_of_gt h]
        · subst h; simp [hs]
        · have h1 : ¬ b < m + 1 := by omega
          have h2 : ¬ b < m := by omega
          simp [h1, h2, Nat.ne_of_lt h]
      · simp only [hs, Nat.testBit_mod_two_pow]
        rcases Nat.lt_trichotomy b m with h | h | h
        · simp [h, Nat.lt_succ_of_lt h]
        · subst h; simp [hs]
        · have h1 : ¬ b < m + 1 := by omega
          have h2 : ¬ b < m := by omega
          simp [h1, h2]
    rw [getLsbD_grevStage w _ s m i (by omega) hi, hx]
    split
    · rw [ih _ (by omega) (xor_two_pow_lt w hi (by omega)), Nat.xor_assoc]
    · rw [ih _ (by omega) hi]

/-- `grev_N(v, s)[i] = v[i XOR s]` (R111). -/
theorem getLsbD_grev (w : Width) (v : BitVec w.bits) (s i : Nat) (hs : s < w.bits) (hi : i < w.bits) :
    (grev w v s).getLsbD i = v.getLsbD (i ^^^ s) := by
  unfold grev
  rw [getLsbD_foldl_grevStage w v s _ i (Nat.le_refl _) hi, Width.two_pow_log2, Nat.mod_eq_of_lt hs]

/-- The first m stages of the or-combine, bit by bit. -/
theorem getLsbD_foldl_gorcStage (w : Width) (v : BitVec w.bits) (s m i : Nat) (hm : m ≤ w.log2) (hi : i < w.bits) :
    ((List.range m).foldl (gorcStage s) v).getLsbD i = true ↔
      ∃ j < w.bits, v.getLsbD j = true ∧ ∀ b, (i ^^^ j).testBit b = true → b < m ∧ s.testBit b = true := by
  induction m generalizing i with
  | zero =>
    simp only [List.range_zero, List.foldl_nil, Nat.not_lt_zero, false_and]
    constructor
    · intro h
      exact ⟨i, hi, h, fun b hb => by simp at hb⟩
    · rintro ⟨j, _, hv, hb⟩
      have : i ^^^ j = 0 := Nat.eq_of_testBit_eq fun b => by
        rw [Nat.zero_testBit]; exact Bool.eq_false_iff.mpr fun h => hb b h
      rwa [Nat.xor_eq_zero_iff.mp this]
  | succ m ih =>
    rw [List.range_succ, List.foldl_append, List.foldl_cons, List.foldl_nil]
    have key : (gorcStage s ((List.range m).foldl (gorcStage s) v) m).getLsbD i = true ↔
        ((List.range m).foldl (gorcStage s) v).getLsbD i = true ∨
          (s.testBit m = true ∧ ((List.range m).foldl (gorcStage s) v).getLsbD (i ^^^ 2 ^ m) = true) := by
      rw [getLsbD_gorcStage w _ s m i (by omega) hi, Bool.or_eq_true, Bool.and_eq_true]
    rw [key, ih i (by omega) hi, ih (i ^^^ 2 ^ m) (by omega) (xor_two_pow_lt w hi (by omega))]
    constructor
    · rintro (⟨j, hj, hv, hb⟩ | ⟨hs, j, hj, hv, hb⟩)
      · exact ⟨j, hj, hv, fun b h => ⟨Nat.lt_succ_of_lt (hb b h).1, (hb b h).2⟩⟩
      · refine ⟨j, hj, hv, fun b h => ?_⟩
        by_cases hbm : b = m
        · subst hbm; exact ⟨Nat.lt_succ_self _, hs⟩
        · have := hb b (by
            simp only [Nat.testBit_xor, Nat.testBit_two_pow] at h ⊢
            simpa [Ne.symm hbm] using h)
          exact ⟨Nat.lt_succ_of_lt this.1, this.2⟩
    · rintro ⟨j, hj, hv, hb⟩
      by_cases hm' : (i ^^^ j).testBit m = true
      · refine Or.inr ⟨(hb m hm').2, j, hj, hv, fun b h => ?_⟩
        simp only [Nat.testBit_xor, Nat.testBit_two_pow] at h hm' hb
        by_cases hbm : b = m
        · subst hbm; simp at h; simp [h] at hm'
        · have := hb b (by simpa [Ne.symm hbm] using h)
          exact ⟨by omega, this.2⟩
      · refine Or.inl ⟨j, hj, hv, fun b h => ?_⟩
        have := hb b h
        have hne : b ≠ m := fun e => hm' (e ▸ h)
        exact ⟨by omega, this.2⟩

/-- `gorc_N(v, s)[i]` is the or of `v[j]` over every j such that `i XOR j` has ones only where s has ones (R116). -/
theorem getLsbD_gorc (w : Width) (v : BitVec w.bits) (s i : Nat) (hi : i < w.bits) :
    (gorc w v s).getLsbD i = true ↔
      ∃ j < w.bits, v.getLsbD j = true ∧ ∀ b, (i ^^^ j).testBit b = true → s.testBit b = true := by
  unfold gorc
  rw [getLsbD_foldl_gorcStage w v s _ i (Nat.le_refl _) hi]
  constructor
  · rintro ⟨j, hj, hv, hb⟩; exact ⟨j, hj, hv, fun b h => (hb b h).2⟩
  · rintro ⟨j, hj, hv, hb⟩
    refine ⟨j, hj, hv, fun b h => ⟨?_, hb b h⟩⟩
    rw [← Width.two_pow_log2] at hi hj
    by_contra hge
    have := Nat.testBit_lt_two_pow (Nat.lt_of_lt_of_le (Nat.xor_lt_two_pow hi hj)
      (Nat.pow_le_pow_right (by decide) (Nat.le_of_not_lt hge)))
    rw [this] at h
    exact Bool.noConfusion h

/-! ### Generalised shuffle (R121) -/

theorem getLsbD_shflMasks : ∀ k < 5, ∀ i < 64,
    (shflLeft64 k).getLsbD i = (i.testBit (k + 1) && !i.testBit k) ∧
    (shflRight64 k).getLsbD i = (i.testBit k && !i.testBit (k + 1)) := by decide

theorem swapIndexBits_eq : ∀ k < 5, ∀ i < 64, swapIndexBits k i =
    if i.testBit k = i.testBit (k + 1) then i else if i.testBit k then 2 ^ k + i else i - 2 ^ k := by decide

theorem testBit_succ_two_pow_le : ∀ k < 5, ∀ i < 64, i.testBit (k + 1) = true → 2 ^ k ≤ i := by decide

/-- The stages of the shuffle on N bits. -/
theorem swapIndexBits_lt (w : Width) {k i : Nat} (hk : k < w.log2 - 1) (hi : i < w.bits) :
    swapIndexBits k i < w.bits := by
  have h : 3 * 2 ^ k < 2 ^ w.log2 := by
    have : 2 ^ (k + 2) ≤ 2 ^ w.log2 := Nat.pow_le_pow_right (by decide) (by omega)
    have e : 2 ^ (k + 2) = 4 * 2 ^ k := by rw [Nat.pow_add]; omega
    have p : 0 < 2 ^ k := Nat.two_pow_pos k
    omega
  unfold swapIndexBits
  split
  · exact hi
  · rw [← Width.two_pow_log2] at *
    exact Nat.xor_lt_two_pow hi h

/-- Stage k sends the bit at index i to the index with index bits k and k+1 exchanged; it is its own inverse (R121). -/
theorem getLsbD_shflStage (w : Width) (v : BitVec w.bits) (s k i : Nat) (hk : k < w.log2 - 1) (hi : i < w.bits) :
    (shflStage s v k).getLsbD i = v.getLsbD (if s.testBit k then swapIndexBits k i else i) := by
  unfold shflStage
  split
  · have hk5 : k < 5 := by have := w.log2_le; omega
    have hi64 := Nat.lt_of_lt_of_le hi w.bits_le
    obtain ⟨hl, hr⟩ := getLsbD_shflMasks k hk5 i hi64
    have hsw := swapIndexBits_eq k hk5 i hi64
    have hle := testBit_succ_two_pow_le k hk5 i hi64
    simp only [crossStage, BitVec.getLsbD_or, BitVec.getLsbD_and, BitVec.getLsbD_not, BitVec.getLsbD_setWidth,
      BitVec.getLsbD_shiftLeft, BitVec.getLsbD_ushiftRight, hl, hr, hi, decide_true, Bool.true_and]
    cases h0 : i.testBit k <;> cases h1 : i.testBit (k + 1)
    all_goals rw [h0, h1] at hsw
    · simp [hsw]
    · simp [hsw, Nat.not_lt.mpr (hle h1)]
    · simp [hsw]
    · simp [hsw]
  · rfl

/-- A list of stages, bit by bit: the last stage's source index is found first. -/
theorem getLsbD_foldl_shflStage (w : Width) (s : Nat) (L : List Nat) (hL : ∀ k ∈ L, k < w.log2 - 1)
    (v : BitVec w.bits) (i : Nat) (hi : i < w.bits) :
    (L.foldl (shflStage s) v).getLsbD i = v.getLsbD (sendIndex s L.reverse i) ∧ sendIndex s L.reverse i < w.bits := by
  induction L generalizing v with
  | nil => exact ⟨rfl, hi⟩
  | cons k L ih =>
    have hk := hL k (by simp)
    obtain ⟨h1, h2⟩ := ih (fun k' h => hL k' (by simp [h])) (shflStage s v k)
    have e : sendIndex s (k :: L).reverse i =
        if s.testBit k then swapIndexBits k (sendIndex s L.reverse i) else sendIndex s L.reverse i := by
      simp [sendIndex]
    rw [List.foldl_cons, h1, getLsbD_shflStage w v s k _ hk h2, e]
    refine ⟨rfl, ?_⟩
    split
    · exact swapIndexBits_lt w hk h2
    · exact h2

/-- `shfl_N` bit by bit: the source of bit i is found from the narrowest stage to the widest (R121). -/
theorem getLsbD_shfl (w : Width) (v : BitVec w.bits) (s i : Nat) (hi : i < w.bits) :
    (shfl w v s).getLsbD i = v.getLsbD (sendIndex s (List.range (w.log2 - 1)) i) := by
  have := (getLsbD_foldl_shflStage w s (List.range (w.log2 - 1)).reverse (by simp) v i hi).1
  rwa [List.reverse_reverse] at this

/-- `unshfl_N` bit by bit: the source of bit i is found from the widest stage to the narrowest (R121). -/
theorem getLsbD_unshfl (w : Width) (v : BitVec w.bits) (s i : Nat) (hi : i < w.bits) :
    (unshfl w v s).getLsbD i = v.getLsbD (sendIndex s (List.range (w.log2 - 1)).reverse i) :=
  (getLsbD_foldl_shflStage w s (List.range (w.log2 - 1)) (by simp) v i hi).1

/-! ### Carry-less product (R130) -/

theorem xorOver_succ (n : Nat) (f : Nat → Bool) : xorOver (n + 1) f = (xorOver n f ^^ f n) := by
  simp [xorOver, List.range_succ]

theorem xorOver_congr {n : Nat} {f g : Nat → Bool} (h : ∀ i < n, f i = g i) : xorOver n f = xorOver n g := by
  induction n with
  | zero => rfl
  | succ n ih => rw [xorOver_succ, xorOver_succ, ih (fun i hi => h i (by omega)), h n (by omega)]

/-- The exclusive or is the parity of the number of ones. -/
theorem xorOver_eq_card (n : Nat) (f : Nat → Bool) :
    xorOver n f = decide (((Finset.range n).filter fun i => f i = true).card % 2 = 1) := by
  induction n with
  | zero => rfl
  | succ n ih =>
    rw [xorOver_succ, ih, Finset.range_add_one, Finset.filter_insert]
    cases f n with
    | false => simp
    | true =>
      rw [if_pos rfl, Finset.card_insert_of_notMem (by simp)]
      generalize (Finset.filter (fun i => f i = true) (Finset.range n)).card = c
      rcases Nat.mod_two_eq_zero_or_one c with h | h
      · have : (c + 1) % 2 = 1 := by omega
        simp [h, this]
      · have : (c + 1) % 2 = 0 := by omega
        simp [h, this]

/-- The first m turns of R130's loop, bit by bit. -/
theorem getLsbD_foldl_clStep {n : Nat} (a b : BitVec n) (m k : Nat) (hk : k < 2 * n) :
    ((List.range m).foldl (clStep a b) 0).getLsbD k =
      xorOver m fun i => decide (i ≤ k) && (b.getLsbD i && a.getLsbD (k - i)) := by
  induction m with
  | zero => simp [xorOver]
  | succ m ih =>
    rw [List.range_succ, List.foldl_append, List.foldl_cons, List.foldl_nil, xorOver_succ, ← ih]
    unfold clStep
    split
    · rename_i hb
      rw [BitVec.getLsbD_xor, BitVec.getLsbD_shiftLeft, BitVec.getLsbD_setWidth, hb]
      have : k - m < 2 * n := by omega
      by_cases h : m ≤ k
      · simp [hk, this, h, Nat.not_lt.mpr h]
      · simp [h, Nat.lt_of_not_le h]
    · rename_i hb
      simp [hb]

/-- Reading a sum of exclusive ors from its other end. -/
theorem xorOver_reflect {n : Nat} (f : Nat → Bool) (k : Nat) (hf : ∀ i, k < i ∨ n ≤ i ∨ n ≤ k - i → f i = false) :
    xorOver n f = xorOver n fun i => decide (i ≤ k) && f (k - i) := by
  rw [xorOver_eq_card, xorOver_eq_card]
  congr 2
  refine congrArg (· % 2) (Finset.card_bij (fun i _ => k - i) ?_ ?_ ?_)
  · intro i hi
    simp only [Finset.mem_filter, Finset.mem_range] at hi ⊢
    by_cases h : k < i ∨ n ≤ i ∨ n ≤ k - i
    · rw [hf i h] at hi; simp at hi
    · have e : k - (k - i) = i := by omega
      rw [e]
      exact ⟨by omega, by simp [hi.2]⟩
  · intro i hi j hj hij
    simp only [Finset.mem_filter, Finset.mem_range] at hi hj
    have h1 : ¬ (k < i ∨ n ≤ i ∨ n ≤ k - i) := fun h => by rw [hf i h] at hi; simp at hi
    have h2 : ¬ (k < j ∨ n ≤ j ∨ n ≤ k - j) := fun h => by rw [hf j h] at hj; simp at hj
    omega
  · intro j hj
    simp only [Finset.mem_filter, Finset.mem_range, Bool.and_eq_true, decide_eq_true_eq] at hj
    have h1 : ¬ (k < k - j ∨ n ≤ k - j ∨ n ≤ k - (k - j)) := fun h => by rw [hf _ h] at hj; simp at hj
    exact ⟨k - j, by simp only [Finset.mem_filter, Finset.mem_range]; exact ⟨by omega, hj.2.2⟩, by omega⟩

/-- "Bit k of p is the exclusive or of `a[i] & b[k-i]`" (R130). -/
theorem getLsbD_clprod {n : Nat} (a b : BitVec n) (k : Nat) (hk : k < 2 * n) :
    (clprod a b).getLsbD k = clprodBit n (fun i => a.getLsbD i) (fun i => b.getLsbD i) k := by
  unfold clprod clprodBit
  rw [getLsbD_foldl_clStep a b n k hk, xorOver_reflect _ k]
  · refine xorOver_congr fun i hi => ?_
    by_cases h : i ≤ k
    · have e : k - (k - i) = i := by omega
      rw [e]
      by_cases hb : k - i < n
      · simp [h, hb, Bool.and_comm]
      · simp [hb, BitVec.getLsbD_of_ge b (k - i) (by omega)]
    · simp [h]
  · intro i h
    rcases h with h | h | h
    · simp [Nat.not_le.mpr h]
    · simp [BitVec.getLsbD_of_ge b i h]
    · simp [BitVec.getLsbD_of_ge a (k - i) h]

theorem getLsbD_clmulLow {n : Nat} (a b : BitVec n) (k : Nat) (hk : k < n) :
    (clmulLow a b).getLsbD k = clprodBit n (fun i => a.getLsbD i) (fun i => b.getLsbD i) k := by
  rw [clmulLow, BitVec.getLsbD_extractLsb', Nat.zero_add, getLsbD_clprod a b k (by omega)]
  simp [hk]

theorem getLsbD_clmulHigh {n : Nat} (a b : BitVec n) (k : Nat) (hk : k < n) :
    (clmulHigh a b).getLsbD k = clprodBit n (fun i => a.getLsbD i) (fun i => b.getLsbD i) (n + k) := by
  rw [clmulHigh, BitVec.getLsbD_extractLsb', getLsbD_clprod a b (n + k) (by omega)]
  simp [hk]

theorem getLsbD_clmulRev {n : Nat} (a b : BitVec n) (k : Nat) (hk : k < n) :
    (clmulRev a b).getLsbD k = clprodBit n (fun i => a.getLsbD i) (fun i => b.getLsbD i) (n - 1 + k) := by
  rw [clmulRev, BitVec.getLsbD_extractLsb', getLsbD_clprod a b (n - 1 + k) (by omega)]
  simp [hk]

/-! ### Packing (R145 to R147) -/

theorem getLsbD_packLow (w : Width) (a b : BitVec w.bits) (k : Nat) (hk : k < w.bits) :
    (packLow a b).getLsbD k = if k < w.bits / 2 then a.getLsbD k else b.getLsbD (k - w.bits / 2) := by
  have h2 : w.bits = w.bits / 2 + w.bits / 2 := by cases w <;> rfl
  rw [packLow, BitVec.getLsbD_setWidth, BitVec.getLsbD_append]
  split
  · rename_i h; simp [h, hk]
  · rename_i h
    have : k - w.bits / 2 < w.bits / 2 := by omega
    simp [hk, this]

theorem getLsbD_packHigh (w : Width) (a b : BitVec w.bits) (k : Nat) (hk : k < w.bits) :
    (packHigh a b).getLsbD k = if k < w.bits / 2 then a.getLsbD (k + w.bits / 2) else b.getLsbD k := by
  have h2 : w.bits = w.bits / 2 + w.bits / 2 := by cases w <;> rfl
  rw [packHigh, BitVec.getLsbD_setWidth, BitVec.getLsbD_append]
  split
  · rename_i h; simp [h, hk, Nat.add_comm]
  · rename_i h
    have h1 : k - w.bits / 2 < w.bits / 2 := by omega
    have e : w.bits / 2 + (k - w.bits / 2) = k := by omega
    simp [hk, h1, e]

theorem getLsbD_packBytes {n : Nat} (a b : BitVec n) (k : Nat) (hk : k < n) :
    (packBytes a b).getLsbD k =
      if k < 8 then a.getLsbD k else decide (k < 16) && b.getLsbD (k - 8) := by
  rw [packBytes, BitVec.getLsbD_setWidth, BitVec.getLsbD_append]
  split
  · rename_i h; simp [h, hk]
  · rename_i h
    have h1 : (k - 8 < 8) = (k < 16) := by rw [eq_iff_iff]; omega
    simp [hk, h1]

/-! ### Crossbar permutation (R155) -/

/-- An element as a number. -/
theorem element_toNat {n : Nat} (w : Nat) (v : BitVec n) (i : Nat) :
    (element w v i).toNat = v.toNat / 2 ^ (w * i) % 2 ^ w := by
  simp [element, BitVec.extractLsb'_toNat, Nat.shiftRight_eq_div_pow]

/-- The first m turns of R155's loop, bit by bit: element k / w is set from turn k / w on. -/
theorem getLsbD_foldl_xpermStep {n : Nat} (w : Nat) (a b : BitVec n) (m k : Nat) (hw : 0 < w) (hk : k < n) :
    ((List.range m).foldl (xpermStep w a b) 0).getLsbD k =
      (decide (k / w < m) && (decide ((element w b (k / w)).toNat < n / w) &&
        a.getLsbD (w * (element w b (k / w)).toNat + k % w))) := by
  induction m with
  | zero => simp
  | succ m ih =>
    rw [List.range_succ, List.foldl_append, List.foldl_cons, List.foldl_nil]
    generalize (List.range m).foldl (xpermStep w a b) 0 = r at ih
    have hr : k % w < w := Nat.mod_lt _ hw
    have hkw : w * (k / w) + k % w = k := Nat.div_add_mod k w
    have step : (xpermStep w a b r m).getLsbD k = (r.getLsbD k || (decide (k / w = m) &&
        (decide ((element w b m).toNat < n / w) && a.getLsbD (w * (element w b m).toNat + k % w)))) := by
      unfold xpermStep
      split
      · rename_i hidx
        rw [BitVec.getLsbD_or, BitVec.getLsbD_shiftLeft, BitVec.getLsbD_setWidth, element,
          BitVec.getLsbD_extractLsb']
        by_cases hm : k / w = m
        · subst hm
          have h1 : ¬ k < w * (k / w) := by omega
          have h2 : k - w * (k / w) = k % w := by omega
          have h3 : k % w < n := by omega
          simp [h1, h2, h3, hr, hk, hidx]
        · have h4 : (decide (k < w * m) || !decide (k - w * m < w)) = true := by
            by_contra hcon
            simp only [Bool.or_eq_true, decide_eq_true_eq, Bool.not_eq_true', decide_eq_false_iff_not, not_or,
              not_lt] at hcon
            apply hm
            rw [Nat.div_eq_of_lt_le]
            · rw [Nat.mul_comm]; exact hcon.1
            · rw [Nat.mul_comm, Nat.mul_succ]; omega
          rw [Bool.or_eq_true] at h4
          rcases h4 with h4 | h4
          · simp [decide_eq_true_eq.mp h4, hm]
          · simp [of_decide_eq_false ((Bool.not_eq_true' _).mp h4), hm]
      · rename_i hidx
        simp [hidx]
    rw [step, ih]
    by_cases h1 : k / w < m
    · simp [h1, Nat.ne_of_lt h1, Nat.lt_succ_of_lt h1]
    · by_cases h2 : k / w = m
      · simp [h2]
      · have : ¬ k / w < m + 1 := by omega
        simp [h1, h2, this]

/-- `xperm_N_w` bit by bit: bit k belongs to element k / w, which is the element of the table that its index names, or zero
(R155). -/
theorem getLsbD_xperm {n : Nat} (w : Nat) (a b : BitVec n) (k : Nat) (hw : 0 < w) (hd : w ∣ n) (hk : k < n) :
    (xperm w a b).getLsbD k =
      (decide (b.toNat / 2 ^ (w * (k / w)) % 2 ^ w < n / w) &&
        a.getLsbD (w * (b.toNat / 2 ^ (w * (k / w)) % 2 ^ w) + k % w)) := by
  have h : k / w < n / w := Nat.div_lt_div_of_lt_of_dvd hd hk
  rw [xperm, getLsbD_foldl_xpermStep w a b (n / w) k hw hk, element_toNat]
  simp [h]

end Sys2Proof.Machine
end

