-- ==== Sys2Proof/Laws/Decode.lean ====
section
/-! SUPPORT. The fields of an encoded word, the masks of the opcode table as equations between fields, and what the decoder
answers when a row fits. -/

namespace Sys2Proof

/-! ### The fields of a word that the encoder lays out -/

/-- funct7 or its shorter kin with the bits above the amount: bits 31:25 (R62, R63). -/
def fieldTop7 (w : InstrWord) : BitVec 7 := w.extractLsb' 25 7

/-- funct3: bits 14:12 (R62). -/
def fieldFunct3 (w : InstrWord) : BitVec 3 := w.extractLsb' 12 3

section
variable (f7 : BitVec 7) (f6 : BitVec 6) (f3 : BitVec 3) (op : BitVec 7) (rd rs1 rs2 : RegNum) (sh6 : BitVec 6)
  (sh5 : BitVec 5) (imm12 : BitVec 12) (imm20 : BitVec 20)

theorem fields_wordR :
    fieldRd (wordR f7 f3 op rd rs1 rs2) = rd ∧ fieldRs1 (wordR f7 f3 op rd rs1 rs2) = rs1 ∧
    fieldRs2 (wordR f7 f3 op rd rs1 rs2) = rs2 ∧ fieldTop7 (wordR f7 f3 op rd rs1 rs2) = f7 ∧
    fieldFunct3 (wordR f7 f3 op rd rs1 rs2) = f3 ∧ fieldOpcode (wordR f7 f3 op rd rs1 rs2) = op := by
  refine ⟨?_, ?_, ?_, ?_, ?_, ?_⟩ <;>
  · apply BitVec.eq_of_getLsbD_eq
    intro i hi
    simp only [fieldRd, fieldRs1, fieldRs2, fieldTop7, fieldFunct3, fieldOpcode, wordR,
      BitVec.getLsbD_extractLsb', BitVec.getLsbD_append]
    interval_cases i <;> simp

theorem fields_wordIS6 :
    fieldRd (wordIS6 f6 f3 op rd rs1 sh6) = rd ∧
    fieldRs1 (wordIS6 f6 f3 op rd rs1 sh6) = rs1 ∧
    fieldShamt6 (wordIS6 f6 f3 op rd rs1 sh6) = sh6 ∧
    fieldShamt5 (wordIS6 f6 f3 op rd rs1 sh6) = sh6.setWidth 5 ∧
    fieldTop7 (wordIS6 f6 f3 op rd rs1 sh6) = f6 ++ sh6.extractLsb' 5 1 ∧
    fieldFunct3 (wordIS6 f6 f3 op rd rs1 sh6) = f3 ∧
    fieldOpcode (wordIS6 f6 f3 op rd rs1 sh6) = op := by
  refine ⟨?_, ?_, ?_, ?_, ?_, ?_, ?_⟩ <;>
  · apply BitVec.eq_of_getLsbD_eq
    intro i hi
    simp only [fieldRd, fieldRs1, fieldShamt6, fieldShamt5, fieldTop7, fieldFunct3, fieldOpcode, wordIS6,
      BitVec.getLsbD_extractLsb', BitVec.getLsbD_append]
    interval_cases i <;> simp

theorem fields_wordIS5 :
    fieldRd (wordIS5 f7 f3 op rd rs1 sh5) = rd ∧
    fieldRs1 (wordIS5 f7 f3 op rd rs1 sh5) = rs1 ∧
    fieldShamt5 (wordIS5 f7 f3 op rd rs1 sh5) = sh5 ∧
    fieldShamt4 (wordIS5 f7 f3 op rd rs1 sh5) = sh5.setWidth 4 ∧
    fieldTop7 (wordIS5 f7 f3 op rd rs1 sh5) = f7 ∧
    fieldFunct3 (wordIS5 f7 f3 op rd rs1 sh5) = f3 ∧
    fieldOpcode (wordIS5 f7 f3 op rd rs1 sh5) = op := by
  refine ⟨?_, ?_, ?_, ?_, ?_, ?_, ?_⟩ <;>
  · apply BitVec.eq_of_getLsbD_eq
    intro i hi
    simp only [fieldRd, fieldRs1, fieldShamt5, fieldShamt4, fieldTop7, fieldFunct3, fieldOpcode, wordIS5,
      BitVec.getLsbD_extractLsb', BitVec.getLsbD_append]
    interval_cases i <;> simp

theorem fields_wordI :
    fieldRd (wordI f3 op rd rs1 imm12) = rd ∧
    fieldRs1 (wordI f3 op rd rs1 imm12) = rs1 ∧
    fieldImm12 (wordI f3 op rd rs1 imm12) = imm12 ∧
    fieldFunct3 (wordI f3 op rd rs1 imm12) = f3 ∧
    fieldOpcode (wordI f3 op rd rs1 imm12) = op := by
  refine ⟨?_, ?_, ?_, ?_, ?_⟩ <;>
  · apply BitVec.eq_of_getLsbD_eq
    intro i hi
    simp only [fieldRd, fieldRs1, fieldImm12, fieldFunct3, fieldOpcode, wordI, BitVec.getLsbD_extractLsb',
      BitVec.getLsbD_append]
    interval_cases i <;> simp

theorem fields_wordU :
    fieldRd (wordU op rd imm20) = rd ∧
    fieldImm20 (wordU op rd imm20) = imm20 ∧
    fieldOpcode (wordU op rd imm20) = op := by
  refine ⟨?_, ?_, ?_⟩ <;>
  · apply BitVec.eq_of_getLsbD_eq
    intro i hi
    simp only [fieldRd, fieldImm20, fieldOpcode, wordU, BitVec.getLsbD_extractLsb', BitVec.getLsbD_append]
    interval_cases i <;> simp

end

/-! ### Masks as equations between fields -/

/-- Two words agree where bits 31:25, 14:12 and 6:0 do, once the other bits are cleared. -/
theorem maskR_eq_iff (w p : InstrWord) (hp : p &&& 0xFE00707F#32 = p) :
    w &&& 0xFE00707F#32 = p ↔
      fieldTop7 w = fieldTop7 p ∧ fieldFunct3 w = fieldFunct3 p ∧ fieldOpcode w = fieldOpcode p := by
  have key (v : InstrWord) : v &&& 0xFE00707F#32 =
      fieldTop7 v ++ 0#10 ++ fieldFunct3 v ++ 0#5 ++ fieldOpcode v := by
    apply BitVec.eq_of_getLsbD_eq
    intro i hi
    simp only [fieldTop7, fieldFunct3, fieldOpcode, BitVec.getLsbD_and, BitVec.getLsbD_extractLsb',
      BitVec.getLsbD_append]
    interval_cases i <;> simp
  constructor
  · intro h
    subst h
    refine ⟨?_, ?_, ?_⟩ <;>
    · apply BitVec.eq_of_getLsbD_eq
      intro i hi
      simp only [fieldTop7, fieldFunct3, fieldOpcode, BitVec.getLsbD_extractLsb', BitVec.getLsbD_and]
      interval_cases i <;> simp
  · rintro ⟨h1, h2, h3⟩
    rw [← hp, key w, key p, h1, h2, h3]

/-- The mask of a 6-bit amount leaves out bit 25. -/
theorem maskIS6_eq_iff (w p : InstrWord) (hp : p &&& 0xFC00707F#32 = p) :
    w &&& 0xFC00707F#32 = p ↔
      (fieldTop7 w).extractLsb' 1 6 = (fieldTop7 p).extractLsb' 1 6 ∧ fieldFunct3 w = fieldFunct3 p ∧
        fieldOpcode w = fieldOpcode p := by
  have key (v : InstrWord) : v &&& 0xFC00707F#32 =
      (fieldTop7 v).extractLsb' 1 6 ++ 0#11 ++ fieldFunct3 v ++ 0#5 ++ fieldOpcode v := by
    apply BitVec.eq_of_getLsbD_eq
    intro i hi
    simp only [fieldTop7, fieldFunct3, fieldOpcode, BitVec.getLsbD_and, BitVec.getLsbD_extractLsb',
      BitVec.getLsbD_append]
    interval_cases i <;> simp
  constructor
  · intro h
    subst h
    refine ⟨?_, ?_, ?_⟩ <;>
    · apply BitVec.eq_of_getLsbD_eq
      intro i hi
      simp only [fieldTop7, fieldFunct3, fieldOpcode, BitVec.getLsbD_extractLsb', BitVec.getLsbD_and]
      interval_cases i <;> simp
  · rintro ⟨h1, h2, h3⟩
    rw [← hp, key w, key p, h1, h2, h3]

/-- The mask of a 4-bit amount takes in bit 24. -/
theorem maskIS4_eq_iff (w p : InstrWord) (hp : p &&& 0xFF00707F#32 = p) :
    w &&& 0xFF00707F#32 = p ↔
      fieldTop7 w = fieldTop7 p ∧ w.getLsbD 24 = p.getLsbD 24 ∧ fieldFunct3 w = fieldFunct3 p ∧
        fieldOpcode w = fieldOpcode p := by
  have key (v : InstrWord) : v &&& 0xFF00707F#32 =
      fieldTop7 v ++ BitVec.ofBool (v.getLsbD 24) ++ 0#9 ++ fieldFunct3 v ++ 0#5 ++ fieldOpcode v := by
    apply BitVec.eq_of_getLsbD_eq
    intro i hi
    simp only [fieldTop7, fieldFunct3, fieldOpcode, BitVec.getLsbD_and, BitVec.getLsbD_extractLsb',
      BitVec.getLsbD_append, BitVec.getLsbD_ofBool]
    interval_cases i <;> simp
  constructor
  · intro h
    subst h
    refine ⟨?_, by simp, ?_, ?_⟩ <;>
    · apply BitVec.eq_of_getLsbD_eq
      intro i hi
      simp only [fieldTop7, fieldFunct3, fieldOpcode, BitVec.getLsbD_extractLsb', BitVec.getLsbD_and]
      interval_cases i <;> simp
  · rintro ⟨h1, h2, h3, h4⟩
    rw [← hp, key w, key p, h1, h2, h3, h4]

/-- The mask of format I. -/
theorem maskI_eq_iff (w p : InstrWord) (hp : p &&& 0x0000707F#32 = p) :
    w &&& 0x0000707F#32 = p ↔ fieldFunct3 w = fieldFunct3 p ∧ fieldOpcode w = fieldOpcode p := by
  have key (v : InstrWord) : v &&& 0x0000707F#32 = 0#17 ++ fieldFunct3 v ++ 0#5 ++ fieldOpcode v := by
    apply BitVec.eq_of_getLsbD_eq
    intro i hi
    simp only [fieldFunct3, fieldOpcode, BitVec.getLsbD_and, BitVec.getLsbD_extractLsb', BitVec.getLsbD_append]
    interval_cases i <;> simp
  constructor
  · intro h
    subst h
    refine ⟨?_, ?_⟩ <;>
    · apply BitVec.eq_of_getLsbD_eq
      intro i hi
      simp only [fieldFunct3, fieldOpcode, BitVec.getLsbD_extractLsb', BitVec.getLsbD_and]
      interval_cases i <;> simp
  · rintro ⟨h1, h2⟩
    rw [← hp, key w, key p, h1, h2]

/-- The mask of format U. -/
theorem maskU_eq_iff (w p : InstrWord) (hp : p &&& 0x0000007F#32 = p) :
    w &&& 0x0000007F#32 = p ↔ fieldOpcode w = fieldOpcode p := by
  have key (v : InstrWord) : v &&& 0x0000007F#32 = 0#25 ++ fieldOpcode v := by
    apply BitVec.eq_of_getLsbD_eq
    intro i hi
    simp only [fieldOpcode, BitVec.getLsbD_and, BitVec.getLsbD_extractLsb', BitVec.getLsbD_append]
    interval_cases i <;> simp
  constructor
  · intro h
    subst h
    apply BitVec.eq_of_getLsbD_eq
    intro i hi
    simp only [fieldOpcode, BitVec.getLsbD_extractLsb', BitVec.getLsbD_and]
    interval_cases i <;> simp
  · intro h1
    rw [← hp, key w, key p, h1]

/-! ### What the decoder answers -/

/-- Each answer of the decoder names the step of R78 that gave it. -/
theorem decode_cases (x : Width) (w : InstrWord) :
    (∃ r ∈ opRows, r.has x = true ∧ r.fits w = true ∧ decode x w = .instr (r.build w)) ∨
    ((∀ r ∈ opRows, r.has x = true → r.fits w = false) ∧ decode x w = decodeUnmatched x w) := by
  unfold decode
  cases h : opRows.find? (fun r => r.has x && r.fits w) with
  | some r =>
    have hp := List.find?_some h
    simp only [Bool.and_eq_true] at hp
    exact Or.inl ⟨r, List.mem_of_find?_eq_some h, hp.1, hp.2, rfl⟩
  | none =>
    refine Or.inr ⟨fun r hr hx => ?_, rfl⟩
    have := List.find?_eq_none.mp h r hr
    simpa [hx] using this

theorem decodeUnmatched_ne_instr (x : Width) (w : InstrWord) (i : Instr) : decodeUnmatched x w ≠ .instr i := by
  unfold decodeUnmatched
  split
  · exact fun h => nomatch h
  · split <;> exact fun h => nomatch h

/-- An instruction comes from a row of the table. -/
theorem decode_instr {x : Width} {w : InstrWord} {i : Instr} (h : decode x w = .instr i) :
    ∃ r ∈ opRows, r.has x = true ∧ r.fits w = true ∧ r.build w = i := by
  rcases decode_cases x w with ⟨r, hr, hx, hf, e⟩ | ⟨_, e⟩
  · rw [e] at h
    exact ⟨r, hr, hx, hf, Decoded.instr.inj h⟩
  · rw [e] at h
    exact absurd h (decodeUnmatched_ne_instr x w i)

end Sys2Proof
end

