-- ==== Sys2Proof/Laws/Memory.lean ====
section
/-! SUPPORT. The laws of instruction memory: reading after writing, the canonical form, and words as bytes. -/

namespace Sys2Proof.Machine

@[simp] theorem Memory.read_nil (a : Nat) : Memory.read [] a = none := rfl

theorem Memory.read_write_same (m : Memory) (a : Nat) (v : Byte) : (Memory.write m a v).read a = some v := by
  induction m with
  | nil => simp [Memory.write, Memory.read]
  | cons c m ih =>
    obtain ⟨b, w⟩ := c
    unfold Memory.write
    split
    · simp [Memory.read]
    · split
      · simp [Memory.read]
      · rename_i h
        simp [Memory.read, h, ih]

theorem Memory.read_write_other (m : Memory) (a b : Nat) (v : Byte) (h : b ≠ a) :
    (Memory.write m a v).read b = m.read b := by
  induction m with
  | nil => simp [Memory.write, Memory.read, h]
  | cons c m ih =>
    obtain ⟨c, w⟩ := c
    unfold Memory.write
    split
    · simp [Memory.read, h]
    · split
      · rename_i e
        subst e
        simp [Memory.read, h]
      · simp [Memory.read, ih]

/-- What a write of one byte does, in one equation. -/
theorem Memory.read_write (m : Memory) (a b : Nat) (v : Byte) :
    (Memory.write m a v).read b = if b = a then some v else m.read b := by
  split
  · rename_i h; rw [h, Memory.read_write_same]
  · rename_i h; exact Memory.read_write_other m a b v h

/-! ### The canonical form -/

theorem Memory.wf_cons {a : Nat} {v : Byte} {m : Memory} :
    Memory.wf ((a, v) :: m) = true ↔ Memory.wf m = true ∧ ∀ c ∈ m.head?, a < c.1 := by
  cases m with
  | nil => simp [Memory.wf]
  | cons c m => simp [Memory.wf, and_comm]

theorem Memory.head_write (m : Memory) (a : Nat) (v : Byte) :
    ∀ c ∈ (Memory.write m a v).head?, c.1 = a ∨ ∃ d ∈ m.head?, c.1 = d.1 := by
  cases m with
  | nil => simp [Memory.write]
  | cons c m =>
    obtain ⟨b, w⟩ := c
    unfold Memory.write
    split
    · simp
    · split
      · simp
      · simp

/-- A write keeps the canonical form. -/
theorem Memory.write_wf (m : Memory) (a : Nat) (v : Byte) (h : Memory.wf m = true) :
    Memory.wf (Memory.write m a v) = true := by
  induction m with
  | nil => rfl
  | cons c m ih =>
    obtain ⟨b, w⟩ := c
    have hc := Memory.wf_cons.mp h
    unfold Memory.write
    split
    · rename_i hab
      simp [Memory.wf, hab, h]
    · split
      · rename_i e
        subst e
        exact Memory.wf_cons.mpr hc
      · rename_i hlt hne
        refine Memory.wf_cons.mpr ⟨ih hc.1, fun c hcm => ?_⟩
        rcases Memory.head_write m a v c hcm with e | ⟨d, hd, e⟩
        · rw [e]; omega
        · rw [e]; exact hc.2 d hd

theorem Memory.writeBytes_wf (bs : List Byte) (m : Memory) (a : Nat) (h : Memory.wf m = true) :
    Memory.wf (Memory.writeBytes m a bs) = true := by
  induction bs generalizing m a with
  | nil => exact h
  | cons b bs ih => exact ih _ _ (Memory.write_wf m a b h)

theorem Memory.writeWord_wf (m : Memory) (a : Nat) (w : InstrWord) (h : Memory.wf m = true) :
    Memory.wf (Memory.writeWord m a w) = true := Memory.writeBytes_wf _ m a h

theorem Memory.loadWords_wf (ws : List InstrWord) (m : Memory) (a : Nat) (h : Memory.wf m = true) :
    Memory.wf (Memory.loadWords m a ws) = true := by
  induction ws generalizing m a with
  | nil => exact h
  | cons w ws ih => exact ih _ _ (Memory.writeWord_wf m a w h)

/-- Placing an instruction for the next step keeps the canonical form. -/
theorem State.placeWord_wf (s : State) (bits : InstrWord) (h : Memory.wf s.imem = true) :
    Memory.wf (s.placeWord bits).imem = true := Memory.writeWord_wf _ _ _ h

theorem State.reset_imem_wf : Memory.wf State.reset.imem = true := rfl

/-! ### Words -/

/-- The four bytes of a word make the word again (R42). -/
theorem wordOfBytes_bytesOfWord (w : InstrWord) :
    wordOfBytes (w.extractLsb' 0 8) (w.extractLsb' 8 8) (w.extractLsb' 16 8) (w.extractLsb' 24 8) = w := by
  unfold wordOfBytes
  apply BitVec.eq_of_getLsbD_eq
  intro i hi
  simp only [BitVec.getLsbD_append, BitVec.getLsbD_extractLsb']
  by_cases h8 : i < 8
  · simp [h8]
  · by_cases h16 : i - 8 < 8
    · simp [h8, h16]; congr 1; omega
    · by_cases h24 : i - 8 - 8 < 8
      · simp [h8, h16, h24]; congr 1; omega
      · have : i - 8 - 8 - 8 < 8 := by omega
        simp [h8, h16, h24, this]; congr 1; omega

/-- The word just written is the word read. -/
theorem Memory.readWord_writeWord_same (m : Memory) (a : Nat) (w : InstrWord) :
    (Memory.writeWord m a w).readWord a = some w := by
  unfold Memory.readWord Memory.writeWord bytesOfWord
  have h1 : a ≠ a + 1 + 1 := by omega
  have h2 : a ≠ a + 1 + 1 + 1 := by omega
  simp [Memory.writeBytes, Memory.read_write, h1, h2, wordOfBytes_bytesOfWord]

/-- What a fetch answers: the address is a multiple of 4 and its four bytes are listed (R41, R42, R44). -/
theorem Memory.fetchWord_eq_some {m : Memory} {a : Nat} {w : InstrWord} :
    m.fetchWord a = some w ↔ a % 4 = 0 ∧ ∃ b0 b1 b2 b3, m.read a = some b0 ∧ m.read (a + 1) = some b1 ∧
      m.read (a + 2) = some b2 ∧ m.read (a + 3) = some b3 ∧ w = wordOfBytes b0 b1 b2 b3 := by
  unfold Memory.fetchWord Memory.readWord
  cases m.read a <;> cases m.read (a + 1) <;> cases m.read (a + 2) <;> cases m.read (a + 3) <;>
    simp [eq_comm]

end Sys2Proof.Machine
end

