-- ==== Sys2Proof/Laws/PerInstr.lean ====
section
/-! SUPPORT. The per-instruction family InstructionLength: bits [1:0] of every instruction word are 11, the mark of a 32-bit
instruction (R61). -/

namespace Sys2Proof.Laws.InstructionLength

def Statement (i : Instr) : Prop := (encode i).extractLsb' 0 2 = 3#2

/-- Bits [1:0] of a word that ends in a major opcode are the opcode's. -/
theorem low_bits_append {n : Nat} (hi : BitVec n) (op : BitVec 7) (h : op.extractLsb' 0 2 = 3#2) :
    (hi ++ op).extractLsb' 0 2 = 3#2 := by
  rw [← h]
  apply BitVec.eq_of_getLsbD_eq
  intro k hk
  have : k < 7 := by omega
  simp [BitVec.getLsbD_append, this]

theorem ror (rd rs1 rs2 : RegNum) : Statement (.ror rd rs1 rs2) :=
  low_bits_append _ _ (by decide)

theorem rol (rd rs1 rs2 : RegNum) : Statement (.rol rd rs1 rs2) :=
  low_bits_append _ _ (by decide)

theorem rori (rd rs1 : RegNum) (shamt : BitVec 6) : Statement (.rori rd rs1 shamt) :=
  low_bits_append _ _ (by decide)

theorem rorw (rd rs1 rs2 : RegNum) : Statement (.rorw rd rs1 rs2) :=
  low_bits_append _ _ (by decide)

theorem rolw (rd rs1 rs2 : RegNum) : Statement (.rolw rd rs1 rs2) :=
  low_bits_append _ _ (by decide)

theorem roriw (rd rs1 : RegNum) (shamt : BitVec 5) : Statement (.roriw rd rs1 shamt) :=
  low_bits_append _ _ (by decide)

theorem grev (rd rs1 rs2 : RegNum) : Statement (.grev rd rs1 rs2) :=
  low_bits_append _ _ (by decide)

theorem grevi (rd rs1 : RegNum) (shamt : BitVec 6) : Statement (.grevi rd rs1 shamt) :=
  low_bits_append _ _ (by decide)

theorem grevw (rd rs1 rs2 : RegNum) : Statement (.grevw rd rs1 rs2) :=
  low_bits_append _ _ (by decide)

theorem greviw (rd rs1 : RegNum) (shamt : BitVec 5) : Statement (.greviw rd rs1 shamt) :=
  low_bits_append _ _ (by decide)

theorem gorc (rd rs1 rs2 : RegNum) : Statement (.gorc rd rs1 rs2) :=
  low_bits_append _ _ (by decide)

theorem gorci (rd rs1 : RegNum) (shamt : BitVec 6) : Statement (.gorci rd rs1 shamt) :=
  low_bits_append _ _ (by decide)

theorem gorcw (rd rs1 rs2 : RegNum) : Statement (.gorcw rd rs1 rs2) :=
  low_bits_append _ _ (by decide)

theorem gorciw (rd rs1 : RegNum) (shamt : BitVec 5) : Statement (.gorciw rd rs1 shamt) :=
  low_bits_append _ _ (by decide)

theorem shfl (rd rs1 rs2 : RegNum) : Statement (.shfl rd rs1 rs2) :=
  low_bits_append _ _ (by decide)

theorem unshfl (rd rs1 rs2 : RegNum) : Statement (.unshfl rd rs1 rs2) :=
  low_bits_append _ _ (by decide)

theorem shfli (rd rs1 : RegNum) (shamt : BitVec 5) : Statement (.shfli rd rs1 shamt) :=
  low_bits_append _ _ (by decide)

theorem unshfli (rd rs1 : RegNum) (shamt : BitVec 5) : Statement (.unshfli rd rs1 shamt) :=
  low_bits_append _ _ (by decide)

theorem shflw (rd rs1 rs2 : RegNum) : Statement (.shflw rd rs1 rs2) :=
  low_bits_append _ _ (by decide)

theorem unshflw (rd rs1 rs2 : RegNum) : Statement (.unshflw rd rs1 rs2) :=
  low_bits_append _ _ (by decide)

theorem clmul (rd rs1 rs2 : RegNum) : Statement (.clmul rd rs1 rs2) :=
  low_bits_append _ _ (by decide)

theorem clmulh (rd rs1 rs2 : RegNum) : Statement (.clmulh rd rs1 rs2) :=
  low_bits_append _ _ (by decide)

theorem clmulr (rd rs1 rs2 : RegNum) : Statement (.clmulr rd rs1 rs2) :=
  low_bits_append _ _ (by decide)

theorem clmulw (rd rs1 rs2 : RegNum) : Statement (.clmulw rd rs1 rs2) :=
  low_bits_append _ _ (by decide)

theorem clmulhw (rd rs1 rs2 : RegNum) : Statement (.clmulhw rd rs1 rs2) :=
  low_bits_append _ _ (by decide)

theorem clmulrw (rd rs1 rs2 : RegNum) : Statement (.clmulrw rd rs1 rs2) :=
  low_bits_append _ _ (by decide)

theorem andn (rd rs1 rs2 : RegNum) : Statement (.andn rd rs1 rs2) :=
  low_bits_append _ _ (by decide)

theorem orn (rd rs1 rs2 : RegNum) : Statement (.orn rd rs1 rs2) :=
  low_bits_append _ _ (by decide)

theorem xorn (rd rs1 rs2 : RegNum) : Statement (.xorn rd rs1 rs2) :=
  low_bits_append _ _ (by decide)

theorem pack (rd rs1 rs2 : RegNum) : Statement (.pack rd rs1 rs2) :=
  low_bits_append _ _ (by decide)

theorem packu (rd rs1 rs2 : RegNum) : Statement (.packu rd rs1 rs2) :=
  low_bits_append _ _ (by decide)

theorem packh (rd rs1 rs2 : RegNum) : Statement (.packh rd rs1 rs2) :=
  low_bits_append _ _ (by decide)

theorem packw (rd rs1 rs2 : RegNum) : Statement (.packw rd rs1 rs2) :=
  low_bits_append _ _ (by decide)

theorem packuw (rd rs1 rs2 : RegNum) : Statement (.packuw rd rs1 rs2) :=
  low_bits_append _ _ (by decide)

theorem xpermN (rd rs1 rs2 : RegNum) : Statement (.xpermN rd rs1 rs2) :=
  low_bits_append _ _ (by decide)

theorem xpermB (rd rs1 rs2 : RegNum) : Statement (.xpermB rd rs1 rs2) :=
  low_bits_append _ _ (by decide)

theorem lui (rd : RegNum) (imm : BitVec 20) : Statement (.lui rd imm) :=
  low_bits_append _ _ (by decide)

theorem addi (rd rs1 : RegNum) (imm : BitVec 12) : Statement (.addi rd rs1 imm) :=
  low_bits_append _ _ (by decide)

theorem slli (rd rs1 : RegNum) (shamt : BitVec 6) : Statement (.slli rd rs1 shamt) :=
  low_bits_append _ _ (by decide)

theorem xor (rd rs1 rs2 : RegNum) : Statement (.xor rd rs1 rs2) :=
  low_bits_append _ _ (by decide)

theorem or (rd rs1 rs2 : RegNum) : Statement (.or rd rs1 rs2) :=
  low_bits_append _ _ (by decide)

theorem jalr (rd rs1 : RegNum) (imm : BitVec 12) : Statement (.jalr rd rs1 imm) :=
  low_bits_append _ _ (by decide)

end Sys2Proof.Laws.InstructionLength
end

