-- ==== Sys2Proof/Laws/Step.lean ====
section
/-! SUPPORT. What a meaning and a step can do, said once: every invariant of the machine goes through these. -/

namespace Sys2Proof.Machine

/-! ### Meanings -/

/-- An instruction that the XLEN has, other than `jalr`, writes one value to its destination and moves on (R24, R186). -/
theorem exec_of_wf (i : Instr) (s : State) (hi : i.wf s.xlen = true) (hj : i.isJalr = false) :
    ∃ v, exec i s = .next (s.commit i.dest v s.nextPc) := by
  cases i <;> first | exact ⟨_, whenLegal_of_wf hi⟩ | exact ⟨_, rfl⟩ | exact absurd hj (by simp [Instr.isJalr])

/-- An instruction that the XLEN does not have raises IllegalInstruction (note 12). -/
theorem exec_of_not_wf (i : Instr) (s : State) (hi : i.wf s.xlen = false) :
    exec i s = .fault (.trap .illegalInstruction s.pc.toNat (encode i).toNat) := by
  cases i <;> first | exact whenLegal_of_not_wf hi | simp [Instr.wf, Instr.rv64Only, Instr.amountFits] at hi

/-- The two outcomes of a `jalr` (R168). -/
theorem exec_jalr_cases (rd rs1 : RegNum) (imm : BitVec 12) (s : State) :
    ((jalrTarget rs1 imm s).getLsbD 1 = true ∧ exec (.jalr rd rs1 imm) s =
        .fault (.trap .instructionAddressMisaligned s.pc.toNat (jalrTarget rs1 imm s).toNat)) ∨
    ((jalrTarget rs1 imm s).getLsbD 1 = false ∧ exec (.jalr rd rs1 imm) s =
        .next (s.commit rd s.nextPc (jalrTarget rs1 imm s))) := by
  cases h : (jalrTarget rs1 imm s).getLsbD 1 with
  | true => exact Or.inl ⟨rfl, if_pos h⟩
  | false => exact Or.inr ⟨rfl, if_neg (by simp [h])⟩

/-- A `jalr` target is even (R168). -/
theorem jalrTarget_even (rs1 : RegNum) (imm : BitVec 12) (s : State) : (jalrTarget rs1 imm s).getLsbD 0 = false := by
  have key (n : Nat) (v : BitVec n) : (v &&& ~~~1).getLsbD 0 = false := by
    cases n with
    | zero => exact BitVec.getLsbD_of_ge _ _ (Nat.le_refl 0)
    | succ n => simp
  exact key _ _

/-- Where an instruction that completes leads: one register written, and pc moved by 4 unless it is a `jalr`, whose target
is a multiple of 4 (R24, R25, R168). -/
theorem exec_next {i : Instr} {s t : State} (h : exec i s = .next t) :
    i.wf s.xlen = true ∧ ∃ v next, t = s.commit i.dest v next ∧
      (i.isJalr = false → next = s.nextPc) ∧
      (i.isJalr = true → next.getLsbD 0 = false ∧ next.getLsbD 1 = false) := by
  cases hw : i.wf s.xlen with
  | false =>
    rw [exec_of_not_wf i s hw] at h
    exact nomatch h
  | true =>
    refine ⟨rfl, ?_⟩
    cases hj : i.isJalr with
    | false =>
      obtain ⟨v, hv⟩ := exec_of_wf i s hw hj
      rw [hv] at h
      exact ⟨v, s.nextPc, (Host.Outcome.next.inj h).symm, fun _ => rfl, fun e => nomatch e⟩
    | true =>
      cases i <;> try exact absurd hj Bool.false_ne_true
      rename_i rd rs1 imm
      rcases exec_jalr_cases rd rs1 imm s with ⟨_, e⟩ | ⟨h1, e⟩
      · rw [e] at h
        exact nomatch h
      · rw [e] at h
        exact ⟨s.nextPc, _, (Host.Outcome.next.inj h).symm, fun e => (nomatch e),
          fun _ => ⟨jalrTarget_even rs1 imm s, h1⟩⟩

/-! ### Steps -/

/-- The five ways a step goes, in the order of R180. -/
theorem step_cases (s : State) :
    (s.pc = s.haltPc ∧ step s = .fault (.halted s)) ∨
    (s.pc ≠ s.haltPc ∧
      ((s.fetch = none ∧ step s = .fault (.trap .instructionAccessFault s.pc.toNat s.pc.toNat)) ∨
      ∃ bits, s.fetch = some bits ∧
        ((∃ i, decode s.xlen bits = .instr i ∧ step s = exec i s) ∨
        (∃ r, decode s.xlen bits = .illegal r ∧
          step s = .fault (.trap .illegalInstruction s.pc.toNat bits.toNat)) ∨
        (decode s.xlen bits = .outsideSpec ∧ step s = .refused (.outsideSpec s.pc.toNat bits))))) := by
  unfold step
  split
  · rename_i h; exact Or.inl ⟨h, rfl⟩
  · rename_i h
    refine Or.inr ⟨h, ?_⟩
    cases hf : s.fetch with
    | none => exact Or.inl ⟨rfl, rfl⟩
    | some bits =>
      refine Or.inr ⟨bits, rfl, ?_⟩
      simp only []
      cases hd : decode s.xlen bits with
      | instr i => exact Or.inl ⟨i, rfl, by simp [runDecoded]⟩
      | illegal r => exact Or.inr (Or.inl ⟨r, rfl, by simp [runDecoded, raiseIllegal_eq]⟩)
      | outsideSpec => exact Or.inr (Or.inr ⟨rfl, by simp [runDecoded, refuseWord_eq]⟩)

/-- A step that answers a next state ran the instruction that its word decodes to. -/
theorem step_next {s t : State} (h : step s = .next t) :
    s.pc ≠ s.haltPc ∧ ∃ bits i, s.fetch = some bits ∧ decode s.xlen bits = .instr i ∧ exec i s = .next t := by
  rcases step_cases s with ⟨_, e⟩ | ⟨hp, ⟨_, e⟩ | ⟨bits, hf, ⟨i, hd, e⟩ | ⟨_, _, e⟩ | ⟨_, e⟩⟩⟩
  · rw [e] at h; exact nomatch h
  · rw [e] at h; exact nomatch h
  · exact ⟨hp, bits, i, hf, hd, e ▸ h⟩
  · rw [e] at h; exact nomatch h
  · rw [e] at h; exact nomatch h

end Sys2Proof.Machine
end

