-- ==== Sys2Proof/Tests/Slice0.lean ====
section
/-! SUPPORT. Tests. Expected words and values come from the spec: the "encoding" strings of opcode_table.json with operands
written into them by hand, the "Example" lines and corner cases of the family files, and 95_test_vectors.md. -/

namespace Sys2Proof.Tests

open Sys2Proof.Machine

/-! ### Small states -/

/-- A machine of width x with a program at 0x1000, HALT_PC = 0x2000 and some registers set, about to run the program. -/
def machine (x : Width) (program : List InstrWord) (regs : List (RegNum × Nat)) : State :=
  State.launch
    { xlen := x
      imem := Memory.loadWords [] 0x1000 program
      resetPc := BitVec.ofNat _ 0x1000
      haltPc := BitVec.ofNat _ 0x2000
      regs := regs.foldl (fun f r => RegFile.write f r.1 (BitVec.ofNat _ r.2)) (Vector.replicate 31 (BitVec.ofNat _ 0)) }

/-- The value of a register after an outcome NEXT. -/
def valueAfter (r : RegNum) : Result → Option Nat
  | .next t => some (t.val r)
  | .fault _ => none
  | .refused _ => none

/-- The pc after an outcome NEXT. -/
def pcAfter : Result → Option Nat
  | .next t => some t.pc.toNat
  | .fault _ => none
  | .refused _ => none

/-- The trap of an outcome. -/
def trapOf : Result → Option (Cause × Nat × Nat)
  | .fault (.trap c epc tval) => some (c, epc, tval)
  | .fault (.halted _) => none
  | .next _ => none
  | .refused _ => none

/-- The refused word of an outcome. -/
def refusalOf : Result → Option (Nat × InstrWord)
  | .refused (.outsideSpec pc bits) => some (pc, bits)
  | .refused _ => none
  | .fault _ => none
  | .next _ => none

/-! ### WellFormed: an ill-formed term for each check -/

theorem test_wf_refuses_rv64Only_on_rv32 :
    [Instr.rorw 1 2 3, .rolw 1 2 3, .roriw 1 2 3, .grevw 1 2 3, .greviw 1 2 3, .gorcw 1 2 3, .gorciw 1 2 3, .shflw 1 2 3,
      .unshflw 1 2 3, .clmulw 1 2 3, .clmulhw 1 2 3, .clmulrw 1 2 3, .packw 1 2 3, .packuw 1 2 3].all
      (fun i => !i.wf .w32 && i.wf .w64) = true := by decide

theorem test_wf_refuses_amount_32_on_rv32 :
    [Instr.rori 1 2 32, .grevi 1 2 32, .gorci 1 2 32, .slli 1 2 32].all (fun i => !i.wf .w32 && i.wf .w64) = true := by
  decide

theorem test_wf_refuses_control_16_on_rv32 :
    [Instr.shfli 1 2 16, .unshfli 1 2 16].all (fun i => !i.wf .w32 && i.wf .w64) = true := by decide

theorem test_wf_admits_last_amounts :
    [Instr.rori 1 2 31, .grevi 1 2 31, .gorci 1 2 31, .slli 1 2 31, .shfli 1 2 15, .unshfli 1 2 15].all
      (Instr.wf .w32) = true := by decide

/-! ### Decode: every row of the opcode table, its word written out -/

theorem test_decode_ror_32_64 :
    decode .w32 0b01100000110001011101010100110011#32 = .instr (.ror 10 11 12) ∧
    decode .w64 0b01100000110001011101010100110011#32 = .instr (.ror 10 11 12) := by decide

theorem test_decode_rol_32_64 :
    decode .w32 0b01100000110001011001010100110011#32 = .instr (.rol 10 11 12) ∧
    decode .w64 0b01100000110001011001010100110011#32 = .instr (.rol 10 11 12) := by decide

theorem test_decode_rori_32 :
    decode .w32 0b01100001011001011101010100010011#32 = .instr (.rori 10 11 22) := by decide

theorem test_decode_rori_64 :
    decode .w64 0b01100010110101011101010100010011#32 = .instr (.rori 10 11 45) := by decide

theorem test_decode_rorw_64 :
    decode .w64 0b01100000110001011101010100111011#32 = .instr (.rorw 10 11 12) := by decide

theorem test_decode_rolw_64 :
    decode .w64 0b01100000110001011001010100111011#32 = .instr (.rolw 10 11 12) := by decide

theorem test_decode_roriw_64 :
    decode .w64 0b01100001011001011101010100011011#32 = .instr (.roriw 10 11 22) := by decide

theorem test_decode_grev_32_64 :
    decode .w32 0b01101000110001011101010100110011#32 = .instr (.grev 10 11 12) ∧
    decode .w64 0b01101000110001011101010100110011#32 = .instr (.grev 10 11 12) := by decide

theorem test_decode_grevi_32 :
    decode .w32 0b01101001011001011101010100010011#32 = .instr (.grevi 10 11 22) := by decide

theorem test_decode_grevi_64 :
    decode .w64 0b01101010110101011101010100010011#32 = .instr (.grevi 10 11 45) := by decide

theorem test_decode_grevw_64 :
    decode .w64 0b01101000110001011101010100111011#32 = .instr (.grevw 10 11 12) := by decide

theorem test_decode_greviw_64 :
    decode .w64 0b01101001011001011101010100011011#32 = .instr (.greviw 10 11 22) := by decide

theorem test_decode_gorc_32_64 :
    decode .w32 0b00101000110001011101010100110011#32 = .instr (.gorc 10 11 12) ∧
    decode .w64 0b00101000110001011101010100110011#32 = .instr (.gorc 10 11 12) := by decide

theorem test_decode_gorci_32 :
    decode .w32 0b00101001011001011101010100010011#32 = .instr (.gorci 10 11 22) := by decide

theorem test_decode_gorci_64 :
    decode .w64 0b00101010110101011101010100010011#32 = .instr (.gorci 10 11 45) := by decide

theorem test_decode_gorcw_64 :
    decode .w64 0b00101000110001011101010100111011#32 = .instr (.gorcw 10 11 12) := by decide

theorem test_decode_gorciw_64 :
    decode .w64 0b00101001011001011101010100011011#32 = .instr (.gorciw 10 11 22) := by decide

theorem test_decode_shfl_32_64 :
    decode .w32 0b00001000110001011001010100110011#32 = .instr (.shfl 10 11 12) ∧
    decode .w64 0b00001000110001011001010100110011#32 = .instr (.shfl 10 11 12) := by decide

theorem test_decode_unshfl_32_64 :
    decode .w32 0b00001000110001011101010100110011#32 = .instr (.unshfl 10 11 12) ∧
    decode .w64 0b00001000110001011101010100110011#32 = .instr (.unshfl 10 11 12) := by decide

theorem test_decode_shfli_32 :
    decode .w32 0b00001000101101011001010100010011#32 = .instr (.shfli 10 11 11) := by decide

theorem test_decode_shfli_64 :
    decode .w64 0b00001001011001011001010100010011#32 = .instr (.shfli 10 11 22) := by decide

theorem test_decode_unshfli_32 :
    decode .w32 0b00001000101101011101010100010011#32 = .instr (.unshfli 10 11 11) := by decide

theorem test_decode_unshfli_64 :
    decode .w64 0b00001001011001011101010100010011#32 = .instr (.unshfli 10 11 22) := by decide

theorem test_decode_shflw_64 :
    decode .w64 0b00001000110001011001010100111011#32 = .instr (.shflw 10 11 12) := by decide

theorem test_decode_unshflw_64 :
    decode .w64 0b00001000110001011101010100111011#32 = .instr (.unshflw 10 11 12) := by decide

theorem test_decode_clmul_32_64 :
    decode .w32 0b00001010110001011001010100110011#32 = .instr (.clmul 10 11 12) ∧
    decode .w64 0b00001010110001011001010100110011#32 = .instr (.clmul 10 11 12) := by decide

theorem test_decode_clmulh_32_64 :
    decode .w32 0b00001010110001011011010100110011#32 = .instr (.clmulh 10 11 12) ∧
    decode .w64 0b00001010110001011011010100110011#32 = .instr (.clmulh 10 11 12) := by decide

theorem test_decode_clmulr_32_64 :
    decode .w32 0b00001010110001011010010100110011#32 = .instr (.clmulr 10 11 12) ∧
    decode .w64 0b00001010110001011010010100110011#32 = .instr (.clmulr 10 11 12) := by decide

theorem test_decode_clmulw_64 :
    decode .w64 0b00001010110001011001010100111011#32 = .instr (.clmulw 10 11 12) := by decide

theorem test_decode_clmulhw_64 :
    decode .w64 0b00001010110001011011010100111011#32 = .instr (.clmulhw 10 11 12) := by decide

theorem test_decode_clmulrw_64 :
    decode .w64 0b00001010110001011010010100111011#32 = .instr (.clmulrw 10 11 12) := by decide

theorem test_decode_andn_32_64 :
    decode .w32 0b01000000110001011111010100110011#32 = .instr (.andn 10 11 12) ∧
    decode .w64 0b01000000110001011111010100110011#32 = .instr (.andn 10 11 12) := by decide

theorem test_decode_orn_32_64 :
    decode .w32 0b01000000110001011110010100110011#32 = .instr (.orn 10 11 12) ∧
    decode .w64 0b01000000110001011110010100110011#32 = .instr (.orn 10 11 12) := by decide

theorem test_decode_xorn_32_64 :
    decode .w32 0b01000000110001011100010100110011#32 = .instr (.xorn 10 11 12) ∧
    decode .w64 0b01000000110001011100010100110011#32 = .instr (.xorn 10 11 12) := by decide

theorem test_decode_pack_32_64 :
    decode .w32 0b00001000110001011100010100110011#32 = .instr (.pack 10 11 12) ∧
    decode .w64 0b00001000110001011100010100110011#32 = .instr (.pack 10 11 12) := by decide

theorem test_decode_packu_32_64 :
    decode .w32 0b01001000110001011100010100110011#32 = .instr (.packu 10 11 12) ∧
    decode .w64 0b01001000110001011100010100110011#32 = .instr (.packu 10 11 12) := by decide

theorem test_decode_packh_32_64 :
    decode .w32 0b00001000110001011111010100110011#32 = .instr (.packh 10 11 12) ∧
    decode .w64 0b00001000110001011111010100110011#32 = .instr (.packh 10 11 12) := by decide

theorem test_decode_packw_64 :
    decode .w64 0b00001000110001011100010100111011#32 = .instr (.packw 10 11 12) := by decide

theorem test_decode_packuw_64 :
    decode .w64 0b01001000110001011100010100111011#32 = .instr (.packuw 10 11 12) := by decide

theorem test_decode_xpermN_32_64 :
    decode .w32 0b00101000110001011010010100110011#32 = .instr (.xpermN 10 11 12) ∧
    decode .w64 0b00101000110001011010010100110011#32 = .instr (.xpermN 10 11 12) := by decide

theorem test_decode_xpermB_32_64 :
    decode .w32 0b00101000110001011100010100110011#32 = .instr (.xpermB 10 11 12) ∧
    decode .w64 0b00101000110001011100010100110011#32 = .instr (.xpermB 10 11 12) := by decide

theorem test_decode_lui_32_64 :
    decode .w32 0b10001000100010001001010100110111#32 = .instr (.lui 10 559241) ∧
    decode .w64 0b10001000100010001001010100110111#32 = .instr (.lui 10 559241) := by decide

theorem test_decode_addi_32_64 :
    decode .w32 0b10000000010101011000010100010011#32 = .instr (.addi 10 11 2053) ∧
    decode .w64 0b10000000010101011000010100010011#32 = .instr (.addi 10 11 2053) := by decide

theorem test_decode_slli_32 :
    decode .w32 0b00000001011001011001010100010011#32 = .instr (.slli 10 11 22) := by decide

theorem test_decode_slli_64 :
    decode .w64 0b00000010110101011001010100010011#32 = .instr (.slli 10 11 45) := by decide

theorem test_decode_xor_32_64 :
    decode .w32 0b00000000110001011100010100110011#32 = .instr (.xor 10 11 12) ∧
    decode .w64 0b00000000110001011100010100110011#32 = .instr (.xor 10 11 12) := by decide

theorem test_decode_or_32_64 :
    decode .w32 0b00000000110001011110010100110011#32 = .instr (.or 10 11 12) ∧
    decode .w64 0b00000000110001011110010100110011#32 = .instr (.or 10 11 12) := by decide

theorem test_decode_jalr_32_64 :
    decode .w32 0b10000000010101011000010101100111#32 = .instr (.jalr 10 11 2053) ∧
    decode .w64 0b10000000010101011000010101100111#32 = .instr (.jalr 10 11 2053) := by decide

/-! ### Illegal and refused words (R79 to R81) -/

theorem test_decode_illegal_rv32 :
    [0x60C5D53B, 0x6085D51B, 0x6285D513, 0x6A85D513, 0x2A75D513, 0x09F59513, 0x09F5D513, 0x0AF59513, 0x02859593,
      0x6285D51B].all (fun n => match decode .w32 (BitVec.ofNat 32 n) with
        | .illegal _ => true
        | .instr _ => false
        | .outsideSpec => false) = true := by decide

theorem test_decode_illegal_rv64 :
    [0x0BF59513, 0x0BF5D513, 0x6285D51B, 0x6A85D51B, 0x2A75D51B].all (fun n =>
      match decode .w64 (BitVec.ofNat 32 n) with
        | .illegal _ => true
        | .instr _ => false
        | .outsideSpec => false) = true := by decide

/-- `add`, `ld`, `sw`, `fence`, `ecall`, a compressed parcel, a longer instruction, the zero word. -/
theorem test_decode_refused :
    [0x00C58533, 0x0005B503, 0x00A5A023, 0x0FF0000F, 0x00000073, 0x00008082, 0x0000001F, 0x00000000].all (fun n =>
      decode .w32 (BitVec.ofNat 32 n) == .outsideSpec && decode .w64 (BitVec.ofNat 32 n) == .outsideSpec) = true := by
  decide

theorem test_encode_of_examples :
    encode (.ror 10 11 12) = 0x60C5D533#32 ∧ encode (.rori 10 11 40) = 0x6285D513#32 ∧
    encode (.shfli 10 11 31) = 0x09F59513#32 ∧ encode (.addi 5 5 (-1930)) = 0x87628293#32 ∧
    encode (.lui 5 0x4D5E1) = 0x4D5E12B7#32 ∧ encode ret = 0x00008067#32 := by decide

/-! ### One step of each instruction, from the fetched word: the "Example" line of its rule -/

theorem test_step_ror :
    valueAfter 10 (step (machine .w32 [0x60C5D533#32] [(11, 0x12345678), (12, 0x8)])) = some 0x78123456 := by decide

theorem test_step_rol :
    valueAfter 10 (step (machine .w32 [0x60C59533#32] [(11, 0x12345678), (12, 0x8)])) = some 0x34567812 := by decide

theorem test_step_rori :
    valueAfter 10 (step (machine .w64 [0x6285D513#32] [(11, 0x123456789ABCDEF)])) = some 0x6789ABCDEF012345 := by decide

theorem test_step_rorw :
    valueAfter 10 (step (machine .w64 [0x60C5D53B#32] [(11, 0x123456789ABCDEF), (12, 0x8)])) = some 0xFFFFFFFFEF89ABCD := by decide

theorem test_step_rolw :
    valueAfter 10 (step (machine .w64 [0x60C5953B#32] [(11, 0x123456789ABCDEF), (12, 0x8)])) = some 0xFFFFFFFFABCDEF89 := by decide

theorem test_step_roriw :
    valueAfter 10 (step (machine .w64 [0x6085D51B#32] [(11, 0x123456789ABCDEF)])) = some 0xFFFFFFFFEF89ABCD := by decide

theorem test_step_grev :
    valueAfter 10 (step (machine .w32 [0x68C5D533#32] [(11, 0x12345678), (12, 0x38)])) = some 0x78563412 := by decide

theorem test_step_grevi :
    valueAfter 10 (step (machine .w64 [0x6B85D513#32] [(11, 0x123456789ABCDEF)])) = some 0xEFCDAB8967452301 := by decide

theorem test_step_grevw :
    valueAfter 10 (step (machine .w64 [0x68C5D53B#32] [(11, 0xFFFFFFFF12345678), (12, 0x18)])) = some 0x78563412 := by decide

theorem test_step_greviw :
    valueAfter 10 (step (machine .w64 [0x6985D51B#32] [(11, 0x123456789ABCDEF)])) = some 0xFFFFFFFFEFCDAB89 := by decide

theorem test_step_gorc :
    valueAfter 10 (step (machine .w32 [0x28C5D533#32] [(11, 0x100800), (12, 0x7)])) = some 0xFFFF00 := by decide

theorem test_step_gorci :
    valueAfter 10 (step (machine .w64 [0x2A75D513#32] [(11, 0x100000000000080)])) = some 0xFF0000FFFF0000FF := by decide

theorem test_step_gorcw :
    valueAfter 10 (step (machine .w64 [0x28C5D53B#32] [(11, 0xFFFFFFFF00000080), (12, 0x7)])) = some 0xFF := by decide

theorem test_step_gorciw :
    valueAfter 10 (step (machine .w64 [0x2875D51B#32] [(11, 0x1000000)])) = some 0xFFFFFFFFFF000000 := by decide

theorem test_step_shfl :
    valueAfter 10 (step (machine .w32 [0x08C59533#32] [(11, 0xFFFF0000), (12, 0xF)])) = some 0xAAAAAAAA := by decide

theorem test_step_unshfl :
    valueAfter 10 (step (machine .w32 [0x08C5D533#32] [(11, 0xAAAAAAAA), (12, 0xF)])) = some 0xFFFF0000 := by decide

theorem test_step_shfli :
    valueAfter 10 (step (machine .w64 [0x09F59513#32] [(11, 0x123456789ABCDEF)])) = some 0x40434C4F70737C7F := by decide

theorem test_step_unshfli :
    valueAfter 10 (step (machine .w64 [0x09F5D513#32] [(11, 0x40434C4F70737C7F)])) = some 0x123456789ABCDEF := by decide

theorem test_step_shflw :
    valueAfter 10 (step (machine .w64 [0x08C5953B#32] [(11, 0xFFFFFFFFFFFF0000), (12, 0x1F)])) = some 0xFFFFFFFFAAAAAAAA := by decide

theorem test_step_unshflw :
    valueAfter 10 (step (machine .w64 [0x08C5D53B#32] [(11, 0xFFFFFFFFFFFF0000), (12, 0xF)])) = some 0xFFFFFFFFFF00FF00 := by decide

theorem test_step_clmul :
    valueAfter 10 (step (machine .w32 [0x0AC59533#32] [(11, 0x12345678), (12, 0x9ABCDEF0)])) = some 0x5CD25A80 := by decide

theorem test_step_clmulh :
    valueAfter 10 (step (machine .w32 [0x0AC5B533#32] [(11, 0x12345678), (12, 0x9ABCDEF0)])) = some 0x8860E94 := by decide

theorem test_step_clmulr :
    valueAfter 10 (step (machine .w32 [0x0AC5A533#32] [(11, 0x12345678), (12, 0x9ABCDEF0)])) = some 0x110C1D28 := by decide

theorem test_step_clmulw :
    valueAfter 10 (step (machine .w64 [0x0AC5953B#32] [(11, 0xFFFFFFFFFFFFFFFF), (12, 0xFFFFFFFFFFFFFFFF)])) = some 0x55555555 := by decide

theorem test_step_clmulhw :
    valueAfter 10 (step (machine .w64 [0x0AC5B53B#32] [(11, 0x12345678), (12, 0x9ABCDEF0)])) = some 0x8860E94 := by decide

theorem test_step_clmulrw :
    valueAfter 10 (step (machine .w64 [0x0AC5A53B#32] [(11, 0xFFFFFFFFFFFFFFFF), (12, 0xFFFFFFFFFFFFFFFF)])) = some 0xFFFFFFFFAAAAAAAA := by decide

theorem test_step_andn :
    valueAfter 10 (step (machine .w32 [0x40C5F533#32] [(11, 0x12345678), (12, 0xF0F0F0F)])) = some 0x10305070 := by decide

theorem test_step_orn :
    valueAfter 10 (step (machine .w32 [0x40C5E533#32] [(11, 0x12345678), (12, 0xF0F0F0F)])) = some 0xF2F4F6F8 := by decide

theorem test_step_xorn :
    valueAfter 10 (step (machine .w32 [0x40C5C533#32] [(11, 0x12345678), (12, 0xF0F0F0F)])) = some 0xE2C4A688 := by decide

theorem test_step_pack :
    valueAfter 10 (step (machine .w64 [0x08C5C533#32] [(11, 0x123456789ABCDEF), (12, 0xFEDCBA9876543210)])) = some 0x7654321089ABCDEF := by decide

theorem test_step_packu :
    valueAfter 10 (step (machine .w64 [0x48C5C533#32] [(11, 0x123456789ABCDEF), (12, 0xFEDCBA9876543210)])) = some 0xFEDCBA9801234567 := by decide

theorem test_step_packh :
    valueAfter 10 (step (machine .w32 [0x08C5F533#32] [(11, 0xFFFFFFAA), (12, 0xFFFFFFBB)])) = some 0xBBAA := by decide

theorem test_step_packw :
    valueAfter 10 (step (machine .w64 [0x08C5C53B#32] [(11, 0x1234), (12, 0x8765)])) = some 0xFFFFFFFF87651234 := by decide

theorem test_step_packuw :
    valueAfter 10 (step (machine .w64 [0x48C5C53B#32] [(11, 0x123456789ABCDEF), (12, 0xFEDCBA9876543210)])) = some 0x765489AB := by decide

theorem test_step_xpermN :
    valueAfter 10 (step (machine .w64 [0x28A2A533#32] [(5, 0x4D5E087619CA23FB), (10, 0x123456789ABCDEF)])) = some 0xBF32AC916780E5D4 := by decide

theorem test_step_xpermB :
    valueAfter 10 (step (machine .w64 [0x28C5C533#32] [(11, 0x8877665544332211), (12, 0x8FF800700000001)])) = some 0x8811111122 := by decide

theorem test_step_lui :
    valueAfter 7 (step (machine .w64 [0x888893B7#32] [])) = some 0xFFFFFFFF88889000 := by decide

theorem test_step_addi :
    valueAfter 5 (step (machine .w32 [0x87628293#32] [(5, 0x4D5E1000)])) = some 0x4D5E0876 := by decide

theorem test_step_slli :
    valueAfter 11 (step (machine .w32 [0x00859593#32] [(11, 0x22)])) = some 0x2200 := by decide

theorem test_step_xor :
    valueAfter 10 (step (machine .w32 [0x00754533#32] [(10, 0x89ABCDEF), (7, 0x88888888)])) = some 0x1234567 := by decide

theorem test_step_or :
    valueAfter 10 (step (machine .w32 [0x00B56533#32] [(10, 0x11), (11, 0x2200)])) = some 0x2211 := by decide

/-- `jalr ra, 0(ra)` jumps to the old `ra` and links (R168). -/
theorem test_step_jalr :
    pcAfter (step (machine .w32 [0x000080E7#32] [(1, 0x1235)])) = some 0x1234 ∧
    valueAfter 1 (step (machine .w32 [0x000080E7#32] [(1, 0x1235)])) = some 0x1004 := by decide

theorem test_step_jalr_misaligned :
    trapOf (step (machine .w32 [0x00008067#32] [(1, 0x1003)])) = some (.instructionAddressMisaligned, 0x1000, 0x1002) := by
  decide

/-! ### Witnesses: for each statement with hypotheses, concrete states and operands that meet them, at the boundaries -/

/-- Machines about to run some word. -/
def rv32 : State := machine .w32 [0x60C5D533#32] [(11, 0x12345678), (12, 8)]
def rv64 : State := machine .w64 [0x60C5D533#32] [(11, 0x12345678), (12, 8)]

/-- A machine that stands at HALT_PC, and one that stands at the last word of the address space. -/
def atHaltPc : State := { rv32 with pc := rv32.haltPc }
def atTop : State :=
  { machine .w32 [] [] with
    imem := Memory.loadWords [] 0xFFFFFFFC [0x60C5D533#32]
    pc := 0xFFFFFFFC#32 }

theorem witness_ImmediateRotateMovesBits :
    (31#6).toNat < rv32.xlen.bits ∧ ¬ (32#6).toNat < rv32.xlen.bits ∧ (63#6).toNat < rv64.xlen.bits := by decide

theorem witness_WordRotatesMoveBits :
    rv64.xlen = .w64 ∧ rv32.xlen = .w32 ∧ (31#6).toNat < 32 ∧ ¬ (32#6).toNat < 32 := by decide

theorem witness_RotationLaws :
    (0 < Width.w32.bits ∧ 31 < Width.w32.bits) ∧ (0 < Width.w64.bits ∧ 63 < Width.w64.bits) := by decide

theorem witness_ReversesPermuteByIndexXor :
    (31#6).toNat < rv32.xlen.bits ∧ ¬ (32#6).toNat < rv32.xlen.bits ∧ (63#6).toNat < rv64.xlen.bits := by decide

theorem witness_WordReversesPermuteByIndexXor :
    rv64.xlen = .w64 ∧ rv32.xlen = .w32 ∧ (31#6).toNat < 32 ∧ ¬ (32#6).toNat < 32 := by decide

/-- Each inner range at its last value: a bit, a stage, a byte, a short, a nibble. -/
theorem witness_ReverseLaws :
    (0 < Width.w32.bits ∧ 31 < Width.w32.bits ∧ 63 < Width.w64.bits) ∧ (4 < Width.w32.log2 ∧ 5 < Width.w64.log2) ∧
    (3 < Width.w32.bits / 8 ∧ 7 < 8) ∧ (1 < Width.w32.bits / 16 ∧ 15 < 16) ∧ 31 < 32 ∧
    (7 < Width.w32.bits / 4 ∧ 3 < 4) := by decide

theorem witness_OrCombinesGatherBits :
    (31#6).toNat < rv32.xlen.bits ∧ ¬ (32#6).toNat < rv32.xlen.bits ∧ (63#6).toNat < rv64.xlen.bits := by decide

theorem witness_WordOrCombinesGatherBits :
    rv64.xlen = .w64 ∧ rv32.xlen = .w32 ∧ (31#6).toNat < 32 ∧ ¬ (32#6).toNat < 32 := by decide

theorem witness_OrCombineLaws :
    31 < Width.w32.bits ∧ 63 < Width.w64.bits ∧ (4 < Width.w32.log2 ∧ 5 < Width.w64.log2) ∧
    (0x80000000#32).getLsbD 31 = true ∧ (3 < Width.w32.bits / 8 ∧ 7 < 8) := by decide

theorem witness_NamedSpecialCases : rv64.xlen = .w64 := by decide

theorem witness_ImmediateShufflesMoveBits :
    (15#6).toNat < rv32.xlen.bits / 2 ∧ ¬ (16#6).toNat < rv32.xlen.bits / 2 ∧ (31#6).toNat < rv64.xlen.bits / 2 ∧
    ¬ (32#6).toNat < rv64.xlen.bits / 2 := by decide

theorem witness_WordShufflesMoveBits : rv64.xlen = .w64 ∧ rv32.xlen = .w32 := by decide

theorem witness_ShuffleLaws :
    (15 < Width.w32.bits / 2 ∧ 31 < Width.w64.bits / 2) ∧
    (3 < Width.w32.log2 - 1 ∧ 31 < Width.w32.bits ∧ (15 : Nat).testBit 3 = true) ∧
    (4 < Width.w64.log2 - 1 ∧ 63 < Width.w64.bits ∧ (31 : Nat).testBit 4 = true) := by decide

theorem witness_WordCarrylessMultiplies : rv64.xlen = .w64 ∧ rv32.xlen = .w32 := by decide

theorem witness_CarrylessProductLaws : 63 < 2 * Width.w32.bits ∧ 31 < Width.w32.bits ∧ 127 < 2 * Width.w64.bits := by
  decide

theorem witness_WordPacksJoinHalves : rv64.xlen = .w64 ∧ rv32.xlen = .w32 := by decide

/-- The last element, and an index vector whose element i is i. -/
theorem witness_CrossbarLaws :
    7 < Width.w32.bits / 4 ∧ 7 < Width.w64.bits / 8 ∧
    (∀ i, i < Width.w32.bits / 4 → (element 4 (0x76543210#32) i).toNat = i) ∧
    (∀ i, i < Width.w64.bits / 8 → (element 8 (0x0706050403020100#64) i).toNat = i) := by decide

theorem witness_ShiftLeftImmediate :
    (31#6).toNat < rv32.xlen.bits ∧ ¬ (32#6).toNat < rv32.xlen.bits ∧ (63#6).toNat < rv64.xlen.bits := by decide

/-- A sum that wraps to an odd address, whose bit 0 is dropped, and one whose bit 1 is set. -/
theorem witness_JumpAndLinkRegister :
    (5 = ((((machine .w32 [] [(1, 0xFFFFFFFF)]).val 1 : Int) + (6 : BitVec 12).toInt) % (2 ^ 32 : Nat)).toNat ∧
      4 = 5 - 5 % 2 ∧ (4 : Nat).testBit 1 = false) ∧
    (0xFFFFFFFE = ((((machine .w32 [] [(1, 1)]).val 1 : Int) + (-3 : BitVec 12).toInt) % (2 ^ 32 : Nat)).toNat ∧
      0xFFFFFFFE = 0xFFFFFFFE - 0xFFFFFFFE % 2 ∧ (0xFFFFFFFE : Nat).testBit 1 = true) := by decide

theorem witness_RetJumpsToReturnAddress :
    (machine .w64 [] [(1, 0x2001)]).bit 1#5 1 = false ∧ (machine .w64 [] [(1, 0x2003)]).bit 1#5 1 = true := by decide

theorem witness_DecodeOfEncode :
    Instr.wf .w32 (.shfli 31 31 15) = true ∧ Instr.wf .w64 (.rori 31 31 63) = true := by decide

theorem witness_EncodeOfDecode :
    decode .w32 0x08FF9F93#32 = .instr (.shfli 31 31 15) ∧ decode .w64 0x63FFDF93#32 = .instr (.rori 31 31 63) := by decide

/-- An instruction that RV32 lacks, and its word fetched. -/
theorem witness_AbsentInstructionIsIllegal :
    Instr.wf .w32 (.roriw 10 11 8) = false ∧ Instr.wf .w32 (.shfli 10 11 16) = false ∧
    (machine .w32 [0x6085D51B#32] []).pc ≠ (machine .w32 [0x6085D51B#32] []).haltPc ∧
    (machine .w32 [0x6085D51B#32] []).fetch = some (encode (.roriw 10 11 8)) := by decide

/-- The hypotheses inside TrapsAsIllegal, for an amount bit that the XLEN lacks, on each XLEN. -/
theorem witness_TrapsAsIllegal :
    trapOf (step (machine .w32 [0x6285D513#32] [])) = some (.illegalInstruction, 0x1000, 0x6285D513) ∧
    (machine .w32 [0x6285D513#32] []).pc ≠ (machine .w32 [0x6285D513#32] []).haltPc ∧
    (machine .w32 [0x6285D513#32] []).fetch = some 0x6285D513#32 ∧
    trapOf (step (machine .w64 [0x0BF59513#32] [])) = some (.illegalInstruction, 0x1000, 0x0BF59513) ∧
    (machine .w64 [0x0BF59513#32] []).fetch = some 0x0BF59513#32 := by decide

theorem witness_OpcodeRowsAreDisjoint :
    ((opRows.get ⟨0, by decide⟩).has .w32 = true ∧ (opRows.get ⟨0, by decide⟩).fits 0x60C5D533#32 = true) ∧
    ((opRows.get ⟨47, by decide⟩).has .w64 = true ∧ (opRows.get ⟨47, by decide⟩).fits 0x00008067#32 = true) := by decide

theorem witness_OnlyThirtyTwoBitWordsDecode :
    decode .w32 0x00008067#32 = .instr (.jalr 0 1 0) ∧ (0xFFFFFFFE#32).extractLsb' 0 2 ≠ 0b11#2 ∧
    (0x0000001F#32).extractLsb' 0 5 = 0b11111#5 := by decide

/-- One word of each row of R79 and R80. -/
theorem witness_IllegalWordsAreThoseNamed :
    decode .w64 0x0BF59513#32 = .illegal .reservedAmount ∧ decode .w64 0x6285D51B#32 = .illegal .reservedAmount ∧
    decode .w32 0x60C5D53B#32 = .illegal .rv64OnlyOnRv32 ∧ decode .w32 0x6285D513#32 = .illegal .reservedAmount ∧
    decode .w32 0x02859593#32 = .illegal .reservedAmount ∧ decode .w32 0x09059513#32 = .illegal .reservedAmount ∧
    decode .w32 0x6285D51B#32 = .illegal .reservedAmount := by decide

theorem witness_EveryOtherWordIsRefused :
    (machine .w64 [0x00C58533#32] []).pc ≠ (machine .w64 [0x00C58533#32] []).haltPc ∧
    (machine .w64 [0x00C58533#32] []).fetch = some 0x00C58533#32 ∧ decode .w64 0x00C58533#32 = .outsideSpec ∧
    refusalOf (step (machine .w64 [0x00C58533#32] [])) = some (0x1000, 0x00C58533#32) := by decide

theorem witness_MemoryAndSystemWordsAreRefused :
    (0x0005B503#32).extractLsb' 0 7 = 0b0000011#7 ∧ (0x00A5A023#32).extractLsb' 0 7 = 0b0100011#7 ∧
    (0x0FF0000F#32).extractLsb' 0 7 = 0b0001111#7 ∧ (0x30200073#32).extractLsb' 0 7 = 0b1110011#7 := by decide

theorem witness_StepRunsDecodedInstruction :
    rv64.pc ≠ rv64.haltPc ∧ rv64.pc.toNat % 4 = 0 ∧ Memory.read rv64.imem rv64.pc.toNat = some 0x33#8 ∧
    Memory.read rv64.imem (rv64.pc.toNat + 1) = some 0xD5#8 ∧ Memory.read rv64.imem (rv64.pc.toNat + 2) = some 0xC5#8 ∧
    Memory.read rv64.imem (rv64.pc.toNat + 3) = some 0x60#8 ∧
    decodeBytes rv64.xlen [0x33#8, 0xD5#8, 0xC5#8, 0x60#8] = .instr (.ror 10 11 12) := by decide

/-- At HALT_PC; outside dom(IMEM); and at a word that decodes, one that is illegal and one that is refused. -/
theorem witness_StepOutcomes :
    (atHaltPc.pc = atHaltPc.haltPc) ∧
    ((machine .w32 [] []).pc ≠ (machine .w32 [] []).haltPc ∧ (machine .w32 [] []).fetch = none) ∧
    (rv32.pc ≠ rv32.haltPc ∧ rv32.fetch = some 0x60C5D533#32 ∧
      decode rv32.xlen 0x60C5D533#32 = .instr (.ror 10 11 12)) ∧
    decode rv32.xlen 0x60C5D53B#32 = .illegal .rv64OnlyOnRv32 ∧ decode rv32.xlen 0x00C58533#32 = .outsideSpec := by
  decide

/-- Each cause reported. -/
theorem witness_TrapReportsCauseAndAddress :
    trapOf (step (machine .w32 [0x00008067#32] [(1, 0xFFFFFFFF)])) =
      some (.instructionAddressMisaligned, 0x1000, 0xFFFFFFFE) ∧
    trapOf (step (machine .w32 [] [])) = some (.instructionAccessFault, 0x1000, 0x1000) ∧
    trapOf (step (machine .w32 [0x60C5D53B#32] [])) = some (.illegalInstruction, 0x1000, 0x60C5D53B) := by decide

theorem witness_DecodedInstructionsNeverRaise :
    decode rv32.xlen 0x60C5D533#32 = .instr (.ror 10 11 12) ∧ Instr.isJalr (.ror 10 11 12) = false := by decide

/-- A step that moves pc by 4, one that wraps it at the top of the address space, and one that jumps. -/
theorem witness_StepChangesOneRegisterAndPc :
    pcAfter (step rv32) = some 0x1004 ∧
    pcAfter (step atTop) = some 0 ∧
    pcAfter (step (machine .w32 [0x00008067#32] [(1, 0x2001)])) = some 0x2000 := by decide

/-- Two states that agree on the sources of `ror a0, a1, a2` and on nothing else. -/
theorem witness_ResultDependsOnSourcesOnly :
    (machine .w64 [0x60C5D533#32] [(11, 5), (12, 1), (13, 7)]).xlen = (machine .w64 [] [(11, 5), (12, 1), (10, 3)]).xlen ∧
    Instr.wf .w64 (.ror 10 11 12) = true ∧ Instr.isJalr (.ror 10 11 12) = false ∧
    (∀ r ∈ Instr.sources (.ror 10 11 12), ∀ k, (machine .w64 [0x60C5D533#32] [(11, 5), (12, 1), (13, 7)]).bit r k =
      (machine .w64 [] [(11, 5), (12, 1), (10, 3)]).bit r k) := by
  refine ⟨rfl, rfl, rfl, fun r hr k => ?_⟩
  simp only [Instr.sources, List.mem_cons, List.not_mem_nil, or_false] at hr
  rcases hr with rfl | rfl <;> rfl

theorem witness_DestinationX0ChangesOnlyPc :
    Instr.wf .w32 (.ror 0 11 12) = true ∧ Instr.isJalr (.ror 0 11 12) = false ∧ Instr.dest (.ror 0 11 12) = 0#5 := by decide

/-- A launch with HALT_PC just after the program, one with it far away, and one with it in the word before. -/
theorem witness_LaunchMeetsStateConditions :
    Launch.Valid ⟨.w32, Memory.loadWords [] 0x1000 [0x60C5D533#32], 0x1000#32, 0x1004#32, Vector.replicate 31 0#32⟩ ∧
    Launch.Valid ⟨.w32, Memory.loadWords [] 0x1000 [0x60C5D533#32], 0x1000#32, 0x2000#32, Vector.replicate 31 0#32⟩ ∧
    Launch.Valid ⟨.w32, Memory.loadWords [] 0x1000 [0x60C5D533#32], 0x1000#32, 0xFFC#32, Vector.replicate 31 0#32⟩ := by
  decide

/-- States of the invariant that take a step: in line, and by a jump. -/
theorem witness_StepKeepsStateConditions :
    rv32.Inv ∧ pcAfter (step rv32) = some 0x1004 ∧ (machine .w32 [0x00008067#32] [(1, 0x2001)]).Inv ∧
    pcAfter (step (machine .w32 [0x00008067#32] [(1, 0x2001)])) = some 0x2000 := by decide

/-- HALT_PC just after the program, just before it, and a program that ends at the top of the address space. -/
theorem witness_LoadedProgramIsFetched :
    0x1000 % 4 = 0 ∧ 0x1000 + 4 * [0x60C5D533#32, 0x00008067#32].length ≤ 2 ^ Width.w32.bits ∧
    (0x1000 + 4 * [0x60C5D533#32, 0x00008067#32].length ≤ (0x1008#32).toNat ∧ (0x1008#32).toNat % 4 = 0) ∧
    ((0xFFC#32).toNat < 0x1000 ∧ (0xFFC#32).toNat % 4 = 0) ∧
    (0xFFFFFFFC % 4 = 0 ∧ 0xFFFFFFFC + 4 * [0x60C5D533#32].length ≤ 2 ^ Width.w32.bits) := by decide

/-- A pc that is HALT_PC and one that is not. -/
theorem witness_PlacedWordIsFetchedNext :
    State.reset.pc.toNat % 4 = 0 ∧ State.reset.pc ≠ State.reset.haltPc ∧
    atHaltPc.pc.toNat % 4 = 0 ∧ atHaltPc.pc = atHaltPc.haltPc := by decide

/-- Two instructions in line, HALT_PC elsewhere; after them nothing is listed. -/
theorem witness_StraightLineProgramsRunInOrder :
    StraightLineAt (machine .w32 [0x60C5D533#32, 0x00B56533#32] []) [0x60C5D533#32, 0x00B56533#32] := by
  intro k h
  match k, h with
  | 0, _ => exact ⟨rfl, by decide, .ror 10 11 12,
      (by decide : decode .w32 0x60C5D533#32 = .instr (.ror 10 11 12)), rfl⟩
  | 1, _ => exact ⟨rfl, by decide, .or 10 10 11,
      (by decide : decode .w32 0x00B56533#32 = .instr (.or 10 10 11)), rfl⟩

/-- The same two instructions somewhere else, with HALT_PC just after them. -/
def elsewhere : State :=
  { machine .w32 [] [] with
    imem := Memory.loadWords [] 0x400 [0x60C5D533#32, 0x00B56533#32]
    pc := 0x400#32
    haltPc := 0x408#32 }

theorem witness_StraightLineProgramsRunInOrder_elsewhere :
    StraightLineAt elsewhere [0x60C5D533#32, 0x00B56533#32] ∧ elsewhere.xlen = (machine .w32 [] []).xlen := by
  refine ⟨fun k h => ?_, rfl⟩
  match k, h with
  | 0, _ => exact ⟨rfl, by decide, .ror 10 11 12,
      (by decide : decode .w32 0x60C5D533#32 = .instr (.ror 10 11 12)), rfl⟩
  | 1, _ => exact ⟨rfl, by decide, .or 10 10 11,
      (by decide : decode .w32 0x00B56533#32 = .instr (.or 10 10 11)), rfl⟩

/-- After the two instructions: nothing to fetch at the first placement, HALT_PC at the second. -/
theorem witness_StraightLineProgramsRunInOrder_ends :
    (match run 2 (machine .w32 [0x60C5D533#32, 0x00B56533#32] []) with
      | .next t => decide (t.pc ≠ t.haltPc ∧ t.fetch = none)
      | .fault _ => false
      | .refused _ => false) = true ∧
    (match run 2 elsewhere with
      | .next t => decide (t.pc = t.haltPc)
      | .fault _ => false
      | .refused _ => false) = true := by decide

/-- The registers of the two placements agree, as position independence asks. -/
theorem witness_StraightLineProgramsRunInOrder_registers (r : RegNum) (k : Nat) :
    elsewhere.bit r k = (machine .w32 [0x60C5D533#32, 0x00B56533#32] []).bit r k := rfl

theorem witness_RegisterNames : "fp" ∈ spellings 8#5 ∧ "s0" ∈ spellings 8#5 ∧ "x8" ∈ spellings 8#5 ∧ abiName 8 = "s0" := by
  decide

/-! ### `li` and `ret` (R166, R167) -/

theorem test_li_expansions :
    (li .w32 5 0x4D5E0876#32).map encode = [0x4D5E12B7#32, 0x87628293#32] ∧
    (li .w32 7 0x88888888#32).map encode = [0x888893B7#32, 0x88838393#32] ∧
    (li .w64 5 0x4D5E087619CA23FB#64).length = 9 := by decide

theorem test_li_leaves_constant :
    valueAfter 5 (execSeq (li .w64 5 0x7FFFFFFF#64) rv64) = some 0x7FFFFFFF ∧
    valueAfter 5 (execSeq (li .w64 5 0x4D5E087619CA23FB#64) rv64) = some 0x4D5E087619CA23FB := by decide

/-! ### The host's two readings -/

theorem test_decodeTableWord :
    decodeTableWord 32 0x60C5D533 = some (.ror 10 11 12) ∧ decodeTableWord 32 0x28001013 = none := by decide

theorem test_withFetchWord_runs_from_reset :
    valueAfter 7 (step (State.reset.withFetchWord 32 0x888893B7)) = some 0xFFFFFFFF88889000 ∧
    pcAfter (step (State.reset.withFetchWord 32 0x888893B7)) = some 0x1004 := by decide

end Sys2Proof.Tests
end

-- ==== Proofs: the scope (spec/00_scope.md) ====
section
/-! The launch as the base case of the invariant (R7, R201). -/

namespace Sys2Proof.Machine

/-- A launch copies its parameters into the state unchanged, so R7 and R201 ask of it exactly what the invariant asks of
the state it starts in. -/
theorem State.launch_inv_iff (l : Launch) : (State.launch l).Inv ↔ l.Valid := Iff.rfl

/-- RESET_PC and HALT_PC are aligned, and the empty IMEM has no cell to misplace and no word at HALT_PC. -/
theorem Launch.bare_valid : Launch.bare.Valid := by
  have resetPc_aligned : Launch.bare.resetPc.toNat % 4 = 0 := by decide
  have haltPc_aligned : Launch.bare.haltPc.toNat % 4 = 0 := by decide
  exact ⟨resetPc_aligned, haltPc_aligned, State.reset_imem_wf, rfl, rfl, rfl⟩

end Sys2Proof.Machine

namespace Sys2Proof

open Sys2Proof.Machine

/-- Settles O51: reset is the launch `Launch.bare`, so both halves are the invariant of a valid launch's start state. -/
theorem launchMeetsStateConditions : Obligations.LaunchMeetsStateConditions := by
  have launch_inv : ∀ l : Launch, l.Valid → (State.launch l).Inv := fun l => (State.launch_inv_iff l).mpr
  exact ⟨launch_inv Launch.bare Launch.bare_valid, launch_inv⟩

end Sys2Proof
end

-- ==== Proofs: the state (spec/10_state.md) ====
section
/-! What a step leaves of the state: one register and pc, aligned again (R21, R24, R25); what a result is computed from
(R23, R47); the reset state (R31) and the register names (R22). -/

namespace Sys2Proof

theorem Width.four_dvd_two_pow_bits (w : Width) : 4 ∣ 2 ^ w.bits := by cases w <;> decide

end Sys2Proof

namespace Sys2Proof.Machine

/-! ### Registers -/

/-- What any register reads after a commit, in one equation (R21). -/
theorem State.bit_commit (s : State) (rd : RegNum) (v next : BitVec s.xlen.bits) (r : RegNum) (k : Nat) :
    (s.commit rd v next).bit r k =
      if r = 0#5 then false else if r = rd then v.getLsbD k else s.bit r k := by
  split
  case isTrue hr0 => rw [hr0, State.bit_zero]
  case isFalse hr0 =>
    split
    case isTrue hrd =>
      subst hrd
      exact State.bit_commit_same s r v next hr0 k
    case isFalse hrd => exact State.bit_commit_other s rd r v next hrd k

@[simp] theorem RegFile.read_replicate_zero (n : Nat) (i : RegNum) :
    RegFile.read (Vector.replicate 31 0#n) i = 0#n := by
  unfold RegFile.read
  split
  · rfl
  · exact Vector.getElem_replicate _

/-! ### pc stays aligned (R25) -/

/-- Bits 0 and 1 are all that the remainder by 4 reads. -/
theorem toNat_mod_four_of_low_bits {n : Nat} (v : BitVec n) (h0 : v.getLsbD 0 = false) (h1 : v.getLsbD 1 = false) :
    v.toNat % 4 = 0 := by
  rw [← BitVec.testBit_toNat, Nat.testBit_eq_decide_div_mod_eq] at h0 h1
  simp only [decide_eq_false_iff_not] at h0 h1
  omega

/-- The wrap at the top of the address space keeps alignment, as 4 divides 2^XLEN (R24, R25). -/
theorem State.nextPc_mod_four (s : State) (h : s.pc.toNat % 4 = 0) : s.nextPc.toNat % 4 = 0 := by
  rw [State.nextPc_toNat, Nat.mod_mod_of_dvd _ s.xlen.four_dvd_two_pow_bits]
  omega

/-- Only pc can break the invariant: a commit leaves IMEM and HALT_PC alone (R29, R41). -/
theorem State.Inv.commit {s : State} (h : s.Inv) (rd : RegNum) (v : BitVec s.xlen.bits) {next : BitVec s.xlen.bits}
    (hnext : next.toNat % 4 = 0) : (s.commit rd v next).Inv := by
  obtain ⟨_, parameters⟩ := h
  exact ⟨hnext, parameters⟩

/-! ### What a completed step is -/

/-- A step that answers a next state is one commit, by the instruction it fetched and decoded, to pc + 4 or to an aligned
`jalr` target (R23, R24, R168). -/
theorem step_next_commit {s t : State} (h : step s = .next t) :
    ∃ w i v next, s.fetch = some w ∧ decode s.xlen w = .instr i ∧ t = s.commit i.dest v next ∧
      (i.isJalr = false → next = s.nextPc) ∧ (i.isJalr = true → next.toNat % 4 = 0) := by
  obtain ⟨_, w, i, hfetch, hdecode, hexec⟩ := step_next h
  obtain ⟨_, v, next, ht, hline, hjump⟩ := exec_next hexec
  refine ⟨w, i, v, next, hfetch, hdecode, ht, hline, fun hj => ?_⟩
  obtain ⟨h0, h1⟩ := hjump hj
  exact toNat_mod_four_of_low_bits next h0 h1

/-- The step that finds nothing at its pc (R182). -/
theorem step_of_fetch_none {s : State} (hp : s.pc ≠ s.haltPc) (hf : s.fetch = none) :
    step s = .fault (.trap .instructionAccessFault s.pc.toNat s.pc.toNat) := by
  simp [step, hp, hf, raiseAccessFault_eq]

/-! ### What a result is computed from (R23, R47) -/

/-- Two states of one XLEN that agree on an instruction's sources retire one value, each from its own pc. The arms differ
only in how many sources they read and in whether they check legality. -/
theorem exec_of_sources_eq {i : Instr} {s t : State} (hx : s.xlen = t.xlen) (hi : i.wf s.xlen = true)
    (hj : i.isJalr = false) (hsrc : ∀ r ∈ i.sources, ∀ k, s.bit r k = t.bit r k) :
    ∃ v w, exec i s = retire i.dest s v ∧ exec i t = retire i.dest t w ∧ v.toNat = w.toNat := by
  obtain ⟨x, m, hp, f, pc⟩ := s
  obtain ⟨x', m', hp', f', pc'⟩ := t
  obtain rfl : x = x' := hx
  have hget : ∀ r ∈ i.sources, State.get ⟨x, m, hp, f, pc⟩ r = State.get ⟨x, m', hp', f', pc'⟩ r :=
    fun r hr => BitVec.eq_of_getLsbD_eq fun k _ => hsrc r hr k
  cases i with
  | lui => exact ⟨_, _, rfl, rfl, rfl⟩
  | addi rd rs1 =>
    have h1 := hget rs1 (by simp [Instr.sources])
    exact ⟨_, _, rfl, rfl, by rw [h1]⟩
  | rori rd rs1 | roriw rd rs1 | grevi rd rs1 | greviw rd rs1 | gorci rd rs1 | gorciw rd rs1
  | shfli rd rs1 | unshfli rd rs1 | slli rd rs1 =>
    have h1 := hget rs1 (by simp [Instr.sources])
    exact ⟨_, _, whenLegal_of_wf hi, whenLegal_of_wf hi, by rw [h1]⟩
  | rorw rd rs1 rs2 | rolw rd rs1 rs2 | grevw rd rs1 rs2 | gorcw rd rs1 rs2 | shflw rd rs1 rs2
  | unshflw rd rs1 rs2 | clmulw rd rs1 rs2 | clmulhw rd rs1 rs2 | clmulrw rd rs1 rs2
  | packw rd rs1 rs2 | packuw rd rs1 rs2 =>
    have h1 := hget rs1 (by simp [Instr.sources])
    have h2 := hget rs2 (by simp [Instr.sources])
    exact ⟨_, _, whenLegal_of_wf hi, whenLegal_of_wf hi, by rw [h1, h2]⟩
  | ror rd rs1 rs2 | rol rd rs1 rs2 | grev rd rs1 rs2 | gorc rd rs1 rs2 | shfl rd rs1 rs2
  | unshfl rd rs1 rs2 | clmul rd rs1 rs2 | clmulh rd rs1 rs2 | clmulr rd rs1 rs2
  | andn rd rs1 rs2 | orn rd rs1 rs2 | xorn rd rs1 rs2 | pack rd rs1 rs2 | packu rd rs1 rs2
  | packh rd rs1 rs2 | xpermN rd rs1 rs2 | xpermB rd rs1 rs2 | xor rd rs1 rs2 | or rd rs1 rs2 =>
    have h1 := hget rs1 (by simp [Instr.sources])
    have h2 := hget rs2 (by simp [Instr.sources])
    exact ⟨_, _, rfl, rfl, by rw [h1, h2]⟩
  | jalr => exact absurd hj (by simp [Instr.isJalr])

/-! ### Reset -/

theorem State.fetch_of_imem_nil {s : State} (h : s.imem = []) : s.fetch = none := by
  simp [State.fetch, h, Memory.fetchWord, Memory.readWord]

theorem State.reset_val (r : RegNum) : State.reset.val r = 0 := by
  have read_zero : State.reset.get r = 0#_ := RegFile.read_replicate_zero _ r
  rw [State.val, read_zero, BitVec.toNat_ofNat, Nat.zero_mod]

/-! ### Register names -/

/-- The register that an assembler reads a spelling as: the first one with that spelling. -/
def registerOf (name : String) : RegNum :=
  BitVec.ofNat 5 ((List.range 32).findIdx fun i => (spellings (BitVec.ofNat 5 i)).contains name)

/-- Reading undoes spelling, over the whole table of R22 and R84. -/
theorem registerOf_of_mem_spellings : ∀ r : RegNum, ∀ name ∈ spellings r, registerOf name = r := by decide

theorem abiName_mem_spellings (r : RegNum) : abiName r ∈ spellings r := by simp [spellings]

theorem xName_mem_spellings (r : RegNum) : ("x" ++ toString r.toNat) ∈ spellings r := by simp [spellings]

end Sys2Proof.Machine

namespace Sys2Proof

open Sys2Proof.Machine

/-- Settles O52: the step is a commit, so pc alone moves, by 4 (modulo a multiple of 4) or to an aligned target. -/
theorem stepKeepsStateConditions : Obligations.StepKeepsStateConditions := by
  intro s t hinv hstep
  obtain ⟨_, i, v, next, _, _, rfl, hline, hjump⟩ := step_next_commit hstep
  refine hinv.commit i.dest v ?_
  cases hj : i.isJalr with
  | false =>
    obtain ⟨pc_aligned, _⟩ := hinv
    rw [hline hj]
    exact s.nextPc_mod_four pc_aligned
  | true => exact hjump hj

/-- Settles O45: the frame is that of the one commit a completed step makes. -/
theorem stepChangesOneRegisterAndPc : Obligations.StepChangesOneRegisterAndPc := by
  intro s t hstep
  obtain ⟨w, i, v, next, hfetch, hdecode, rfl, hline, hjump⟩ := step_next_commit hstep
  refine ⟨s.commit_sameParameters i.dest v next, State.bit_zero _, w, i, hfetch, hdecode,
    s.commit_sameRegistersBut i.dest v next, fun hj => ?_, hjump⟩
  rw [State.commit_pc_toNat, hline hj, State.nextPc_toNat]

/-- Settles O46: the two executions retire one value, and a destination x0 reads zero in both. -/
theorem resultDependsOnSourcesOnly : Obligations.ResultDependsOnSourcesOnly := by
  intro i s t hx hi hj hsrc
  obtain ⟨v, w, hs, ht, hvw⟩ := exec_of_sources_eq hx hi hj hsrc
  refine ⟨_, _, hs.trans (retire_eq _ s v), ht.trans (retire_eq _ t w), fun k => ?_⟩
  have same_bit : v.getLsbD k = w.getLsbD k := by
    rw [← BitVec.testBit_toNat, ← BitVec.testBit_toNat, hvw]
  simp only [State.bit_commit, same_bit, if_true]

/-- Settles O48: the register file's laws, read bit by bit. -/
theorem registersHoldLastValueWritten : Obligations.RegistersHoldLastValueWritten := by
  intro s rd v next r k
  exact ⟨s.bit_commit rd v next r k, s.bit_zero k, s.bit_of_le r k⟩

/-- Settles O50: nothing is listed at the reset pc, which is not HALT_PC, so the first step access-faults there. -/
theorem resetStateOfTheModel : Obligations.ResetStateOfTheModel := by
  have pc_ne_haltPc : State.reset.pc ≠ State.reset.haltPc := by decide
  have nothing_fetched : State.reset.fetch = none := State.fetch_of_imem_nil rfl
  exact ⟨rfl, rfl, rfl, rfl, State.reset_val, step_of_fetch_none pc_ne_haltPc nothing_fetched⟩

/-- Settles O56: the printed table is R22's, and a spelling determines its register because reading undoes spelling. -/
theorem registerNames : Obligations.RegisterNames := by
  have unique (a b : RegNum) (name : String) (ha : name ∈ spellings a) (hb : name ∈ spellings b) : a = b :=
    (registerOf_of_mem_spellings a name ha).symm.trans (registerOf_of_mem_spellings b name hb)
  have abiName_injective (a b : RegNum) (h : abiName a = abiName b) : a = b :=
    unique a b (abiName a) (abiName_mem_spellings a) (h ▸ abiName_mem_spellings b)
  exact ⟨rfl, abiName_injective, fun r => ⟨xName_mem_spellings r, abiName_mem_spellings r⟩,
    by simp [spellings], unique⟩

end Sys2Proof
end

-- ==== Proofs: the memory (spec/20_memory.md) ====
section
/-! Instruction memory: what a fetch answers (R41, R42, R44), what placing a word for the next step changes (note 7),
and that no word of the data memory, fence and system opcodes has a meaning (R46, R50, R193). -/

namespace Sys2Proof

/-! ### The major opcodes that a word with a meaning can have (R65) -/

/-- The major opcodes of the opcode table's rows and of the words that R79 and R80 name. -/
def majorOpcodes : List (BitVec 7) := [opOP, opOPIMM, opOP32, opOPIMM32, opLUI, opJALR]

/-- A mask that covers bits 6:0 leaves the major opcode as it is. -/
theorem fieldOpcode_and_mask (w mask : InstrWord) (hmask : fieldOpcode mask = BitVec.allOnes 7) :
    fieldOpcode (w &&& mask) = fieldOpcode w := by
  have split_and : fieldOpcode (w &&& mask) = fieldOpcode w &&& fieldOpcode mask := BitVec.extractLsb'_and
  rw [split_and, hmask, BitVec.and_allOnes]

/-- R62 to R64, R77: every row's mask covers the major opcode, so a word that fits the row has the row's. -/
theorem OpRow.fieldOpcode_of_fits {r : OpRow} (hr : r ∈ opRows) {w : InstrWord} (hfits : r.fits w = true) :
    fieldOpcode w ∈ majorOpcodes := by
  have table : (opRows.all fun r =>
      fieldOpcode r.mask = BitVec.allOnes 7 ∧ fieldOpcode r.pattern ∈ majorOpcodes) = true := by decide
  obtain ⟨mask_covers, pattern_mem⟩ := of_decide_eq_true (List.all_eq_true.mp table r hr)
  have masked : w &&& r.mask = r.pattern := eq_of_beq hfits
  rwa [← fieldOpcode_and_mask w r.mask mask_covers, masked]

/-- R79 names words of two major opcodes only. -/
theorem fieldOpcode_of_isRv64OnlyWord {x : Width} {w : InstrWord} (h : isRv64OnlyWord x w = true) :
    fieldOpcode w ∈ majorOpcodes := by
  simp only [isRv64OnlyWord, Bool.and_eq_true, Bool.or_eq_true, beq_iff_eq] at h
  obtain ⟨⟨_, e | e⟩, _⟩ := h <;> rw [e] <;> decide

/-- R80 names a word by its key, which holds its major opcode. -/
theorem immFormKey_mem_of_isReservedAmount {x : Width} {w : InstrWord} (h : isReservedAmount x w = true) :
    immFormKey w ∈ keysAmount6 ++ keysShuffle ++ keysWordAmount := by
  simp only [List.mem_append]
  cases x with
  | w32 =>
    simp only [isReservedAmount, Bool.or_eq_true, Bool.and_eq_true, List.contains_iff_mem] at h
    rcases h with (⟨amount6, _⟩ | ⟨shuffle, _⟩) | ⟨wordAmount, _⟩
    · exact .inl (.inl amount6)
    · exact .inl (.inr shuffle)
    · exact .inr wordAmount
  | w64 =>
    simp only [isReservedAmount, Bool.or_eq_true, Bool.and_eq_true, List.contains_iff_mem] at h
    rcases h with ⟨shuffle, _⟩ | ⟨wordAmount, _⟩
    · exact .inl (.inr shuffle)
    · exact .inr wordAmount

theorem fieldOpcode_of_isReservedAmount {x : Width} {w : InstrWord} (h : isReservedAmount x w = true) :
    fieldOpcode w ∈ majorOpcodes := by
  have keys : ((keysAmount6 ++ keysShuffle ++ keysWordAmount).all fun key =>
      fieldOpcode key ∈ majorOpcodes) = true := by decide
  have same_opcode : fieldOpcode (immFormKey w) = fieldOpcode w := fieldOpcode_and_mask w _ (by decide)
  rw [← same_opcode]
  exact of_decide_eq_true (List.all_eq_true.mp keys _ (immFormKey_mem_of_isReservedAmount h))

/-- R78, step by step: a word of any other major opcode fits no row and no rule, and falls through to R81. -/
theorem decode_of_opcode_not_mem (x : Width) {w : InstrWord} (h : fieldOpcode w ∉ majorOpcodes) :
    decode x w = .outsideSpec := by
  have not_rv64Only : ¬ isRv64OnlyWord x w = true := fun hw => h (fieldOpcode_of_isRv64OnlyWord hw)
  have not_reserved : ¬ isReservedAmount x w = true := fun hw => h (fieldOpcode_of_isReservedAmount hw)
  rcases decode_cases x w with ⟨r, hr, _, hfits, _⟩ | ⟨_, unmatched⟩
  · exact absurd (OpRow.fieldOpcode_of_fits hr hfits) h
  · rw [unmatched, decodeUnmatched, if_neg not_rv64Only, if_neg not_reserved]

/-! ### Words as bytes (R42) -/

section
variable (b0 b1 b2 b3 : Byte)

theorem byte0_wordOfBytes : (wordOfBytes b0 b1 b2 b3).extractLsb' 0 8 = b0 :=
  BitVec.extractLsb'_append_eq_right

theorem byte1_wordOfBytes : (wordOfBytes b0 b1 b2 b3).extractLsb' 8 8 = b1 := by
  rw [wordOfBytes, BitVec.extractLsb'_append_eq_of_le (by decide)]
  exact BitVec.extractLsb'_append_eq_right

theorem byte2_wordOfBytes : (wordOfBytes b0 b1 b2 b3).extractLsb' 16 8 = b2 := by
  rw [wordOfBytes, BitVec.extractLsb'_append_eq_of_le (by decide), BitVec.extractLsb'_append_eq_of_le (by decide)]
  exact BitVec.extractLsb'_append_eq_right

theorem byte3_wordOfBytes : (wordOfBytes b0 b1 b2 b3).extractLsb' 24 8 = b3 := by
  rw [wordOfBytes, BitVec.extractLsb'_append_eq_of_le (by decide), BitVec.extractLsb'_append_eq_of_le (by decide),
    BitVec.extractLsb'_append_eq_of_le (by decide)]
  exact BitVec.extractLsb'_eq_self

end

/-- The bytes of a word are determined by it, the lowest address in bits 7:0. -/
theorem eq_wordOfBytes_iff (w : InstrWord) (b0 b1 b2 b3 : Byte) :
    w = wordOfBytes b0 b1 b2 b3 ↔
      b0 = w.extractLsb' 0 8 ∧ b1 = w.extractLsb' 8 8 ∧ b2 = w.extractLsb' 16 8 ∧ b3 = w.extractLsb' 24 8 := by
  constructor
  · rintro rfl
    exact ⟨(byte0_wordOfBytes b0 b1 b2 b3).symm, (byte1_wordOfBytes b0 b1 b2 b3).symm,
      (byte2_wordOfBytes b0 b1 b2 b3).symm, (byte3_wordOfBytes b0 b1 b2 b3).symm⟩
  · rintro ⟨rfl, rfl, rfl, rfl⟩
    exact (Machine.wordOfBytes_bytesOfWord w).symm

end Sys2Proof

namespace Sys2Proof.Machine

/-! ### Fetching (R41, R44) -/

/-- A fetch answers a word exactly when the word's bytes stand at an aligned address, lowest byte first. -/
theorem Memory.fetchWord_eq_some_iff_bytes {m : Memory} {a : Nat} {w : InstrWord} :
    m.fetchWord a = some w ↔ a % 4 = 0 ∧ m.read a = some (w.extractLsb' 0 8) ∧
      m.read (a + 1) = some (w.extractLsb' 8 8) ∧ m.read (a + 2) = some (w.extractLsb' 16 8) ∧
      m.read (a + 3) = some (w.extractLsb' 24 8) := by
  rw [Memory.fetchWord_eq_some]
  refine and_congr_right fun _ => ⟨?_, ?_⟩
  · rintro ⟨b0, b1, b2, b3, h0, h1, h2, h3, hw⟩
    obtain ⟨rfl, rfl, rfl, rfl⟩ := (eq_wordOfBytes_iff w b0 b1 b2 b3).mp hw
    exact ⟨h0, h1, h2, h3⟩
  · rintro ⟨h0, h1, h2, h3⟩
    exact ⟨_, _, _, _, h0, h1, h2, h3, (wordOfBytes_bytesOfWord w).symm⟩

theorem Memory.fetchWord_writeWord_same (m : Memory) {a : Nat} (ha : a % 4 = 0) (w : InstrWord) :
    (m.writeWord a w).fetchWord a = some w := by
  rw [Memory.fetchWord, if_pos ha, Memory.readWord_writeWord_same]

/-! ### Writing (note 7) -/

theorem Memory.read_writeBytes_other (bs : List Byte) (m : Memory) (a b : Nat) (h : b < a ∨ a + bs.length ≤ b) :
    (m.writeBytes a bs).read b = m.read b := by
  induction bs generalizing m a with
  | nil => rfl
  | cons v vs ih =>
    rw [List.length_cons] at h
    have outside_tail : b < a + 1 ∨ a + 1 + vs.length ≤ b := by omega
    have not_head : b ≠ a := by omega
    rw [Memory.writeBytes, ih _ _ outside_tail, Memory.read_write_other _ _ _ _ not_head]

/-- A write of a word changes its four bytes only. -/
theorem Memory.read_writeWord_other (m : Memory) (a b : Nat) (w : InstrWord) (h : b < a ∨ a + 4 ≤ b) :
    (m.writeWord a w).read b = m.read b :=
  Memory.read_writeBytes_other (bytesOfWord w) m a b h

theorem State.fetch_placeWord (s : State) (bits : InstrWord) (h : s.pc.toNat % 4 = 0) :
    (s.placeWord bits).fetch = some bits :=
  Memory.fetchWord_writeWord_same s.imem h bits

@[simp] theorem State.placeWord_pc_toNat (s : State) (bits : InstrWord) :
    (s.placeWord bits).pc.toNat = s.pc.toNat := rfl

@[simp] theorem State.placeWord_bit (s : State) (bits : InstrWord) (r : RegNum) (k : Nat) :
    (s.placeWord bits).bit r k = s.bit r k := rfl

theorem State.placeWord_haltPc (s : State) (bits : InstrWord) :
    (s.placeWord bits).haltPc = if s.haltPc = s.pc then s.nextPc else s.haltPc := rfl

/-- The address space has more than four addresses, so pc + 4 is another address, at its top too. -/
theorem State.pc_ne_nextPc (s : State) : s.pc ≠ s.nextPc := by
  have four_ne_zero : (4 : BitVec s.xlen.bits) ≠ 0 := by cases s.xlen <;> decide
  simpa [State.nextPc] using four_ne_zero

theorem State.placeWord_haltPc_ne_pc (s : State) (bits : InstrWord) :
    (s.placeWord bits).pc ≠ (s.placeWord bits).haltPc := by
  rw [State.placeWord_pc, State.placeWord_haltPc]
  split
  case isTrue => exact s.pc_ne_nextPc
  case isFalse h => exact Ne.symm h

theorem State.placeWord_haltPc_of_ne (s : State) (bits : InstrWord) (h : s.pc ≠ s.haltPc) :
    (s.placeWord bits).haltPc = s.haltPc := by
  rw [State.placeWord_haltPc, if_neg h.symm]

end Sys2Proof.Machine

namespace Sys2Proof

open Sys2Proof.Machine

/-- Settles O38: LOAD, STORE, MISC-MEM and SYSTEM are none of the major opcodes that a word with a meaning can have. -/
theorem memoryAndSystemWordsAreRefused : Obligations.MemoryAndSystemWordsAreRefused := by
  intro x w hopcode
  have opcode_not_mem : fieldOpcode w ∉ majorOpcodes := by
    rw [fieldOpcode]
    rcases hopcode with load | store | miscMem | system
    · rw [load]; decide
    · rw [store]; decide
    · rw [miscMem]; decide
    · rw [system]; decide
  exact decode_of_opcode_not_mem x opcode_not_mem

/-- Settles O40: the fetch is IMEM's word at pc, whose bytes are determined by the word. -/
theorem fetchIsLittleEndian : Obligations.FetchIsLittleEndian :=
  fun _ _ => Memory.fetchWord_eq_some_iff_bytes

/-- Settles O54: placing a word writes its four bytes at pc and moves HALT_PC off pc, and nothing else. -/
theorem placedWordIsFetchedNext : Obligations.PlacedWordIsFetchedNext := by
  intro s nbits w aligned
  unfold State.withFetchWord
  generalize BitVec.ofNat 32 (w % 2 ^ nbits) = bits
  have haltPc_kept (h : s.pc ≠ s.haltPc) : (s.placeWord bits).haltPc.toNat = s.haltPc.toNat :=
    congrArg BitVec.toNat (s.placeWord_haltPc_of_ne bits h)
  have pc_ne_haltPc : (s.placeWord bits).pc.toNat ≠ (s.placeWord bits).haltPc.toNat :=
    fun e => s.placeWord_haltPc_ne_pc bits (BitVec.eq_of_toNat_eq e)
  exact ⟨s.fetch_placeWord bits aligned, s.placeWord_pc_toNat bits, pc_ne_haltPc, haltPc_kept,
    s.placeWord_xlen bits, s.placeWord_bit bits,
    fun b => Memory.read_writeWord_other s.imem s.pc.toNat b bits⟩

end Sys2Proof
end

-- ==== Proofs: the encoding (spec/30_encoding.md) ====
section
/-! The opcode table, decoder and encoder (R61 to R81), the named immediates of R86 and the destination x0 (R82). -/

namespace Sys2Proof

/-! ### The rows of the opcode table exclude one another (R76, R77) -/

/-- Two mask and match pairs ask for different values of a bit that both masks cover. -/
abbrev Clash (mask pattern mask' pattern' : InstrWord) : Prop := pattern &&& mask' ≠ pattern' &&& mask

theorem Clash.not_both {mask pattern mask' pattern' w : InstrWord} (h : Clash mask pattern mask' pattern')
    (hw : w &&& mask = pattern) (hw' : w &&& mask' = pattern') : False := by
  subst hw hw'
  exact h (by rw [BitVec.and_assoc, BitVec.and_assoc, BitVec.and_comm mask])

theorem OpRow.fits_iff {r : OpRow} {w : InstrWord} : r.fits w = true ↔ w &&& r.mask = r.pattern := beq_iff_eq

/-- R77, over the whole table: two rows of one XLEN differ in a bit that both fix. -/
theorem opRows_pairwise_clash :
    opRows.Pairwise fun a b => (a.rv32 = true ∧ b.rv32 = true) ∨ (a.rv64 = true ∧ b.rv64 = true) →
      Clash a.mask a.pattern b.mask b.pattern := by decide

/-- An earlier and a later row of one XLEN do not fit one word. -/
theorem opRows_fits_lt {x : Width} {w : InstrWord} {a b : Fin opRows.length} (hab : a < b)
    (hxa : (opRows.get a).has x = true) (hxb : (opRows.get b).has x = true)
    (ha : (opRows.get a).fits w = true) (hb : (opRows.get b).fits w = true) : False := by
  have shared : ((opRows.get a).rv32 = true ∧ (opRows.get b).rv32 = true) ∨
      ((opRows.get a).rv64 = true ∧ (opRows.get b).rv64 = true) := by
    cases x with
    | w32 => exact .inl ⟨hxa, hxb⟩
    | w64 => exact .inr ⟨hxa, hxb⟩
  exact (List.pairwise_iff_get.mp opRows_pairwise_clash a b hab shared).not_both
    (OpRow.fits_iff.mp ha) (OpRow.fits_iff.mp hb)

/-- The place of the row that fits a word is determined by the word. -/
theorem opRows_place_unique {x : Width} {w : InstrWord} {a b : Fin opRows.length}
    (hxa : (opRows.get a).has x = true) (hxb : (opRows.get b).has x = true)
    (ha : (opRows.get a).fits w = true) (hb : (opRows.get b).fits w = true) : a = b := by
  rcases lt_trichotomy a b with hlt | heq | hgt
  · exact (opRows_fits_lt hlt hxa hxb ha hb).elim
  · exact heq
  · exact (opRows_fits_lt hgt hxb hxa hb ha).elim

/-- A word that fits a row of the XLEN decodes to that row's instruction, wherever in the table the row stands. -/
theorem decode_of_fits {x : Width} {w : InstrWord} {r : OpRow} (hr : r ∈ opRows) (hx : r.has x = true)
    (hfits : r.fits w = true) : decode x w = .instr (r.build w) := by
  rcases decode_cases x w with ⟨r', hr', hx', hfits', hdecode⟩ | ⟨none_fits, _⟩
  · obtain ⟨a, rfl⟩ := List.get_of_mem hr
    obtain ⟨b, rfl⟩ := List.get_of_mem hr'
    rw [hdecode, opRows_place_unique hx hx' hfits hfits']
  · rw [none_fits r hr hx] at hfits
    exact absurd hfits Bool.false_ne_true

/-! ### A word is put together again from its fields (R62 to R64) -/

theorem wordR_fields (w : InstrWord) :
    wordR (fieldTop7 w) (fieldFunct3 w) (fieldOpcode w) (fieldRd w) (fieldRs1 w) (fieldRs2 w) = w := by
  apply BitVec.eq_of_getLsbD_eq
  intro i hi
  simp only [wordR, fieldTop7, fieldFunct3, fieldOpcode, fieldRd, fieldRs1, fieldRs2, BitVec.getLsbD_append,
    BitVec.getLsbD_extractLsb']
  interval_cases i <;> simp

theorem wordIS6_fields (w : InstrWord) :
    wordIS6 ((fieldTop7 w).extractLsb' 1 6) (fieldFunct3 w) (fieldOpcode w) (fieldRd w) (fieldRs1 w) (fieldShamt6 w)
      = w := by
  apply BitVec.eq_of_getLsbD_eq
  intro i hi
  simp only [wordIS6, fieldTop7, fieldFunct3, fieldOpcode, fieldRd, fieldRs1, fieldShamt6, BitVec.getLsbD_append,
    BitVec.getLsbD_extractLsb']
  interval_cases i <;> simp

/-- Format IS5 is format R with the amount in place of rs2 (R63). -/
theorem wordIS5_fields (w : InstrWord) :
    wordIS5 (fieldTop7 w) (fieldFunct3 w) (fieldOpcode w) (fieldRd w) (fieldRs1 w) (fieldShamt5 w) = w :=
  wordR_fields w

theorem wordI_fields (w : InstrWord) :
    wordI (fieldFunct3 w) (fieldOpcode w) (fieldRd w) (fieldRs1 w) (fieldImm12 w) = w := by
  apply BitVec.eq_of_getLsbD_eq
  intro i hi
  simp only [wordI, fieldFunct3, fieldOpcode, fieldRd, fieldRs1, fieldImm12, BitVec.getLsbD_append,
    BitVec.getLsbD_extractLsb']
  interval_cases i <;> simp

theorem wordU_fields (w : InstrWord) : wordU (fieldOpcode w) (fieldRd w) (fieldImm20 w) = w := by
  apply BitVec.eq_of_getLsbD_eq
  intro i hi
  simp only [wordU, fieldOpcode, fieldRd, fieldImm20, BitVec.getLsbD_append, BitVec.getLsbD_extractLsb']
  interval_cases i <;> simp

/-! ### The amounts of R80: RV32 has one bit fewer -/

/-- The top bit is set exactly in the numbers from 2^n upward. -/
theorem getLsbD_last {n : Nat} (v : BitVec (n + 1)) : v.getLsbD n = decide (2 ^ n ≤ v.toNat) := by
  simpa [BitVec.msb_eq_getLsbD_last] using BitVec.msb_eq_decide v

/-- An amount that the narrower field holds survives being cut to it. -/
theorem setWidth_setWidth_of_lt {n m : Nat} {v : BitVec n} (h : v.toNat < 2 ^ m) : (v.setWidth m).setWidth n = v := by
  apply BitVec.eq_of_toNat_eq
  rw [BitVec.toNat_setWidth, BitVec.toNat_setWidth, Nat.mod_eq_of_lt h, Nat.mod_eq_of_lt v.isLt]

theorem extractLsb'_five_of_lt {sh : BitVec 6} (h : sh.toNat < 32) : sh.extractLsb' 5 1 = 0#1 := by
  apply BitVec.eq_of_toNat_eq
  rw [BitVec.extractLsb'_toNat, Nat.shiftRight_eq_div_pow, Nat.div_eq_of_lt h]
  rfl

theorem fieldShamt5_setWidth {w : InstrWord} (h : w.getLsbD 25 = false) :
    (fieldShamt5 w).setWidth 6 = fieldShamt6 w := by
  have bit_clear : w[25] = false := h
  apply BitVec.eq_of_getLsbD_eq
  intro i hi
  simp only [fieldShamt5, fieldShamt6, BitVec.getLsbD_setWidth, BitVec.getLsbD_extractLsb']
  interval_cases i <;> simp [bit_clear]

theorem fieldShamt4_setWidth {w : InstrWord} (h : w.getLsbD 24 = false) :
    (fieldShamt4 w).setWidth 5 = fieldShamt5 w := by
  have bit_clear : w[24] = false := h
  apply BitVec.eq_of_getLsbD_eq
  intro i hi
  simp only [fieldShamt4, fieldShamt5, BitVec.getLsbD_setWidth, BitVec.getLsbD_extractLsb']
  interval_cases i <;> simp [bit_clear]

theorem getLsbD_25_eq (w : InstrWord) : w.getLsbD 25 = (fieldTop7 w).getLsbD 0 := by
  simp [fieldTop7]

theorem getLsbD_24_eq (w : InstrWord) : w.getLsbD 24 = (fieldShamt5 w).getLsbD 4 := by
  simp [fieldShamt5]

/-! ### The word of what a row builds (R77, R78) -/

/-- A match has no bit outside its mask, if any word matches. -/
theorem pattern_and_mask {w mask p : InstrWord} (h : w &&& mask = p) : p &&& mask = p := by
  rw [← h, BitVec.and_assoc, BitVec.and_self]

/-- A row is exact: a word that fits it is the word of the instruction it builds, and RV32 has this instruction if
the row is one of RV32's. -/
def OpRow.Exact (r : OpRow) : Prop :=
  ∀ w, r.fits w = true → encode (r.build w) = w ∧ (r.rv32 = true → (r.build w).wf .w32 = true)

/-- Of an instruction that both XLENs have, only the amount can be out of range (R66, R80). -/
theorem Instr.wf_eq_amountFits {i : Instr} (x : Width) (hi : i.rv64Only = false) : i.wf x = i.amountFits x := by
  simp [Instr.wf, hi]

/-- RV64 has every instruction, with every amount (R2, R66). -/
theorem Instr.wf_w64 (i : Instr) : i.wf .w64 = true := by
  cases i with
  | rori _ _ shamt | grevi _ _ shamt | gorci _ _ shamt | slli _ _ shamt => exact decide_eq_true shamt.isLt
  | shfli _ _ shamt | unshfli _ _ shamt => exact decide_eq_true shamt.isLt
  | _ => rfl

section
variable {rv32 : Bool} {p : InstrWord}

theorem rowR_exact {c : RegNum → RegNum → RegNum → Instr}
    (hencode : ∀ rd rs1 rs2, encode (c rd rs1 rs2) =
      wordR (fieldTop7 p) (fieldFunct3 p) (fieldOpcode p) rd rs1 rs2 := by intros; rfl)
    (hwf : ∀ rd rs1 rs2, (c rd rs1 rs2).wf .w32 = rv32 := by intros; rfl) : (rowR rv32 p c).Exact := by
  intro w hfits
  have masked : w &&& 0xFE00707F#32 = p := OpRow.fits_iff.mp hfits
  obtain ⟨htop, hfunct3, hopcode⟩ := (maskR_eq_iff w p (pattern_and_mask masked)).mp masked
  refine ⟨?_, (hwf _ _ _).trans⟩
  change encode (c _ _ _) = w
  rw [hencode, ← htop, ← hfunct3, ← hopcode, wordR_fields]

theorem rowIS6_exact {c : RegNum → RegNum → BitVec 6 → Instr}
    (hencode : ∀ rd rs1 sh, encode (c rd rs1 sh) =
      wordIS6 ((fieldTop7 p).extractLsb' 1 6) (fieldFunct3 p) (fieldOpcode p) rd rs1 sh := by intros; rfl) :
    (rowIS6 p c).Exact := by
  intro w hfits
  have masked : w &&& 0xFC00707F#32 = p := OpRow.fits_iff.mp hfits
  obtain ⟨htop, hfunct3, hopcode⟩ := (maskIS6_eq_iff w p (pattern_and_mask masked)).mp masked
  refine ⟨?_, fun h => nomatch h⟩
  change encode (c _ _ _) = w
  rw [hencode, ← htop, ← hfunct3, ← hopcode, wordIS6_fields]

theorem rowIS5of6_exact {c : RegNum → RegNum → BitVec 6 → Instr}
    (hencode : ∀ rd rs1 sh, encode (c rd rs1 sh) =
      wordIS6 ((fieldTop7 p).extractLsb' 1 6) (fieldFunct3 p) (fieldOpcode p) rd rs1 sh := by intros; rfl)
    (hwf : ∀ rd rs1 sh, (c rd rs1 sh).wf .w32 = decide (sh.toNat < 32) := by intros; rfl)
    (hbit : p.getLsbD 25 = false := by rfl) : (rowIS5of6 p c).Exact := by
  intro w hfits
  have masked : w &&& 0xFE00707F#32 = p := OpRow.fits_iff.mp hfits
  obtain ⟨htop, hfunct3, hopcode⟩ := (maskR_eq_iff w p (pattern_and_mask masked)).mp masked
  have hbit_w : w.getLsbD 25 = false := by rw [getLsbD_25_eq, htop, ← getLsbD_25_eq, hbit]
  refine ⟨?_, fun _ => ?_⟩
  · change encode (c _ _ ((fieldShamt5 w).setWidth 6)) = w
    rw [hencode, fieldShamt5_setWidth hbit_w, ← htop, ← hfunct3, ← hopcode, wordIS6_fields]
  · refine (hwf _ _ _).trans (decide_eq_true ?_)
    rw [BitVec.toNat_setWidth_of_le (by decide)]
    exact (fieldShamt5 w).isLt

theorem rowIS5_exact {c : RegNum → RegNum → BitVec 5 → Instr}
    (hencode : ∀ rd rs1 sh, encode (c rd rs1 sh) =
      wordIS5 (fieldTop7 p) (fieldFunct3 p) (fieldOpcode p) rd rs1 sh := by intros; rfl) : (rowIS5 p c).Exact := by
  intro w hfits
  have masked : w &&& 0xFE00707F#32 = p := OpRow.fits_iff.mp hfits
  obtain ⟨htop, hfunct3, hopcode⟩ := (maskR_eq_iff w p (pattern_and_mask masked)).mp masked
  refine ⟨?_, fun h => nomatch h⟩
  change encode (c _ _ _) = w
  rw [hencode, ← htop, ← hfunct3, ← hopcode, wordIS5_fields]

theorem rowIS4of5_exact {c : RegNum → RegNum → BitVec 5 → Instr}
    (hencode : ∀ rd rs1 sh, encode (c rd rs1 sh) =
      wordIS5 (fieldTop7 p) (fieldFunct3 p) (fieldOpcode p) rd rs1 sh := by intros; rfl)
    (hwf : ∀ rd rs1 sh, (c rd rs1 sh).wf .w32 = decide (sh.toNat < 16) := by intros; rfl)
    (hbit : p.getLsbD 24 = false := by rfl) : (rowIS4of5 p c).Exact := by
  intro w hfits
  have masked : w &&& 0xFF00707F#32 = p := OpRow.fits_iff.mp hfits
  obtain ⟨htop, hbit_w, hfunct3, hopcode⟩ := (maskIS4_eq_iff w p (pattern_and_mask masked)).mp masked
  refine ⟨?_, fun _ => ?_⟩
  · change encode (c _ _ ((fieldShamt4 w).setWidth 5)) = w
    rw [hencode, fieldShamt4_setWidth (hbit_w.trans hbit), ← htop, ← hfunct3, ← hopcode, wordIS5_fields]
  · refine (hwf _ _ _).trans (decide_eq_true ?_)
    rw [BitVec.toNat_setWidth_of_le (by decide)]
    exact (fieldShamt4 w).isLt

theorem rowI_exact {c : RegNum → RegNum → BitVec 12 → Instr}
    (hencode : ∀ rd rs1 imm, encode (c rd rs1 imm) =
      wordI (fieldFunct3 p) (fieldOpcode p) rd rs1 imm := by intros; rfl)
    (hwf : ∀ rd rs1 imm, (c rd rs1 imm).wf .w32 = true := by intros; rfl) : (rowI p c).Exact := by
  intro w hfits
  have masked : w &&& 0x0000707F#32 = p := OpRow.fits_iff.mp hfits
  obtain ⟨hfunct3, hopcode⟩ := (maskI_eq_iff w p (pattern_and_mask masked)).mp masked
  refine ⟨?_, fun _ => hwf _ _ _⟩
  change encode (c _ _ _) = w
  rw [hencode, ← hfunct3, ← hopcode, wordI_fields]

theorem rowU_exact {c : RegNum → BitVec 20 → Instr}
    (hencode : ∀ rd imm, encode (c rd imm) = wordU (fieldOpcode p) rd imm := by intros; rfl)
    (hwf : ∀ rd imm, (c rd imm).wf .w32 = true := by intros; rfl) : (rowU p c).Exact := by
  intro w hfits
  have masked : w &&& 0x0000007F#32 = p := OpRow.fits_iff.mp hfits
  have hopcode := (maskU_eq_iff w p (pattern_and_mask masked)).mp masked
  refine ⟨?_, fun _ => hwf _ _⟩
  change encode (c _ _) = w
  rw [hencode, ← hopcode, wordU_fields]

end

theorem rowsRotate_exact : ∀ r ∈ rowsRotate, r.Exact := by
  simp only [rowsRotate, List.forall_mem_cons]
  exact ⟨rowR_exact, rowR_exact, rowIS5of6_exact, rowIS6_exact, rowR_exact, rowR_exact, rowIS5_exact,
    List.forall_mem_nil _⟩

theorem rowsGrev_exact : ∀ r ∈ rowsGrev, r.Exact := by
  simp only [rowsGrev, List.forall_mem_cons]
  exact ⟨rowR_exact, rowIS5of6_exact, rowIS6_exact, rowR_exact, rowIS5_exact, List.forall_mem_nil _⟩

theorem rowsGorc_exact : ∀ r ∈ rowsGorc, r.Exact := by
  simp only [rowsGorc, List.forall_mem_cons]
  exact ⟨rowR_exact, rowIS5of6_exact, rowIS6_exact, rowR_exact, rowIS5_exact, List.forall_mem_nil _⟩

theorem rowsShfl_exact : ∀ r ∈ rowsShfl, r.Exact := by
  simp only [rowsShfl, List.forall_mem_cons]
  exact ⟨rowR_exact, rowR_exact, rowIS4of5_exact, rowIS5_exact, rowIS4of5_exact, rowIS5_exact, rowR_exact,
    rowR_exact, List.forall_mem_nil _⟩

theorem rowsClmul_exact : ∀ r ∈ rowsClmul, r.Exact := by
  simp only [rowsClmul, List.forall_mem_cons]
  exact ⟨rowR_exact, rowR_exact, rowR_exact, rowR_exact, rowR_exact, rowR_exact, List.forall_mem_nil _⟩

theorem rowsLogicPackXperm_exact : ∀ r ∈ rowsLogicPackXperm, r.Exact := by
  simp only [rowsLogicPackXperm, List.forall_mem_cons]
  exact ⟨rowR_exact, rowR_exact, rowR_exact, rowR_exact, rowR_exact, rowR_exact, rowR_exact, rowR_exact, rowR_exact,
    rowR_exact, List.forall_mem_nil _⟩

theorem rowsCompanion_exact : ∀ r ∈ rowsCompanion, r.Exact := by
  simp only [rowsCompanion, List.forall_mem_cons]
  exact ⟨rowU_exact, rowI_exact, rowIS5of6_exact, rowIS6_exact, rowR_exact, rowR_exact, rowI_exact,
    List.forall_mem_nil _⟩

theorem opRows_exact : ∀ r ∈ opRows, r.Exact := by
  simp only [opRows, List.forall_mem_append]
  exact ⟨⟨⟨⟨⟨⟨rowsRotate_exact, rowsGrev_exact⟩, rowsGorc_exact⟩, rowsShfl_exact⟩, rowsClmul_exact⟩,
    rowsLogicPackXperm_exact⟩, rowsCompanion_exact⟩

/-- What decodes came from a row, and every row is exact: no bit of the word is dropped. -/
theorem encode_of_decode {x : Width} {w : InstrWord} {i : Instr} (h : decode x w = .instr i) :
    i.wf x = true ∧ encode i = w := by
  obtain ⟨r, hr, hx, hfits, rfl⟩ := decode_instr h
  obtain ⟨encode_build, wf_build⟩ := opRows_exact r hr w hfits
  refine ⟨?_, encode_build⟩
  cases x with
  | w32 => exact wf_build hx
  | w64 => exact Instr.wf_w64 _

/-! ### The row of an instruction's word -/

/-- The search of R78's step 1: the first row of the XLEN that a word fits. -/
def rowOf (x : Width) (w : InstrWord) : Option OpRow := opRows.find? fun r => r.has x && r.fits w

/-- A word decodes like `p` does, up to its operands, if it fits the row that `p` is found to fit. -/
theorem decode_of_rowOf {x : Width} {p w : InstrWord} {r : OpRow} (hrow : rowOf x p = some r)
    (hfits : r.fits p = true → r.fits w = true) : decode x w = .instr (r.build w) := by
  have hp := List.find?_some hrow
  rw [Bool.and_eq_true] at hp
  obtain ⟨hx, hfits_p⟩ := hp
  exact decode_of_fits (List.mem_of_find?_eq_some hrow) hx (hfits hfits_p)

section
variable {x : Width} {rv32 : Bool} {f7 : BitVec 7} {f6 : BitVec 6} {f3 : BitVec 3} {op : BitVec 7}

theorem decode_wordR {c : RegNum → RegNum → RegNum → Instr}
    (hrow : rowOf x (wordR f7 f3 op 0 0 0) = some (rowR rv32 (wordR f7 f3 op 0 0 0) c)) (rd rs1 rs2 : RegNum) :
    decode x (wordR f7 f3 op rd rs1 rs2) = .instr (c rd rs1 rs2) := by
  obtain ⟨_, _, _, htop₀, hfunct3₀, hopcode₀⟩ := fields_wordR f7 f3 op 0 0 0
  obtain ⟨hrd, hrs1, hrs2, htop, hfunct3, hopcode⟩ := fields_wordR f7 f3 op rd rs1 rs2
  rw [decode_of_rowOf hrow fun hp => ?fits]
  case fits =>
    rw [OpRow.fits_iff] at hp ⊢
    exact (maskR_eq_iff _ _ hp).mpr
      ⟨htop.trans htop₀.symm, hfunct3.trans hfunct3₀.symm, hopcode.trans hopcode₀.symm⟩
  simp only [rowR, hrd, hrs1, hrs2]

theorem decode_wordIS6 {c : RegNum → RegNum → BitVec 6 → Instr}
    (hrow : rowOf x (wordIS6 f6 f3 op 0 0 0) = some (rowIS6 (wordIS6 f6 f3 op 0 0 0) c)) (rd rs1 : RegNum)
    (sh : BitVec 6) : decode x (wordIS6 f6 f3 op rd rs1 sh) = .instr (c rd rs1 sh) := by
  obtain ⟨_, _, _, _, htop₀, hfunct3₀, hopcode₀⟩ := fields_wordIS6 f6 f3 op 0 0 0
  obtain ⟨hrd, hrs1, hsh, _, htop, hfunct3, hopcode⟩ := fields_wordIS6 f6 f3 op rd rs1 sh
  rw [decode_of_rowOf hrow fun hp => ?fits]
  case fits =>
    rw [OpRow.fits_iff] at hp ⊢
    refine (maskIS6_eq_iff _ _ hp).mpr ⟨?_, hfunct3.trans hfunct3₀.symm, hopcode.trans hopcode₀.symm⟩
    rw [htop, htop₀, BitVec.extractLsb'_append_eq_left, BitVec.extractLsb'_append_eq_left]
  simp only [rowIS6, hrd, hrs1, hsh]

/-- On RV32 the amount's bit 5 is a zero of the row's pattern (R63, R80). -/
theorem decode_wordIS6_narrow {c : RegNum → RegNum → BitVec 6 → Instr}
    (hrow : rowOf x (wordIS6 f6 f3 op 0 0 0) = some (rowIS5of6 (wordIS6 f6 f3 op 0 0 0) c)) (rd rs1 : RegNum)
    {sh : BitVec 6} (hlt : sh.toNat < 32) : decode x (wordIS6 f6 f3 op rd rs1 sh) = .instr (c rd rs1 sh) := by
  obtain ⟨_, _, _, _, htop₀, hfunct3₀, hopcode₀⟩ := fields_wordIS6 f6 f3 op 0 0 0
  obtain ⟨hrd, hrs1, _, hsh, htop, hfunct3, hopcode⟩ := fields_wordIS6 f6 f3 op rd rs1 sh
  have low_bits : (sh.setWidth 5).setWidth 6 = sh := setWidth_setWidth_of_lt hlt
  rw [decode_of_rowOf hrow fun hp => ?fits]
  case fits =>
    rw [OpRow.fits_iff] at hp ⊢
    refine (maskR_eq_iff _ _ hp).mpr ⟨?_, hfunct3.trans hfunct3₀.symm, hopcode.trans hopcode₀.symm⟩
    rw [htop, htop₀, extractLsb'_five_of_lt hlt, extractLsb'_five_of_lt (by decide)]
  simp only [rowIS5of6, hrd, hrs1, hsh, low_bits]

theorem decode_wordIS5 {c : RegNum → RegNum → BitVec 5 → Instr}
    (hrow : rowOf x (wordIS5 f7 f3 op 0 0 0) = some (rowIS5 (wordIS5 f7 f3 op 0 0 0) c)) (rd rs1 : RegNum)
    (sh : BitVec 5) : decode x (wordIS5 f7 f3 op rd rs1 sh) = .instr (c rd rs1 sh) :=
  decode_wordR (rv32 := false) hrow rd rs1 sh

/-- On RV32 the amount's bit 4 is a zero of the row's pattern (R63, R80). -/
theorem decode_wordIS5_narrow {c : RegNum → RegNum → BitVec 5 → Instr}
    (hrow : rowOf x (wordIS5 f7 f3 op 0 0 0) = some (rowIS4of5 (wordIS5 f7 f3 op 0 0 0) c)) (rd rs1 : RegNum)
    {sh : BitVec 5} (hlt : sh.toNat < 16) : decode x (wordIS5 f7 f3 op rd rs1 sh) = .instr (c rd rs1 sh) := by
  obtain ⟨_, _, hsh₀, _, htop₀, hfunct3₀, hopcode₀⟩ := fields_wordIS5 f7 f3 op 0 0 0
  obtain ⟨hrd, hrs1, hsh5, hsh, htop, hfunct3, hopcode⟩ := fields_wordIS5 f7 f3 op rd rs1 sh
  have top_bit : sh.getLsbD 4 = (0 : BitVec 5).getLsbD 4 := by
    rw [getLsbD_last]
    simpa using hlt
  have low_bits : (sh.setWidth 4).setWidth 5 = sh := setWidth_setWidth_of_lt hlt
  rw [decode_of_rowOf hrow fun hp => ?fits]
  case fits =>
    rw [OpRow.fits_iff] at hp ⊢
    refine (maskIS4_eq_iff _ _ hp).mpr
      ⟨htop.trans htop₀.symm, ?_, hfunct3.trans hfunct3₀.symm, hopcode.trans hopcode₀.symm⟩
    rw [getLsbD_24_eq, getLsbD_24_eq, hsh5, hsh₀, top_bit]
  simp only [rowIS4of5, hrd, hrs1, hsh, low_bits]

theorem decode_wordI {c : RegNum → RegNum → BitVec 12 → Instr}
    (hrow : rowOf x (wordI f3 op 0 0 0) = some (rowI (wordI f3 op 0 0 0) c)) (rd rs1 : RegNum) (imm : BitVec 12) :
    decode x (wordI f3 op rd rs1 imm) = .instr (c rd rs1 imm) := by
  obtain ⟨_, _, _, hfunct3₀, hopcode₀⟩ := fields_wordI f3 op 0 0 0
  obtain ⟨hrd, hrs1, himm, hfunct3, hopcode⟩ := fields_wordI f3 op rd rs1 imm
  rw [decode_of_rowOf hrow fun hp => ?fits]
  case fits =>
    rw [OpRow.fits_iff] at hp ⊢
    exact (maskI_eq_iff _ _ hp).mpr ⟨hfunct3.trans hfunct3₀.symm, hopcode.trans hopcode₀.symm⟩
  simp only [rowI, hrd, hrs1, himm]

theorem decode_wordU {c : RegNum → BitVec 20 → Instr}
    (hrow : rowOf x (wordU op 0 0) = some (rowU (wordU op 0 0) c)) (rd : RegNum) (imm : BitVec 20) :
    decode x (wordU op rd imm) = .instr (c rd imm) := by
  obtain ⟨_, _, hopcode₀⟩ := fields_wordU op 0 0
  obtain ⟨hrd, himm, hopcode⟩ := fields_wordU op rd imm
  rw [decode_of_rowOf hrow fun hp => ?fits]
  case fits =>
    rw [OpRow.fits_iff] at hp ⊢
    exact (maskU_eq_iff _ _ hp).mpr (hopcode.trans hopcode₀.symm)
  simp only [rowU, hrd, himm]

end

/-- The round trip: the rows that the patterns fit are found by running the search, once per instruction and XLEN; the
operands come back by the lemma of the row's format. -/
theorem decode_encode (x : Width) (i : Instr) (h : i.wf x = true) : decode x (encode i) = .instr i := by
  cases i with
  | ror | rol | grev | gorc | shfl | unshfl | clmul | clmulh | clmulr | andn | orn | xorn | pack | packu | packh
  | xpermN | xpermB | xor | or => cases x <;> exact decode_wordR rfl ..
  | rorw | rolw | grevw | gorcw | shflw | unshflw | clmulw | clmulhw | clmulrw | packw | packuw =>
    cases x with
    | w32 => exact absurd h Bool.false_ne_true
    | w64 => exact decode_wordR rfl ..
  | roriw | greviw | gorciw =>
    cases x with
    | w32 => exact absurd h Bool.false_ne_true
    | w64 => exact decode_wordIS5 rfl ..
  | rori | grevi | gorci | slli =>
    cases x with
    | w32 => exact decode_wordIS6_narrow rfl _ _ (of_decide_eq_true h)
    | w64 => exact decode_wordIS6 rfl ..
  | shfli | unshfli =>
    cases x with
    | w32 => exact decode_wordIS5_narrow rfl _ _ (of_decide_eq_true h)
    | w64 => exact decode_wordIS5 rfl ..
  | addi | jalr => cases x <;> exact decode_wordI rfl ..
  | lui => cases x <;> exact decode_wordU rfl ..

theorem decode_of_encode_eq {x : Width} {w : InstrWord} {i : Instr} (hwf : i.wf x = true) (hw : encode i = w) :
    decode x w = .instr i :=
  hw ▸ decode_encode x i hwf

/-! ### Illegal words (R79, R80) -/

/-- OP-32 and OP-IMM-32, the major opcodes of the RV64-only instructions (R65, R79). -/
def isWordOpcode (op : BitVec 7) : Bool := op == opOP32 || op == opOPIMM32

/-- The major opcode ends every word. -/
theorem isWordOpcode_append {n : Nat} (v : BitVec n) {op : BitVec 7} {b : Bool} (h : isWordOpcode op = b) :
    isWordOpcode ((v ++ op).extractLsb' 0 7) = b := by
  rw [BitVec.extractLsb'_append_eq_right, h]

theorem isWordOpcode_encode (i : Instr) : isWordOpcode (fieldOpcode (encode i)) = i.rv64Only := by
  cases i <;> exact isWordOpcode_append _ rfl

/-- No row of RV32 has one of these major opcodes. -/
theorem OpRow.not_isWordOpcode_of_rv32 {r : OpRow} (hr : r ∈ opRows) (hrv32 : r.rv32 = true) {w : InstrWord}
    (hfits : r.fits w = true) : isWordOpcode (fieldOpcode w) = false := by
  have table : ∀ r ∈ opRows, fieldOpcode r.mask = BitVec.allOnes 7 ∧
      (r.rv32 = true → isWordOpcode (fieldOpcode r.pattern) = false) := by decide
  obtain ⟨mask_covers, pattern_opcode⟩ := table r hr
  have same_opcode : fieldOpcode r.pattern = fieldOpcode w := by
    rw [← OpRow.fits_iff.mp hfits, fieldOpcode_and_mask w r.mask mask_covers]
  rw [← same_opcode]
  exact pattern_opcode hrv32

/-- R79 as the rule puts it: the XLEN, the major opcode, and a row that RV64 alone has. -/
theorem isRv64OnlyWord_iff_row {x : Width} {w : InstrWord} : isRv64OnlyWord x w = true ↔
    (x = .w32 ∧ isWordOpcode (fieldOpcode w) = true) ∧ ∃ r ∈ opRows, r.rv32 = false ∧ r.fits w = true := by
  simp [isRv64OnlyWord, isWordOpcode, opOP32, opOPIMM32]

/-- R79 names exactly the words of the RV64-only instructions, on RV32. -/
theorem isRv64OnlyWord_iff {x : Width} {w : InstrWord} :
    isRv64OnlyWord x w = true ↔ x = .w32 ∧ ∃ i : Instr, i.rv64Only = true ∧ encode i = w := by
  rw [isRv64OnlyWord_iff_row]
  constructor
  · rintro ⟨⟨hx, hopcode⟩, r, hr, _, hfits⟩
    obtain ⟨encode_build, _⟩ := opRows_exact r hr w hfits
    exact ⟨hx, r.build w, by rw [← isWordOpcode_encode, encode_build, hopcode], encode_build⟩
  · rintro ⟨hx, i, hi, rfl⟩
    rw [← isWordOpcode_encode] at hi
    obtain ⟨r, hr, _, hfits, _⟩ := decode_instr (decode_encode .w64 i i.wf_w64)
    refine ⟨⟨hx, hi⟩, r, hr, ?_, hfits⟩
    by_contra hrv32
    rw [r.not_isWordOpcode_of_rv32 hr (by simpa using hrv32) hfits] at hi
    exact Bool.false_ne_true hi

/-- R80 as a list: a key of the immediate forms beside an amount bit that the XLEN does not have. -/
def reservedBits : Width → List (InstrWord × Nat)
  | .w32 =>
    keysAmount6.map (·, 25) ++ keysShuffle.map (·, 25) ++ keysShuffle.map (·, 24) ++ keysWordAmount.map (·, 25)
  | .w64 => (keysShuffle ++ keysWordAmount).map (·, 25)

theorem isReservedAmount_iff {x : Width} {w : InstrWord} :
    isReservedAmount x w = true ↔ ∃ b, (immFormKey w, b) ∈ reservedBits x ∧ w.getLsbD b = true := by
  cases x with
  | w32 => simp [isReservedAmount, reservedBits, or_and_right, and_or_left, exists_or, and_assoc, or_assoc]
  | w64 => simp [isReservedAmount, reservedBits, or_and_right, exists_or, and_assoc]

/-- A row of the XLEN and a reserved key differ in a bit that both fix, once the reserved amount bit is set. -/
theorem opRows_clash_reserved :
    (∀ r ∈ opRows, r.rv32 = true → ∀ k ∈ reservedBits .w32,
      Clash r.mask r.pattern (0xFC00707F#32 ||| BitVec.twoPow 32 k.2) (k.1 ||| BitVec.twoPow 32 k.2)) ∧
    (∀ r ∈ opRows, r.rv64 = true → ∀ k ∈ reservedBits .w64,
      Clash r.mask r.pattern (0xFC00707F#32 ||| BitVec.twoPow 32 k.2) (k.1 ||| BitVec.twoPow 32 k.2)) := by
  decide

theorem not_fits_of_isReservedAmount {x : Width} {w : InstrWord} (h : isReservedAmount x w = true)
    {r : OpRow} (hr : r ∈ opRows) (hx : r.has x = true) : r.fits w = false := by
  obtain ⟨b, hkey, hbit⟩ := isReservedAmount_iff.mp h
  have key_and_bit : w &&& (0xFC00707F#32 ||| BitVec.twoPow 32 b) = immFormKey w ||| BitVec.twoPow 32 b := by
    rw [BitVec.and_or_distrib_left, BitVec.and_twoPow, if_pos hbit, immFormKey]
  obtain ⟨table32, table64⟩ := opRows_clash_reserved
  by_contra hfits
  rw [Bool.not_eq_false, OpRow.fits_iff] at hfits
  cases x with
  | w32 => exact (table32 r hr hx _ hkey).not_both hfits key_and_bit
  | w64 => exact (table64 r hr hx _ hkey).not_both hfits key_and_bit

theorem not_fits_of_isRv64OnlyWord {x : Width} {w : InstrWord} (h : isRv64OnlyWord x w = true)
    {r : OpRow} (hr : r ∈ opRows) (hx : r.has x = true) : r.fits w = false := by
  obtain ⟨rfl, i, hi, rfl⟩ := isRv64OnlyWord_iff.mp h
  by_contra hfits
  rw [← isWordOpcode_encode, r.not_isWordOpcode_of_rv32 hr hx (by simpa using hfits)] at hi
  exact Bool.false_ne_true hi

theorem decodeUnmatched_illegal_iff {x : Width} {w : InstrWord} :
    (∃ rule, decodeUnmatched x w = .illegal rule) ↔ isRv64OnlyWord x w = true ∨ isReservedAmount x w = true := by
  unfold decodeUnmatched
  split
  case isTrue h => simp [h]
  case isFalse h =>
    split
    case isTrue h' => simp [h']
    case isFalse h' => simp [h, h']

/-- The decoder calls illegal what the two rules name: no row takes such a word first. -/
theorem decode_illegal_iff {x : Width} {w : InstrWord} :
    (∃ rule, decode x w = .illegal rule) ↔ isRv64OnlyWord x w = true ∨ isReservedAmount x w = true := by
  rcases decode_cases x w with ⟨r, hr, hx, hfits, hdecode⟩ | ⟨_, hdecode⟩
  · rw [hdecode]
    constructor
    · rintro ⟨_, h⟩
      exact nomatch h
    · rintro (h | h)
      · rw [not_fits_of_isRv64OnlyWord h hr hx] at hfits
        exact absurd hfits Bool.false_ne_true
      · rw [not_fits_of_isReservedAmount h hr hx] at hfits
        exact absurd hfits Bool.false_ne_true
  · rw [hdecode, decodeUnmatched_illegal_iff]

/-! ### Amounts that an XLEN does not have -/

theorem immFormKey_wordIS6 (f6 : BitVec 6) (f3 : BitVec 3) (op : BitVec 7) (rd rs1 : RegNum) (sh : BitVec 6) :
    immFormKey (wordIS6 f6 f3 op rd rs1 sh) = wordIS6 f6 f3 op 0 0 0 := by
  apply BitVec.eq_of_getLsbD_eq
  intro i hi
  simp only [immFormKey, wordIS6, BitVec.getLsbD_and, BitVec.getLsbD_append]
  interval_cases i <;> simp

theorem immFormKey_wordIS5 (f6 : BitVec 6) (f3 : BitVec 3) (op : BitVec 7) (rd rs1 : RegNum) (sh : BitVec 5) :
    immFormKey (wordIS5 (f6 ++ 0#1) f3 op rd rs1 sh) = wordIS5 (f6 ++ 0#1) f3 op 0 0 0 := by
  apply BitVec.eq_of_getLsbD_eq
  intro i hi
  simp only [immFormKey, wordIS5, BitVec.getLsbD_and, BitVec.getLsbD_append]
  interval_cases i <;> simp

theorem getLsbD_25_wordIS6 (f6 : BitVec 6) (f3 : BitVec 3) (op : BitVec 7) (rd rs1 : RegNum) (sh : BitVec 6) :
    (wordIS6 f6 f3 op rd rs1 sh).getLsbD 25 = sh.getLsbD 5 := by
  simp only [wordIS6, BitVec.getLsbD_append]
  simp

theorem getLsbD_24_wordIS5 (f7 : BitVec 7) (f3 : BitVec 3) (op : BitVec 7) (rd rs1 : RegNum) (sh : BitVec 5) :
    (wordIS5 f7 f3 op rd rs1 sh).getLsbD 24 = sh.getLsbD 4 := by
  simp only [wordIS5, BitVec.getLsbD_append]
  simp

theorem isReservedAmount_wordIS6 {f6 : BitVec 6} {f3 : BitVec 3} {op : BitVec 7} {rd rs1 : RegNum} {sh : BitVec 6}
    (hkey : (wordIS6 f6 f3 op 0 0 0, 25) ∈ reservedBits .w32) (hsh : decide (sh.toNat < 32) = false) :
    isReservedAmount .w32 (wordIS6 f6 f3 op rd rs1 sh) = true := by
  rw [isReservedAmount_iff, immFormKey_wordIS6]
  refine ⟨25, hkey, ?_⟩
  rw [getLsbD_25_wordIS6, getLsbD_last]
  simpa using hsh

theorem isReservedAmount_wordIS5 {f6 : BitVec 6} {f3 : BitVec 3} {op : BitVec 7} {rd rs1 : RegNum} {sh : BitVec 5}
    (hkey : (wordIS5 (f6 ++ 0#1) f3 op 0 0 0, 24) ∈ reservedBits .w32) (hsh : decide (sh.toNat < 16) = false) :
    isReservedAmount .w32 (wordIS5 (f6 ++ 0#1) f3 op rd rs1 sh) = true := by
  rw [isReservedAmount_iff, immFormKey_wordIS5]
  refine ⟨24, hkey, ?_⟩
  rw [getLsbD_24_wordIS5, getLsbD_last]
  simpa using hsh

/-- An amount too wide for RV32 sets a bit of the word that R80 reserves there. -/
theorem isReservedAmount_encode {i : Instr} (h : i.amountFits .w32 = false) :
    isReservedAmount .w32 (encode i) = true := by
  cases i with
  | rori | grevi | gorci | slli => exact isReservedAmount_wordIS6 (by decide) h
  | shfli | unshfli => exact isReservedAmount_wordIS5 (f6 := 0b000010#6) (by decide) h
  | _ => exact absurd h.symm Bool.false_ne_true

/-- The word of an instruction that the XLEN lacks is illegal: RV32 lacks it, by R79 or by R80. -/
theorem decode_encode_of_not_wf {x : Width} {i : Instr} (h : i.wf x = false) :
    ∃ rule, decode x (encode i) = .illegal rule := by
  rw [decode_illegal_iff]
  cases x with
  | w64 =>
    rw [Instr.wf_w64] at h
    exact absurd h.symm Bool.false_ne_true
  | w32 =>
    cases hrv64 : i.rv64Only with
    | true => exact .inl (isRv64OnlyWord_iff.mpr ⟨rfl, i, hrv64, rfl⟩)
    | false =>
      rw [Instr.wf_eq_amountFits _ hrv64] at h
      exact .inr (isReservedAmount_encode h)

/-- R80's condition on `shfli` and `unshfli` words: bits 25:24 are not both zero. -/
theorem extractLsb'_24_2_ne_zero_iff (w : InstrWord) :
    w.extractLsb' 24 2 ≠ 0#2 ↔ w.getLsbD 25 = true ∨ w.getLsbD 24 = true := by
  have two_bits : w.extractLsb' 24 2 = BitVec.ofBool (w.getLsbD 25) ++ BitVec.ofBool (w.getLsbD 24) := by
    apply BitVec.eq_of_getLsbD_eq
    intro i hi
    simp only [BitVec.getLsbD_extractLsb', BitVec.getLsbD_append, BitVec.getLsbD_ofBool]
    interval_cases i <;> simp
  rw [two_bits]
  cases w.getLsbD 25 <;> cases w.getLsbD 24 <;> decide

/-- R80 on RV64, its keys written out. -/
theorem isReservedAmount_w64 (w : InstrWord) : isReservedAmount .w64 w = true ↔
    (immFormKey w = 0x08001013#32 ∨ immFormKey w = 0x08005013#32 ∨ immFormKey w = 0x6000501B#32 ∨
      immFormKey w = 0x6800501B#32 ∨ immFormKey w = 0x2800501B#32) ∧ w.getLsbD 25 = true := by
  simp only [isReservedAmount, keysShuffle, keysWordAmount, Bool.or_eq_true, Bool.and_eq_true, List.contains_iff_mem,
    List.mem_cons, List.not_mem_nil, or_false, ← or_and_right, or_assoc]

/-- R80 on RV32, its keys written out. -/
theorem isReservedAmount_w32 (w : InstrWord) : isReservedAmount .w32 w = true ↔
    ((immFormKey w = 0x60005013#32 ∨ immFormKey w = 0x68005013#32 ∨ immFormKey w = 0x28005013#32 ∨
      immFormKey w = 0x00001013#32) ∧ w.getLsbD 25 = true) ∨
    ((immFormKey w = 0x08001013#32 ∨ immFormKey w = 0x08005013#32) ∧ w.extractLsb' 24 2 ≠ 0#2) ∨
    ((immFormKey w = 0x6000501B#32 ∨ immFormKey w = 0x6800501B#32 ∨ immFormKey w = 0x2800501B#32) ∧
      w.getLsbD 25 = true) := by
  simp only [isReservedAmount, keysAmount6, keysShuffle, keysWordAmount, Bool.or_eq_true, Bool.and_eq_true,
    List.contains_iff_mem, List.mem_cons, List.not_mem_nil, or_false, or_assoc, extractLsb'_24_2_ne_zero_iff]

/-! ### Refused words (R61, R81) -/

/-- Every major opcode marks a 32-bit instruction (R61, R65). -/
theorem majorOpcodes_low_bits :
    ∀ op ∈ majorOpcodes, op.extractLsb' 0 2 = 0b11#2 ∧ op.extractLsb' 0 5 ≠ 0b11111#5 := by decide

theorem extractLsb'_fieldOpcode (w : InstrWord) {n : Nat} (hn : n ≤ 7) :
    (fieldOpcode w).extractLsb' 0 n = w.extractLsb' 0 n := by
  apply BitVec.eq_of_getLsbD_eq
  intro i hi
  have below : i < 7 := by omega
  simp [fieldOpcode, BitVec.getLsbD_extractLsb', below]

/-- Step 3 of R78: by the round trip, the decoder answers an instruction exactly for the instructions' words. -/
theorem decode_eq_outsideSpec_iff {x : Width} {w : InstrWord} : decode x w = .outsideSpec ↔
    (∀ i : Instr, i.wf x = true → encode i ≠ w) ∧ ∀ rule, decode x w ≠ .illegal rule := by
  cases hdecode : decode x w with
  | instr i =>
    obtain ⟨hwf, hw⟩ := encode_of_decode hdecode
    exact ⟨fun h => (nomatch h), fun ⟨no_instr, _⟩ => absurd hw (no_instr i hwf)⟩
  | illegal rule => exact ⟨fun h => (nomatch h), fun ⟨_, not_illegal⟩ => absurd rfl (not_illegal rule)⟩
  | outsideSpec =>
    refine ⟨fun _ => ⟨fun i hwf hw => ?_, fun _ h => (nomatch h)⟩, fun _ => rfl⟩
    rw [decode_of_encode_eq hwf hw] at hdecode
    exact nomatch hdecode

end Sys2Proof

namespace Sys2Proof.Machine

/-! ### The step on a fetched word (R180) -/

theorem step_of_fetch {s : State} {w : InstrWord} (hp : s.pc ≠ s.haltPc) (hf : s.fetch = some w) :
    step s = runDecoded w s (decode s.xlen w) := by
  simp [step, hp, hf]

theorem trapsAsIllegal_of_decode {s : State} {w : InstrWord} {rule : IllegalRule}
    (h : decode s.xlen w = .illegal rule) : TrapsAsIllegal s w := by
  refine ⟨⟨rule, h⟩, fun hp hf => ?_⟩
  rw [step_of_fetch hp hf, h, runDecoded, raiseIllegal_eq]

/-! ### The immediate permutations, bit by bit (R113, R118, R124, R125) -/

theorem CompletesWith.congr {i : Instr} {s : State} {rd : RegNum} {f g : Nat → Bool} (h : CompletesWith i s rd f)
    (hfg : ∀ k, k < s.xlen.bits → f k = g k) : CompletesWith i s rd g := by
  obtain ⟨t, hexec, hparams, hpc, hothers, hx0, hrd⟩ := h
  exact ⟨t, hexec, hparams, hpc, hothers, hx0, fun hne k hk => (hrd hne k hk).trans (hfg k hk)⟩

/-- The legality check of an instruction that both XLENs have is the range check of its amount (R66, R80). -/
theorem whenLegal_of_amountFits {i : Instr} {s : State} {r : Result} (hrv64 : i.rv64Only = false)
    (h : i.amountFits s.xlen = true) : whenLegal i s r = r :=
  whenLegal_of_wf ((Instr.wf_eq_amountFits s.xlen hrv64).trans h)

section
variable (s : State) (rd rs1 : RegNum)

theorem grevi_completesWith {u : BitVec 6} (hu : u.toNat < s.xlen.bits) :
    CompletesWith (.grevi rd rs1 u) s rd fun k => s.bit rs1 (k ^^^ u.toNat) :=
  completesWith_of_retire (whenLegal_of_amountFits rfl (decide_eq_true hu)) fun k hk =>
    getLsbD_grev s.xlen (s.get rs1) u.toNat k hu hk

theorem gorci_completesWith {u : BitVec 6} (hu : u.toNat < s.xlen.bits) :
    CompletesWith (.gorci rd rs1 u) s rd fun k => (gorc s.xlen (s.get rs1) u.toNat).getLsbD k :=
  completesWith_of_retire (whenLegal_of_amountFits rfl (decide_eq_true hu)) fun _ _ => rfl

theorem shfli_completesWith {u : BitVec 5} (hu : u.toNat < s.xlen.bits / 2) :
    CompletesWith (.shfli rd rs1 u) s rd fun k => s.bit rs1 (sendIndex u.toNat (List.range (s.xlen.log2 - 1)) k) :=
  completesWith_of_retire (whenLegal_of_amountFits rfl (decide_eq_true hu)) fun k hk =>
    getLsbD_shfl s.xlen (s.get rs1) u.toNat k hk

theorem unshfli_completesWith {u : BitVec 5} (hu : u.toNat < s.xlen.bits / 2) :
    CompletesWith (.unshfli rd rs1 u) s rd
      fun k => s.bit rs1 (sendIndex u.toNat (List.range (s.xlen.log2 - 1)).reverse k) :=
  completesWith_of_retire (whenLegal_of_amountFits rfl (decide_eq_true hu)) fun k hk =>
    getLsbD_unshfl s.xlen (s.get rs1) u.toNat k hk

/-- A reverse, by where its control sends the indices of a register. -/
theorem grevi_completesWith_of_index {u : BitVec 6} (hu : u.toNat < s.xlen.bits) {index : Nat → Nat}
    (hindex : ∀ k < s.xlen.bits, k ^^^ u.toNat = index k) :
    CompletesWith (.grevi rd rs1 u) s rd fun k => s.bit rs1 (index k) :=
  (grevi_completesWith s rd rs1 hu).congr fun k hk => congrArg (s.bit rs1) (hindex k hk)

/-- The control XLEN - b, by which R86 names most reverses. -/
theorem grevi_bits_sub_completesWith {b : Nat} (hb : 0 < b) {index : Nat → Nat}
    (hindex : ∀ k < s.xlen.bits, k ^^^ (s.xlen.bits - b) = index k) :
    CompletesWith (.grevi rd rs1 (BitVec.ofNat 6 (s.xlen.bits - b))) s rd fun k => s.bit rs1 (index k) := by
  have hle := s.xlen.bits_le
  have hpos : 0 < s.xlen.bits := by cases s.xlen <;> decide
  have control : (BitVec.ofNat 6 (s.xlen.bits - b)).toNat = s.xlen.bits - b := by
    rw [BitVec.toNat_ofNat, Nat.mod_eq_of_lt (by omega)]
  exact grevi_completesWith_of_index s rd rs1 (by omega) (by rwa [control])

end

/-! ### The controls of R86, as index permutations -/

/-- The control of `zip` and `unzip`. -/
theorem toNat_ofNat_half_sub_one (x : Width) : (BitVec.ofNat 5 (x.bits / 2 - 1)).toNat = x.bits / 2 - 1 := by
  cases x <;> rfl

theorem xor_rev8 (x : Width) : ∀ k < x.bits, k ^^^ (x.bits - 8) = 8 * (x.bits / 8 - 1 - k / 8) + k % 8 := by
  cases x <;> decide

theorem xor_revAll (x : Width) : ∀ k < x.bits, k ^^^ (x.bits - 1) = x.bits - 1 - k := by
  cases x <;> decide

theorem xor_rev16 (x : Width) : ∀ k < x.bits, k ^^^ (x.bits - 16) = 16 * (x.bits / 16 - 1 - k / 16) + k % 16 := by
  cases x <;> decide

theorem xor_rev4 (x : Width) : ∀ k < x.bits, k ^^^ (x.bits - 4) = 4 * (x.bits / 4 - 1 - k / 4) + k % 4 := by
  cases x <;> decide

theorem xor_rev32 : ∀ k < 64, k ^^^ 32 = 32 * (1 - k / 32) + k % 32 := by decide

theorem xor_revB : ∀ k < 64, k ^^^ 7 = 8 * (k / 8) + (7 - k % 8) := by decide

theorem sendIndex_zip (x : Width) : ∀ k < x.bits, sendIndex (x.bits / 2 - 1) (List.range (x.log2 - 1)) k =
    if k % 2 = 0 then k / 2 else x.bits / 2 + k / 2 := by
  cases x <;> decide

theorem sendIndex_unzip (x : Width) : ∀ k < x.bits, sendIndex (x.bits / 2 - 1) (List.range (x.log2 - 1)).reverse k =
    if k < x.bits / 2 then 2 * k else 2 * (k - x.bits / 2) + 1 := by
  cases x <;> decide

/-- Two indices differ in bits 2:0 only exactly when they lie in the same byte. -/
theorem xor_within_seven_iff (i j : Nat) :
    (∀ b, (i ^^^ j).testBit b = true → Nat.testBit 7 b = true) ↔ i / 8 = j / 8 := by
  have low_three (b : Nat) : Nat.testBit 7 b = decide (b < 3) := Nat.testBit_two_pow_sub_one 3 b
  have high (n b : Nat) : (n / 8).testBit b = n.testBit (b + 3) :=
    Nat.testBit_div_two_pow (n := 3) n b
  constructor
  · intro h
    apply Nat.eq_of_testBit_eq
    intro b
    have differ := h (b + 3)
    rw [low_three, Nat.testBit_xor] at differ
    rw [high, high]
    simpa using differ
  · intro h b differ
    rw [low_three, decide_eq_true_eq]
    by_contra hb
    have same : i.testBit (b - 3 + 3) = j.testBit (b - 3 + 3) := by rw [← high, ← high, h]
    rw [Nat.sub_add_cancel (by omega)] at same
    rw [Nat.testBit_xor, same, Bool.xor_self] at differ
    exact Bool.false_ne_true differ

/-- `orc.b`: each bit becomes the or of its byte (R86, R116). -/
theorem getLsbD_gorc_seven (x : Width) (v : BitVec x.bits) (k : Nat) (hk : k < x.bits) :
    (gorc x v 7).getLsbD k = (List.range 8).any fun b => v.getLsbD (8 * (k / 8) + b) := by
  have whole_bytes : x.bits % 8 = 0 := by cases x <;> rfl
  rw [Bool.eq_iff_iff, getLsbD_gorc x v 7 k hk, List.any_eq_true]
  simp only [xor_within_seven_iff, List.mem_range]
  constructor
  · rintro ⟨j, _, hv, same_byte⟩
    refine ⟨j % 8, Nat.mod_lt j (by decide), ?_⟩
    rwa [same_byte, Nat.div_add_mod]
  · rintro ⟨b, hb, hv⟩
    exact ⟨8 * (k / 8) + b, by omega, hv, by omega⟩

end Sys2Proof.Machine

namespace Sys2Proof

open Sys2Proof.Machine

/-- Settles O31: the row that the instruction's pattern fits builds it again from the fields of its word. -/
theorem decodeOfEncode : Obligations.DecodeOfEncode := decode_encode

/-- Settles O32: every row of the table is exact, and an instruction comes from a row. -/
theorem encodeOfDecode : Obligations.EncodeOfDecode := fun _ _ _ => encode_of_decode

/-- Settles O11: each name is one control, whose index map over XLEN positions is computed. -/
theorem namedSpecialCases : Obligations.NamedSpecialCases := by
  refine ⟨fun rd rs => ⟨rfl, rfl, rfl, rfl, rfl, rfl, rfl, rfl, rfl, rfl, rfl, rfl, rfl, rfl, rfl⟩,
    fun s rd rs => ?_⟩
  have hpos : 8 ≤ s.xlen.bits / 2 := by cases s.xlen <;> decide
  have hle := s.xlen.bits_le
  have half_control := toNat_ofNat_half_sub_one s.xlen
  have seven_lt : (7 : BitVec 6).toNat < s.xlen.bits := by
    change 7 < s.xlen.bits
    omega
  refine ⟨?rev8, ?revAll, ?rev16, fun h64 => ?rev32, ?rev4, ?revB, ?orcB, ?zip, ?unzip⟩
  case rev8 => exact grevi_bits_sub_completesWith s rd rs (by decide) (xor_rev8 s.xlen)
  case revAll => exact grevi_bits_sub_completesWith s rd rs (by decide) (xor_revAll s.xlen)
  case rev16 => exact grevi_bits_sub_completesWith s rd rs (by decide) (xor_rev16 s.xlen)
  case rev4 => exact grevi_bits_sub_completesWith s rd rs (by decide) (xor_rev4 s.xlen)
  case rev32 => exact grevi_completesWith_of_index s rd rs (by rw [h64]; decide) (by rw [h64]; exact xor_rev32)
  case revB => exact grevi_completesWith_of_index s rd rs seven_lt fun k hk => xor_revB k (by omega)
  case orcB => exact (gorci_completesWith s rd rs seven_lt).congr (getLsbD_gorc_seven s.xlen (s.get rs))
  case zip =>
    refine (shfli_completesWith s rd rs (by rw [half_control]; omega)).congr fun k hk => ?_
    rw [half_control, sendIndex_zip s.xlen k hk]
  case unzip =>
    refine (unshfli_completesWith s rd rs (by rw [half_control]; omega)).congr fun k hk => ?_
    rw [half_control, sendIndex_unzip s.xlen k hk]

/-- Settles O33: R79 or R80 names the word, and the meaning checks the same condition. -/
theorem absentInstructionIsIllegal : Obligations.AbsentInstructionIsIllegal := by
  intro i s hwf
  obtain ⟨rule, hdecode⟩ := decode_encode_of_not_wf hwf
  exact ⟨trapsAsIllegal_of_decode hdecode, exec_of_not_wf i s hwf⟩

/-- Settles O34: the counts are computed, and the rows exclude one another pairwise. -/
theorem opcodeRowsAreDisjoint : Obligations.OpcodeRowsAreDisjoint :=
  ⟨rfl, rfl, rfl, fun _ _ _ _ => opRows_place_unique⟩

/-- Settles O35: only words of the six major opcodes have a meaning, and these opcodes' low bits are known. -/
theorem onlyThirtyTwoBitWordsDecode : Obligations.OnlyThirtyTwoBitWordsDecode := by
  intro x w
  have low2 := extractLsb'_fieldOpcode w (n := 2) (by decide)
  have low5 := extractLsb'_fieldOpcode w (n := 5) (by decide)
  have opcode_bits (hmem : fieldOpcode w ∈ majorOpcodes) :
      w.extractLsb' 0 2 = 0b11#2 ∧ w.extractLsb' 0 5 ≠ 0b11111#5 := by
    rw [← low2, ← low5]
    exact majorOpcodes_low_bits _ hmem
  refine ⟨fun i hdecode => ?_, fun h => ?_, fun h => ?_⟩
  · obtain ⟨r, hr, _, hfits, _⟩ := decode_instr hdecode
    exact (opcode_bits (OpRow.fieldOpcode_of_fits hr hfits)).left
  · exact decode_of_opcode_not_mem x fun hmem => h (opcode_bits hmem).left
  · exact decode_of_opcode_not_mem x fun hmem => (opcode_bits hmem).right h

/-- Settles O36: the decoder's two rules, with R79's rows read as instructions and R80's keys written out. -/
theorem illegalWordsAreThoseNamed : Obligations.IllegalWordsAreThoseNamed := by
  refine ⟨fun w => ?_, fun w => ?_, fun _ _ _ => trapsAsIllegal_of_decode⟩
  · rw [decode_illegal_iff, isRv64OnlyWord_iff, isReservedAmount_w64]
    exact or_iff_right fun ⟨hx, _⟩ => nomatch hx
  · rw [decode_illegal_iff, isRv64OnlyWord_iff, isReservedAmount_w32]
    exact or_congr_left (and_iff_right rfl)

/-- Settles O37: by the round trip, a word is an instruction's exactly when the decoder answers one. -/
theorem everyOtherWordIsRefused : Obligations.EveryOtherWordIsRefused := by
  intro x w
  refine ⟨decode_eq_outsideSpec_iff, ?_⟩
  rintro s rfl hp hf hdecode
  rw [step_of_fetch hp hf, hdecode, runDecoded, refuseWord_eq]

/-- Settles O47: the one register that an instruction writes is x0, which discards the value. -/
theorem destinationX0ChangesOnlyPc : Obligations.DestinationX0ChangesOnlyPc := by
  intro i s hwf hj hdest
  obtain ⟨v, hexec⟩ := exec_of_wf i s hwf hj
  refine ⟨_, hexec, s.commit_sameParameters i.dest v s.nextPc, fun r k => ?_, s.nextPc_toNat⟩
  rw [State.bit_commit, hdest]
  by_cases hr : r = 0#5
  · rw [if_pos hr, hr, State.bit_zero]
  · rw [if_neg hr, if_neg hr]

/-- Settles O39: each printed word is the word of its instruction, which the decoder gives back. -/
theorem sampleWordsDecode : Obligations.SampleWordsDecode :=
  ⟨decode_of_encode_eq rfl rfl, decode_of_encode_eq rfl rfl, decode_of_encode_eq rfl rfl,
    decode_of_encode_eq rfl rfl, decode_of_encode_eq rfl rfl, decode_of_encode_eq rfl rfl,
    decode_of_encode_eq rfl rfl, decode_of_encode_eq rfl rfl, decode_of_encode_eq rfl rfl,
    decode_of_encode_eq rfl rfl, decode_of_encode_eq rfl rfl, decode_of_encode_eq rfl rfl⟩

end Sys2Proof
end

-- ==== Proofs: the rotations (spec/40_rotations.md) ====
section
/-! A word that the encoder gives performs its instruction or traps (R79, R80); the rotation helpers move bits (R100), and
so do the six instructions (R101 to R106). -/

namespace Sys2Proof

/-! ### A six-bit amount in the place of a five-bit one (R63, R80) -/

theorem toNat_setWidth_five_of_lt {u : BitVec 6} (h : u.toNat < 32) : (u.setWidth 5).toNat = u.toNat := by
  rw [BitVec.toNat_setWidth, Nat.mod_eq_of_lt h]

/-- An IS6 word whose amount is below 32 is the IS5 word with that amount (R63). -/
theorem wordIS6_of_lt (f6 : BitVec 6) (f3 : BitVec 3) (op : BitVec 7) (rd rs1 : RegNum) {u : BitVec 6}
    (h : u.toNat < 32) : wordIS6 f6 f3 op rd rs1 u = wordIS5 (f6 ++ 0#1) f3 op rd rs1 (u.setWidth 5) := by
  have bit5 : u[5] = false := by
    rw [← BitVec.getLsbD_eq_getElem, getLsbD_last]
    simpa using h
  apply BitVec.eq_of_getLsbD_eq
  intro i hi
  simp only [wordIS6, wordIS5, BitVec.getLsbD_append]
  interval_cases i <;> simp [bit5]

/-- On either XLEN, an amount of 32 or more in an IS6 word sets the bit that R80 reserves for the keys it lists so. -/
theorem decode_wordIS6_of_reserved {x : Width} {f6 : BitVec 6} {f3 : BitVec 3} {op : BitVec 7} (rd rs1 : RegNum)
    {u : BitVec 6} (hkey : (wordIS6 f6 f3 op 0 0 0, 25) ∈ reservedBits x) (hu : ¬ u.toNat < 32) :
    ∃ rule, decode x (wordIS6 f6 f3 op rd rs1 u) = .illegal rule := by
  rw [decode_illegal_iff, isReservedAmount_iff, immFormKey_wordIS6]
  refine .inr ⟨25, hkey, ?_⟩
  rw [getLsbD_25_wordIS6, getLsbD_last]
  simpa using hu

end Sys2Proof

namespace Sys2Proof.Machine

/-! ### What the word of an instruction does -/

/-- The word of an instruction that the XLEN has decodes to it, so its rule is its assembly and its completion. -/
theorem performs_of_encode {s : State} {word : InstrWord} {i : Instr} {name : String} {args : List String}
    {rd : RegNum} {f : Nat → Bool} (hname : mnemonic i = name) (hargs : operands i = args) (hword : encode i = word)
    (hwf : i.wf s.xlen = true) (hcompletes : CompletesWith i s rd f) : Performs s word i name args rd f :=
  ⟨hname, hargs, decode_of_encode_eq hwf hword, hcompletes⟩

theorem trapsAsIllegal_of_not_wf {s : State} {i : Instr} (h : i.wf s.xlen = false) : TrapsAsIllegal s (encode i) := by
  obtain ⟨_, hdecode⟩ := decode_encode_of_not_wf h
  exact trapsAsIllegal_of_decode hdecode

/-- RV64 has every instruction (R2). -/
theorem wf_of_xlen_w64 {s : State} (hx : s.xlen = .w64) (i : Instr) : i.wf s.xlen = true := by
  rw [hx]
  exact i.wf_w64

/-- RV32 lacks the RV64-only instructions (R79). -/
theorem not_wf_of_xlen_w32 {s : State} (hx : s.xlen = .w32) {i : Instr} (hi : i.rv64Only = true) :
    i.wf s.xlen = false := by
  rw [hx, Instr.wf, hi]
  rfl

/-- A `*w` result, from the bits of its low word (D2). -/
theorem getLsbD_sextWord_of_word {n : Nat} {w : BitVec 32} {f : Nat → Bool} (hf : ∀ k < 32, w.getLsbD k = f k)
    {k : Nat} (hk : k < n) : (sextWord w : BitVec n).getLsbD k = sext32 f k :=
  (getLsbD_sextWord w k hk).trans (hf _ (by omega))

/-! ### The laws of the rotation helpers (R100) -/

section
variable {n : Nat} (v : BitVec n) {a b : Nat}

@[simp] theorem rotr_zero : rotr v 0 = v := if_pos rfl

/-- "rotation left is the inverse": by `a` to the left is by `n - a` to the right. -/
theorem rotl_eq_rotr (ha : a < n) : rotl v a = rotr v ((n - a) % n) := by
  apply BitVec.eq_of_getLsbD_eq
  intro k hk
  rw [getLsbD_rotl v a k ha hk, getLsbD_rotr v _ k (Nat.mod_lt _ (by omega)) hk, Nat.add_mod_mod,
    Nat.add_sub_assoc ha.le]

theorem rotr_rotr (ha : a < n) (hb : b < n) : rotr (rotr v a) b = rotr v ((a + b) % n) := by
  have hn : 0 < n := by omega
  apply BitVec.eq_of_getLsbD_eq
  intro k hk
  rw [getLsbD_rotr _ b k hb hk, getLsbD_rotr v a _ ha (Nat.mod_lt _ hn), getLsbD_rotr v _ k (Nat.mod_lt _ hn) hk,
    Nat.mod_add_mod, Nat.add_mod_mod, Nat.add_assoc, Nat.add_comm b a]

theorem rotl_rotr (ha : a < n) : rotl (rotr v a) a = v := by
  rw [rotl_eq_rotr _ ha, rotr_rotr v ha (Nat.mod_lt _ (by omega)), Nat.add_mod_mod, Nat.add_sub_cancel' ha.le,
    Nat.mod_self, rotr_zero]

/-- The positions that a rotation reads are all positions, rotated as a list. -/
theorem map_add_mod_range (n a : Nat) : (List.range n).map (fun i => (i + a) % n) = (List.range n).rotate a := by
  apply List.ext_getElem
  · simp
  · intro i _ _
    simp [List.getElem_rotate]

theorem onesCount_rotr (ha : a < n) : onesCount (rotr v a) = onesCount v := by
  have moved : (List.range n).filter (fun i => (rotr v a).getLsbD i) =
      (List.range n).filter (v.getLsbD ∘ fun i => (i + a) % n) :=
    List.filter_congr fun i hi => getLsbD_rotr v a i ha (List.mem_range.mp hi)
  calc onesCount (rotr v a)
      = (((List.range n).map fun i => (i + a) % n).filter v.getLsbD).length := by
        rw [onesCount, moved, List.filter_map, List.length_map]
    _ = (((List.range n).rotate a).filter v.getLsbD).length := by rw [map_add_mod_range]
    _ = onesCount v := ((List.rotate_perm _ a).filter _).length_eq

theorem onesCount_rotl (ha : a < n) : onesCount (rotl v a) = onesCount v := by
  rw [rotl_eq_rotr v ha, onesCount_rotr v (Nat.mod_lt _ (by omega))]

theorem zero_rotr (ha : a < n) : rotr (0#n) a = 0#n := by
  apply BitVec.eq_of_getLsbD_eq
  intro k hk
  rw [getLsbD_rotr _ a k ha hk, BitVec.getLsbD_zero, BitVec.getLsbD_zero]

theorem allOnes_rotr (ha : a < n) : rotr (BitVec.allOnes n) a = BitVec.allOnes n := by
  apply BitVec.eq_of_getLsbD_eq
  intro k hk
  rw [getLsbD_rotr _ a k ha hk, BitVec.getLsbD_allOnes, BitVec.getLsbD_allOnes, decide_eq_true hk,
    decide_eq_true (Nat.mod_lt _ (by omega))]

end

/-! ### Rotating the low word (R104 to R106) -/

/-- The low five bits of a register are its value modulo 32 (R104, R105). -/
theorem lowBits_five {n : Nat} (v : BitVec n) : lowBits 5 v = v.toNat % 32 := lowBits_eq 5 v

section
variable {n : Nat} (v : BitVec n) {a k : Nat}

theorem getLsbD_rotr_lowWord (ha : a < 32) (hk : k < 32) :
    (rotr (lowWord v) a).getLsbD k = v.getLsbD ((k + a) % 32) := by
  rw [getLsbD_rotr _ a k ha hk, getLsbD_lowWord, decide_eq_true (Nat.mod_lt _ (by decide)), Bool.true_and]

theorem getLsbD_rotl_lowWord (ha : a < 32) (hk : k < 32) :
    (rotl (lowWord v) a).getLsbD k = v.getLsbD ((k + 32 - a) % 32) := by
  rw [getLsbD_rotl _ a k ha hk, getLsbD_lowWord, decide_eq_true (Nat.mod_lt _ (by decide)), Bool.true_and]

end

/-! ### The instructions, bit by bit (R101 to R106) -/

section
variable (s : State) (rd rs1 rs2 : RegNum)

theorem ror_completesWith : CompletesWith (.ror rd rs1 rs2) s rd
    fun k => s.bit rs1 ((k + s.val rs2 % s.xlen.bits) % s.xlen.bits) :=
  completesWith_of_retire rfl fun k hk => by
    rw [lowBits_log2, getLsbD_rotr _ _ k (Nat.mod_lt _ (by omega)) hk]
    rfl

theorem rol_completesWith : CompletesWith (.rol rd rs1 rs2) s rd
    fun k => s.bit rs1 ((k + s.xlen.bits - s.val rs2 % s.xlen.bits) % s.xlen.bits) :=
  completesWith_of_retire rfl fun k hk => by
    rw [lowBits_log2, getLsbD_rotl _ _ k (Nat.mod_lt _ (by omega)) hk]
    rfl

theorem rori_completesWith {u : BitVec 6} (hu : u.toNat < s.xlen.bits) :
    CompletesWith (.rori rd rs1 u) s rd fun k => s.bit rs1 ((k + u.toNat) % s.xlen.bits) :=
  completesWith_of_retire (whenLegal_of_amountFits rfl (decide_eq_true hu)) fun k hk =>
    getLsbD_rotr (s.get rs1) u.toNat k hu hk

theorem rorw_completesWith (hx : s.xlen = .w64) : CompletesWith (.rorw rd rs1 rs2) s rd
    (sext32 fun k => s.bit rs1 ((k + s.val rs2 % 32) % 32)) :=
  completesWith_of_retire (whenLegal_of_wf (wf_of_xlen_w64 hx _)) fun _ hk =>
    getLsbD_sextWord_of_word (fun j hj => by
      rw [lowBits_five, getLsbD_rotr_lowWord _ (Nat.mod_lt _ (by decide)) hj]
      rfl) hk

theorem rolw_completesWith (hx : s.xlen = .w64) : CompletesWith (.rolw rd rs1 rs2) s rd
    (sext32 fun k => s.bit rs1 ((k + 32 - s.val rs2 % 32) % 32)) :=
  completesWith_of_retire (whenLegal_of_wf (wf_of_xlen_w64 hx _)) fun _ hk =>
    getLsbD_sextWord_of_word (fun j hj => by
      rw [lowBits_five, getLsbD_rotl_lowWord _ (Nat.mod_lt _ (by decide)) hj]
      rfl) hk

theorem roriw_completesWith (hx : s.xlen = .w64) (u : BitVec 5) : CompletesWith (.roriw rd rs1 u) s rd
    (sext32 fun k => s.bit rs1 ((k + u.toNat) % 32)) :=
  completesWith_of_retire (whenLegal_of_wf (wf_of_xlen_w64 hx _)) fun _ hk =>
    getLsbD_sextWord_of_word (fun _ hj => getLsbD_rotr_lowWord (s.get rs1) u.isLt hj) hk

/-! ### `roriw` words with a six-bit amount -/

theorem roriw_word_performs (hx : s.xlen = .w64) {u : BitVec 6} (hu : u.toNat < 32) :
    Performs s (wordIS6 0b011000#6 0b101#3 0b0011011#7 rd rs1 u) (.roriw rd rs1 (u.setWidth 5))
      "roriw" [abiName rd, abiName rs1, toString u.toNat] rd (sext32 fun k => s.bit rs1 ((k + u.toNat) % 32)) := by
  rw [wordIS6_of_lt _ _ _ _ _ hu, ← toNat_setWidth_five_of_lt hu]
  exact performs_of_encode rfl rfl rfl (wf_of_xlen_w64 hx _) (roriw_completesWith s rd rs1 hx _)

/-- R80 reserves the amount's bit 5 in a `roriw` word on both XLENs. -/
theorem roriw_word_traps_of_reserved {u : BitVec 6} (hu : ¬ u.toNat < 32) :
    TrapsAsIllegal s (wordIS6 0b011000#6 0b101#3 0b0011011#7 rd rs1 u) := by
  have hkey (x : Width) : (wordIS6 0b011000#6 0b101#3 0b0011011#7 0 0 0, 25) ∈ reservedBits x := by
    cases x <;> decide
  obtain ⟨_, hdecode⟩ := decode_wordIS6_of_reserved rd rs1 (hkey s.xlen) hu
  exact trapsAsIllegal_of_decode hdecode

theorem roriw_word_traps_w32 (hx : s.xlen = .w32) (u : BitVec 6) :
    TrapsAsIllegal s (wordIS6 0b011000#6 0b101#3 0b0011011#7 rd rs1 u) := by
  by_cases hu : u.toNat < 32
  · rw [wordIS6_of_lt _ _ _ _ _ hu]
    exact trapsAsIllegal_of_not_wf (i := .roriw rd rs1 (u.setWidth 5)) (not_wf_of_xlen_w32 hx rfl)
  · exact roriw_word_traps_of_reserved s rd rs1 hu

end

end Sys2Proof.Machine

namespace Sys2Proof

open Sys2Proof.Machine

/-- Settles O1: the amount is `x[rs2] mod XLEN`, and a rotation reads each bit from its rotated place. -/
theorem registerRotatesMoveBits : Obligations.RegisterRotatesMoveBits := by
  intro s rd rs1 rs2
  constructor
  · exact performs_of_encode rfl rfl rfl (Instr.wf_eq_amountFits _ rfl) (ror_completesWith s rd rs1 rs2)
  · exact performs_of_encode rfl rfl rfl (Instr.wf_eq_amountFits _ rfl) (rol_completesWith s rd rs1 rs2)

/-- Settles O2: the word is that of `rori`, which exists exactly when its amount is below XLEN. -/
theorem immediateRotateMovesBits : Obligations.ImmediateRotateMovesBits := by
  intro s rd rs1 u
  have hwf : (Instr.rori rd rs1 u).wf s.xlen = decide (u.toNat < s.xlen.bits) := Instr.wf_eq_amountFits _ rfl
  split
  case isTrue hu =>
    exact performs_of_encode rfl rfl rfl (hwf.trans (decide_eq_true hu)) (rori_completesWith s rd rs1 hu)
  case isFalse hu =>
    exact trapsAsIllegal_of_not_wf (i := .rori rd rs1 u) (hwf.trans (decide_eq_false hu))

/-- Settles O3: RV64 has the three instructions and RV32 none; R80 takes the `roriw` words with amount bit 5 set. -/
theorem wordRotatesMoveBits : Obligations.WordRotatesMoveBits := by
  intro s rd rs1 rs2 u
  refine ⟨fun hx => ⟨?rorw, ?rolw, ?roriw⟩, fun hx => ⟨?rorw32, ?rolw32, ?roriw32⟩⟩
  case rorw => exact performs_of_encode rfl rfl rfl (wf_of_xlen_w64 hx _) (rorw_completesWith s rd rs1 rs2 hx)
  case rolw => exact performs_of_encode rfl rfl rfl (wf_of_xlen_w64 hx _) (rolw_completesWith s rd rs1 rs2 hx)
  case roriw =>
    split
    case isTrue hu => exact roriw_word_performs s rd rs1 hx hu
    case isFalse hu => exact roriw_word_traps_of_reserved s rd rs1 hu
  case rorw32 => exact trapsAsIllegal_of_not_wf (i := .rorw rd rs1 rs2) (not_wf_of_xlen_w32 hx rfl)
  case rolw32 => exact trapsAsIllegal_of_not_wf (i := .rolw rd rs1 rs2) (not_wf_of_xlen_w32 hx rfl)
  case roriw32 => exact roriw_word_traps_w32 s rd rs1 hx u

/-- Settles O4: a rotation permutes the bit positions by addition modulo N, and the laws are those of that addition. -/
theorem rotationLaws : Obligations.RotationLaws := by
  intro w v a b ha hb
  exact ⟨rfl, rfl, fun i hi => getLsbD_rotr v a i ha hi, fun i hi => getLsbD_rotl v a i ha hi, rotl_eq_rotr v ha,
    rotr_rotr v ha hb, rotl_rotr v ha, onesCount_rotr v ha, onesCount_rotl v ha, zero_rotr ha, allOnes_rotr ha⟩

end Sys2Proof
end

-- ==== Proofs: the permutations (spec/41_permutations.md) ====
section
/-! The permutations as maps of bit indices: the reverse by exclusive or (R111), the or-combine by the indices that a
control reaches (R116), the shuffle by exchanges of index bits (R121). The instructions and their words rest on these maps
(R112 to R115, R117 to R120, R122 to R127). -/

namespace Sys2Proof

/-- Both XLENs reserve bit 25 for the keys of `shfli`, `unshfli` and the immediate `*w` forms (R80). -/
theorem mem_reservedBits_25 (x : Width) {key : InstrWord} (h : key ∈ keysShuffle ++ keysWordAmount) :
    (key, 25) ∈ reservedBits x := by
  cases x with
  | w64 => exact List.mem_map_of_mem h
  | w32 =>
    rw [List.mem_append] at h
    rcases h with h | h <;> simp [reservedBits, h]

end Sys2Proof

namespace Sys2Proof.Machine

/-- A value whose bits are those of another, each taken from a place of its own, has as many set bits. -/
theorem onesCount_eq_of_source {n : Nat} {v u : BitVec n} {source : Nat → Nat} (hlt : ∀ i < n, source i < n)
    (hinj : ∀ i < n, ∀ j < n, source i = source j → i = j)
    (hbit : ∀ i < n, u.getLsbD i = v.getLsbD (source i)) : onesCount u = onesCount v := by
  have all_places : ((List.range n).map source).Perm (List.range n) := by
    have distinct : ((List.range n).map source).Nodup :=
      List.nodup_range.map_on fun i hi j hj => hinj i (List.mem_range.mp hi) j (List.mem_range.mp hj)
    have places : (List.range n).map source ⊆ List.range n := by
      intro j hj
      obtain ⟨i, hi, rfl⟩ := List.mem_map.mp hj
      exact List.mem_range.mpr (hlt i (List.mem_range.mp hi))
    exact (distinct.subperm places).perm_of_length_le (by simp)
  have moved : (List.range n).filter (fun i => u.getLsbD i) = (List.range n).filter (v.getLsbD ∘ source) :=
    List.filter_congr fun i hi => hbit i (List.mem_range.mp hi)
  calc onesCount u
      = (((List.range n).map source).filter v.getLsbD).length := by
        rw [onesCount, moved, List.filter_map, List.length_map]
    _ = onesCount v := (all_places.filter _).length_eq

/-! ### The generalised reverse (R111) -/

section
variable (w : Width) (v : BitVec w.bits)

theorem xor_lt_bits {i a : Nat} (hi : i < w.bits) (ha : a < w.bits) : i ^^^ a < w.bits := by
  rw [← Width.two_pow_log2] at *
  exact Nat.xor_lt_two_pow hi ha

/-- A stage as one exclusive or on the index, by the bit of the control that selects it. -/
theorem getLsbD_grevStage_and (a : Nat) {k i : Nat} (hk : k < w.log2) (hi : i < w.bits) :
    (grevStage a v k).getLsbD i = v.getLsbD (i ^^^ (a &&& 2 ^ k)) := by
  rw [getLsbD_grevStage w v a k i hk hi, Nat.and_two_pow]
  cases a.testBit k <;> simp

/-- "the stages commute": their exclusive ors on the index do. -/
theorem grevStage_comm (a : Nat) {j k : Nat} (hj : j < w.log2) (hk : k < w.log2) :
    grevStage a (grevStage a v j) k = grevStage a (grevStage a v k) j := by
  have stays {i m : Nat} (hi : i < w.bits) (hm : m < w.log2) : i ^^^ (a &&& 2 ^ m) < w.bits :=
    xor_lt_bits w hi (Nat.and_le_right.trans_lt (w.two_pow_log2 ▸ Nat.pow_lt_pow_right (by decide) hm))
  apply BitVec.eq_of_getLsbD_eq
  intro i hi
  rw [getLsbD_grevStage_and w _ a hk hi, getLsbD_grevStage_and w _ a hj (stays hi hk),
    getLsbD_grevStage_and w _ a hj hi, getLsbD_grevStage_and w _ a hk (stays hi hj), Nat.xor_right_comm]

@[simp] theorem grev_zero : grev w v 0 = v := by
  apply BitVec.eq_of_getLsbD_eq
  intro i hi
  rw [getLsbD_grev w v 0 i (by omega) hi, Nat.xor_zero]

theorem grev_grev {a b : Nat} (ha : a < w.bits) (hb : b < w.bits) :
    grev w (grev w v a) b = grev w v (a ^^^ b) := by
  apply BitVec.eq_of_getLsbD_eq
  intro i hi
  rw [getLsbD_grev w _ b i hb hi, getLsbD_grev w v a _ ha (xor_lt_bits w hi hb),
    getLsbD_grev w v _ i (xor_lt_bits w ha hb) hi, Nat.xor_assoc, Nat.xor_comm b a]

theorem grev_grev_same {a : Nat} (ha : a < w.bits) : grev w (grev w v a) a = v := by
  rw [grev_grev w v ha ha, Nat.xor_self, grev_zero]

theorem onesCount_grev {a : Nat} (ha : a < w.bits) : onesCount (grev w v a) = onesCount v :=
  onesCount_eq_of_source (fun _ hi => xor_lt_bits w hi ha) (fun _ _ _ _ h => Nat.xor_left_injective h)
    fun i hi => getLsbD_grev w v a i ha hi

/-- The control N - 1 reverses the bits. -/
theorem getLsbD_grev_all {i : Nat} (hi : i < w.bits) :
    (grev w v (w.bits - 1)).getLsbD i = v.getLsbD (w.bits - 1 - i) := by
  rw [getLsbD_grev w v _ i (by omega) hi, xor_revAll w i hi]

/-- The control N - b, where it reverses the order of the blocks of b bits and keeps each block. -/
theorem getLsbD_grev_blocks {b q r : Nat} (hblocks : ∀ k < w.bits,
      k ^^^ (w.bits - b) = b * (w.bits / b - 1 - k / b) + k % b) (hq : q < w.bits / b) (hr : r < b) :
    (grev w v (w.bits - b)).getLsbD (b * q + r) = v.getLsbD (b * (w.bits / b - 1 - q) + r) := by
  have hk : b * q + r < w.bits :=
    calc b * q + r < b * (q + 1) := by rw [Nat.mul_succ]; omega
      _ ≤ b * (w.bits / b) := Nat.mul_le_mul_left b hq
      _ ≤ w.bits := Nat.mul_div_le w.bits b
  rw [getLsbD_grev w v _ _ (by omega) hk, hblocks _ hk, Nat.mul_add_div (by omega), Nat.div_eq_of_lt hr,
    Nat.add_zero, Nat.mul_add_mod, Nat.mod_eq_of_lt hr]

/-- The control 7 reverses the bits of each byte. -/
theorem getLsbD_grev_seven {q r : Nat} (hq : q < w.bits / 8) (hr : r < 8) :
    (grev w v 7).getLsbD (8 * q + r) = v.getLsbD (8 * q + (7 - r)) := by
  have hle := w.bits_le
  rw [getLsbD_grev w v 7 _ (by omega) (by omega), xor_revB _ (by omega)]
  congr 1
  omega

end

/-- The control 32 exchanges the two words of 64 bits. -/
theorem getLsbD_grev_thirtyTwo (v : BitVec Width.w64.bits) {r : Nat} (hr : r < 32) :
    (grev .w64 v 32).getLsbD r = v.getLsbD (32 + r) ∧ (grev .w64 v 32).getLsbD (32 + r) = v.getLsbD r := by
  have bit (k : Nat) (hk : k < 64) : (grev .w64 v 32).getLsbD k = v.getLsbD (32 * (1 - k / 32) + k % 32) := by
    rw [getLsbD_grev .w64 v 32 k (by decide) hk, xor_rev32 k hk]
  constructor
  · rw [bit r (by omega)]
    congr 1
    omega
  · rw [bit (32 + r) (by omega)]
    congr 1
    omega

/-! ### The generalised or-combine (R116) -/

/-- "has ones only where `s` has ones" is a conjunction that changes nothing. -/
theorem and_eq_self_iff_testBit (a s : Nat) :
    a &&& s = a ↔ ∀ b, a.testBit b = true → s.testBit b = true := by
  constructor
  · intro h b hb
    rw [← h, Nat.testBit_and, Bool.and_eq_true] at hb
    exact hb.2
  · intro h
    apply Nat.eq_of_testBit_eq
    intro b
    rw [Nat.testBit_and]
    cases ha : a.testBit b with
    | false => rfl
    | true => rw [h b ha, Bool.true_and]

section
variable (w : Width) (v : BitVec w.bits) (a : Nat)

theorem getLsbD_gorc_iff {i : Nat} (hi : i < w.bits) : (gorc w v a).getLsbD i = true ↔
    ∃ j < w.bits, v.getLsbD j = true ∧ (i ^^^ j) &&& a = i ^^^ j := by
  simp only [getLsbD_gorc w v a i hi, and_eq_self_iff_testBit]

theorem getLsbD_gorc_eq_any {i : Nat} (hi : i < w.bits) : (gorc w v a).getLsbD i =
    (List.range w.bits).any fun j => (i ^^^ j) &&& a == (i ^^^ j) && v.getLsbD j := by
  rw [Bool.eq_iff_iff, getLsbD_gorc_iff w v a hi]
  simp only [List.any_eq_true, List.mem_range, Bool.and_eq_true, beq_iff_eq, and_comm]

/-- "the stages commute": either order ors the same four bits. -/
theorem gorcStage_comm {j k : Nat} (hj : j < w.log2) (hk : k < w.log2) :
    gorcStage a (gorcStage a v j) k = gorcStage a (gorcStage a v k) j := by
  apply BitVec.eq_of_getLsbD_eq
  intro i hi
  rw [getLsbD_gorcStage w _ a k i hk hi, getLsbD_gorcStage w _ a j i hj hi,
    getLsbD_gorcStage w _ a j _ hj (xor_two_pow_lt w hi hk), getLsbD_gorcStage w _ a j i hj hi,
    getLsbD_gorcStage w _ a k i hk hi, getLsbD_gorcStage w _ a k _ hk (xor_two_pow_lt w hi hj),
    Nat.xor_right_comm i (2 ^ k) (2 ^ j)]
  cases a.testBit j <;> cases a.testBit k <;> simp [Bool.or_assoc, Bool.or_left_comm]

/-- "a set bit stays set": every index reaches itself. -/
theorem getLsbD_gorc_of_set {i : Nat} (h : v.getLsbD i = true) : (gorc w v a).getLsbD i = true :=
  (getLsbD_gorc_iff w v a (BitVec.lt_of_getLsbD h)).mpr
    ⟨i, BitVec.lt_of_getLsbD h, h, by rw [Nat.xor_self, Nat.zero_and]⟩

@[simp] theorem gorc_zero : gorc w v 0 = v := by
  apply BitVec.eq_of_getLsbD_eq
  intro i hi
  rw [Bool.eq_iff_iff, getLsbD_gorc_iff w v 0 hi]
  constructor
  · rintro ⟨j, _, hv, hij⟩
    rw [Nat.and_zero, eq_comm, Nat.xor_eq_zero_iff] at hij
    rwa [hij]
  · intro hv
    exact ⟨i, hi, hv, by rw [Nat.xor_self, Nat.zero_and]⟩

/-- "applying it twice is applying it once": what a reached index reaches is reached. -/
theorem gorc_gorc : gorc w (gorc w v a) a = gorc w v a := by
  apply BitVec.eq_of_getLsbD_eq
  intro i hi
  rw [Bool.eq_iff_iff]
  refine ⟨fun h => ?_, getLsbD_gorc_of_set w _ a⟩
  obtain ⟨j, hj, hgorc, hij⟩ := (getLsbD_gorc_iff w _ a hi).mp h
  obtain ⟨k, hk, hv, hjk⟩ := (getLsbD_gorc_iff w v a hj).mp hgorc
  have hik : i ^^^ k = (i ^^^ j) ^^^ (j ^^^ k) := by rw [Nat.xor_assoc, Nat.xor_xor_cancel_left]
  exact (getLsbD_gorc_iff w v a hi).mpr ⟨k, hk, hv, by rw [hik, Nat.and_xor_distrib_right, hij, hjk]⟩

theorem zero_gorc : gorc w (0#w.bits) a = 0#w.bits := by
  apply BitVec.eq_of_getLsbD_eq
  intro i hi
  rw [Bool.eq_iff_iff, getLsbD_gorc_iff w _ a hi]
  simp

/-- The control N - 1 reaches every index from every index. -/
theorem gorc_all : gorc w v (w.bits - 1) = if v = 0#w.bits then 0#w.bits else BitVec.allOnes w.bits := by
  split
  case isTrue hv => rw [hv, zero_gorc]
  case isFalse hv =>
    obtain ⟨j, hset⟩ : ∃ j, v.getLsbD j = true := by
      by_contra hnone
      exact hv (BitVec.eq_of_getLsbD_eq fun j _ => by simpa using fun h => hnone ⟨j, h⟩)
    have hj := BitVec.lt_of_getLsbD hset
    apply BitVec.eq_of_getLsbD_eq
    intro i hi
    have reached : (i ^^^ j) &&& (w.bits - 1) = i ^^^ j := by
      have hlt := xor_lt_bits w hi hj
      rw [← Width.two_pow_log2] at hlt ⊢
      exact Nat.and_two_pow_sub_one_of_lt_two_pow hlt
    rw [BitVec.getLsbD_allOnes, decide_eq_true hi]
    exact (getLsbD_gorc_iff w v _ hi).mpr ⟨j, hj, hset, reached⟩

end

/-- The or-combine by N - 1 has no inverse: it makes all ones of 1 and of 2. -/
theorem gorc_all_not_injective (w : Width) :
    ∃ v v' : BitVec w.bits, v ≠ v' ∧ gorc w v (w.bits - 1) = gorc w v' (w.bits - 1) := by
  have distinct : 1#w.bits ≠ 2#w.bits ∧ 1#w.bits ≠ 0#w.bits ∧ 2#w.bits ≠ 0#w.bits := by cases w <;> decide
  obtain ⟨hne, hone, htwo⟩ := distinct
  exact ⟨1#w.bits, 2#w.bits, hne, by rw [gorc_all, gorc_all, if_neg hone, if_neg htwo]⟩

/-! ### The generalised shuffle, as maps of indices (R121) -/

/-- Exchanging two index bits twice restores the index. -/
theorem swapIndexBits_swapIndexBits (k i : Nat) : swapIndexBits k (swapIndexBits k i) = i := by
  by_cases h : i.testBit k = i.testBit (k + 1)
  · simp only [swapIndexBits, if_pos h]
  · have flipped : ¬ (i ^^^ (3 * 2 ^ k)).testBit k = (i ^^^ (3 * 2 ^ k)).testBit (k + 1) := by
      have h3 : Nat.testBit 3 1 = true := rfl
      simpa [Nat.testBit_mul_two_pow, h3] using h
    rw [swapIndexBits, swapIndexBits, if_neg h, if_neg flipped, Nat.xor_xor_cancel_right]

/-- The selected stages alone move an index. -/
theorem sendIndex_eq_foldl_filter (s : Nat) (L : List Nat) (i : Nat) :
    sendIndex s L i = (L.filter s.testBit).foldl (fun j k => swapIndexBits k j) i := by
  rw [List.foldl_filter, sendIndex]

theorem sendIndex_zero (L : List Nat) (i : Nat) : sendIndex 0 L i = i := by
  simp [sendIndex]

/-- With one stage selected, the order of the stages does not matter. -/
theorem sendIndex_two_pow_reverse (k : Nat) (L : List Nat) (i : Nat) :
    sendIndex (2 ^ k) L.reverse i = sendIndex (2 ^ k) L i := by
  have one_stage : L.filter (Nat.testBit (2 ^ k)) = List.replicate (L.count k) k := by
    rw [← List.filter_beq]
    exact List.filter_congr fun m _ => by rw [Nat.testBit_two_pow, beq_eq_decide, decide_eq_decide, eq_comm]
  rw [sendIndex_eq_foldl_filter, sendIndex_eq_foldl_filter, List.filter_reverse, one_stage, List.reverse_replicate]

/-- The stages in the opposite order bring every index back: each undoes itself, the last one first. -/
theorem sendIndex_reverse_sendIndex (s : Nat) (L : List Nat) (i : Nat) :
    sendIndex s L.reverse (sendIndex s L i) = i := by
  rw [sendIndex_eq_foldl_filter, sendIndex_eq_foldl_filter, List.filter_reverse]
  induction L.filter s.testBit generalizing i with
  | nil => rfl
  | cons k L ih =>
    rw [List.foldl_cons, List.reverse_cons, List.foldl_append, ih, List.foldl_cons, List.foldl_nil,
      swapIndexBits_swapIndexBits]

theorem sendIndex_sendIndex_reverse (s : Nat) (L : List Nat) (i : Nat) :
    sendIndex s L (sendIndex s L.reverse i) = i := by
  simpa using sendIndex_reverse_sendIndex s L.reverse i

theorem sendIndex_lt (w : Width) (s : Nat) {L : List Nat} (hL : ∀ k ∈ L, k < w.log2 - 1) {i : Nat} (hi : i < w.bits) :
    sendIndex s L i < w.bits := by
  rw [sendIndex_eq_foldl_filter]
  refine List.foldlRecOn (motive := (· < w.bits)) _ _ hi fun j hj k hk => ?_
  exact swapIndexBits_lt w (hL k (List.mem_of_mem_filter hk)) hj

/-! ### The generalised shuffle, as values (R121) -/

section
variable (w : Width) (v : BitVec w.bits) (a : Nat)

theorem sendIndex_range_lt {i : Nat} (hi : i < w.bits) : sendIndex a (List.range (w.log2 - 1)) i < w.bits :=
  sendIndex_lt w a (fun _ hk => List.mem_range.mp hk) hi

theorem sendIndex_range_reverse_lt {i : Nat} (hi : i < w.bits) :
    sendIndex a (List.range (w.log2 - 1)).reverse i < w.bits :=
  sendIndex_lt w a (fun _ hk => List.mem_range.mp (List.mem_reverse.mp hk)) hi

theorem shflStage_shflStage {k : Nat} (hk : k < w.log2 - 1) : shflStage a (shflStage a v k) k = v := by
  apply BitVec.eq_of_getLsbD_eq
  intro i hi
  cases hs : a.testBit k with
  | false => simp [shflStage, hs]
  | true =>
    have stage (u : BitVec w.bits) {i : Nat} (hi : i < w.bits) :
        (shflStage a u k).getLsbD i = u.getLsbD (swapIndexBits k i) := by
      rw [getLsbD_shflStage w u a k i hk hi, if_pos hs]
    rw [stage _ hi, stage _ (swapIndexBits_lt w hk hi), swapIndexBits_swapIndexBits]

theorem unshfl_shfl : unshfl w (shfl w v a) a = v := by
  apply BitVec.eq_of_getLsbD_eq
  intro i hi
  rw [getLsbD_unshfl w _ a i hi, getLsbD_shfl w v a _ (sendIndex_range_reverse_lt w a hi),
    sendIndex_sendIndex_reverse]

theorem shfl_unshfl : shfl w (unshfl w v a) a = v := by
  apply BitVec.eq_of_getLsbD_eq
  intro i hi
  rw [getLsbD_shfl w _ a i hi, getLsbD_unshfl w v a _ (sendIndex_range_lt w a hi), sendIndex_reverse_sendIndex]

@[simp] theorem shfl_zero : shfl w v 0 = v := by
  apply BitVec.eq_of_getLsbD_eq
  intro i hi
  rw [getLsbD_shfl w v 0 i hi, sendIndex_zero]

@[simp] theorem unshfl_zero : unshfl w v 0 = v := by
  apply BitVec.eq_of_getLsbD_eq
  intro i hi
  rw [getLsbD_unshfl w v 0 i hi, sendIndex_zero]

/-- "for a control with a single bit set the two are equal". -/
theorem shfl_two_pow (k : Nat) : shfl w v (2 ^ k) = unshfl w v (2 ^ k) := by
  apply BitVec.eq_of_getLsbD_eq
  intro i hi
  rw [getLsbD_shfl w v _ i hi, getLsbD_unshfl w v _ i hi, sendIndex_two_pow_reverse]

theorem onesCount_shfl : onesCount (shfl w v a) = onesCount v :=
  onesCount_eq_of_source (fun _ hi => sendIndex_range_lt w a hi)
    (fun _ _ _ _ h => (Function.LeftInverse.injective (sendIndex_reverse_sendIndex a _)) h) (getLsbD_shfl w v a)

theorem onesCount_unshfl : onesCount (unshfl w v a) = onesCount v :=
  onesCount_eq_of_source (fun _ hi => sendIndex_range_reverse_lt w a hi)
    (fun _ _ _ _ h => (Function.LeftInverse.injective (sendIndex_sendIndex_reverse a _)) h) (getLsbD_unshfl w v a)

/-- `zip` interleaves the two halves. -/
theorem getLsbD_zip {i : Nat} (hi : i < w.bits / 2) :
    (shfl w v (w.bits / 2 - 1)).getLsbD (2 * i) = v.getLsbD i ∧
    (shfl w v (w.bits / 2 - 1)).getLsbD (2 * i + 1) = v.getLsbD (w.bits / 2 + i) := by
  constructor
  · rw [getLsbD_shfl w v _ _ (by omega), sendIndex_zip w _ (by omega), if_pos (by omega)]
    congr 1
    omega
  · rw [getLsbD_shfl w v _ _ (by omega), sendIndex_zip w _ (by omega), if_neg (by omega)]
    congr 1
    omega

/-- `unzip` collects the even bits below the odd ones. -/
theorem getLsbD_unzip {i : Nat} (hi : i < w.bits / 2) :
    (unshfl w v (w.bits / 2 - 1)).getLsbD i = v.getLsbD (2 * i) ∧
    (unshfl w v (w.bits / 2 - 1)).getLsbD (w.bits / 2 + i) = v.getLsbD (2 * i + 1) := by
  constructor
  · rw [getLsbD_unshfl w v _ _ (by omega), sendIndex_unzip w _ (by omega), if_pos hi]
  · rw [getLsbD_unshfl w v _ _ (by omega), sendIndex_unzip w _ (by omega), if_neg (by omega), Nat.add_sub_cancel_left]

end

/-- The two lowest stages do not commute: one order sends bit 1 to bit 4, the other to bit 2. -/
theorem shflStage_not_comm (w : Width) :
    ∃ v : BitVec w.bits, shflStage 3 (shflStage 3 v 0) 1 ≠ shflStage 3 (shflStage 3 v 1) 0 := by
  cases w <;> exact ⟨2, by decide⟩

/-! ### The same on the low word (R114, R115, R119, R120, R126, R127) -/

section
variable {n : Nat} (v : BitVec n) {k : Nat}

theorem getLsbD_lowWord_of_lt (hk : k < 32) : (lowWord v).getLsbD k = v.getLsbD k := by
  rw [getLsbD_lowWord, decide_eq_true hk, Bool.true_and]

theorem getLsbD_grev_lowWord {a : Nat} (ha : a < 32) (hk : k < 32) :
    (grev .w32 (lowWord v) a).getLsbD k = v.getLsbD (k ^^^ a) :=
  (getLsbD_grev .w32 (lowWord v) a k ha hk).trans (getLsbD_lowWord_of_lt v (xor_lt_bits .w32 hk ha))

theorem getLsbD_gorc_lowWord (a : Nat) (hk : k < 32) : (gorc .w32 (lowWord v) a).getLsbD k =
    (List.range 32).any fun j => (k ^^^ j) &&& a == (k ^^^ j) && v.getLsbD j := by
  refine (getLsbD_gorc_eq_any .w32 (lowWord v) a hk).trans ?_
  rw [Bool.eq_iff_iff, List.any_eq_true, List.any_eq_true]
  refine exists_congr fun j => and_congr_right fun hj => ?_
  rw [getLsbD_lowWord_of_lt v (List.mem_range.mp hj)]

theorem getLsbD_shfl_lowWord (a : Nat) (hk : k < 32) :
    (shfl .w32 (lowWord v) a).getLsbD k = v.getLsbD (sendIndex a (List.range 4) k) :=
  (getLsbD_shfl .w32 (lowWord v) a k hk).trans (getLsbD_lowWord_of_lt v (sendIndex_range_lt .w32 a hk))

theorem getLsbD_unshfl_lowWord (a : Nat) (hk : k < 32) :
    (unshfl .w32 (lowWord v) a).getLsbD k = v.getLsbD (sendIndex a (List.range 4).reverse k) :=
  (getLsbD_unshfl .w32 (lowWord v) a k hk).trans (getLsbD_lowWord_of_lt v (sendIndex_range_reverse_lt .w32 a hk))

end

/-! ### The instructions, bit by bit (R112, R114, R115, R117 to R120, R122, R123, R126, R127) -/

/-- On RV64 a `*w` form completes with its word, sign-extended (D2). -/
theorem completesWith_of_word {i : Instr} {s : State} {rd : RegNum} {word : BitVec 32} {f : Nat → Bool}
    (hexec : exec i s = whenLegal i s (retire rd s (sextWord word))) (hx : s.xlen = .w64)
    (hf : ∀ k < 32, word.getLsbD k = f k) : CompletesWith i s rd (sext32 f) :=
  completesWith_of_retire (hexec.trans (whenLegal_of_wf (wf_of_xlen_w64 hx i))) fun _ hk =>
    getLsbD_sextWord_of_word hf hk

section
variable (s : State) (rd rs1 rs2 : RegNum)

theorem grev_completesWith : CompletesWith (.grev rd rs1 rs2) s rd
    fun k => s.bit rs1 (k ^^^ (s.val rs2 % s.xlen.bits)) :=
  completesWith_of_retire rfl fun k hk => by
    rw [lowBits_log2, getLsbD_grev s.xlen _ _ k (Nat.mod_lt _ (by omega)) hk]
    rfl

theorem gorc_completesWith : CompletesWith (.gorc rd rs1 rs2) s rd fun k => (List.range s.xlen.bits).any fun j =>
    (k ^^^ j) &&& (s.val rs2 % s.xlen.bits) == (k ^^^ j) && s.bit rs1 j :=
  completesWith_of_retire rfl fun k hk => by
    rw [lowBits_log2, getLsbD_gorc_eq_any s.xlen _ _ hk]
    rfl

theorem shfl_completesWith : CompletesWith (.shfl rd rs1 rs2) s rd
    fun k => s.bit rs1 (sendIndex (s.val rs2 % (s.xlen.bits / 2)) (List.range (s.xlen.log2 - 1)) k) :=
  completesWith_of_retire rfl fun k hk => by
    rw [lowBits_log2_pred, getLsbD_shfl s.xlen _ _ k hk]
    rfl

theorem unshfl_completesWith : CompletesWith (.unshfl rd rs1 rs2) s rd
    fun k => s.bit rs1 (sendIndex (s.val rs2 % (s.xlen.bits / 2)) (List.range (s.xlen.log2 - 1)).reverse k) :=
  completesWith_of_retire rfl fun k hk => by
    rw [lowBits_log2_pred, getLsbD_unshfl s.xlen _ _ k hk]
    rfl

theorem grevw_completesWith (hx : s.xlen = .w64) : CompletesWith (.grevw rd rs1 rs2) s rd
    (sext32 fun k => s.bit rs1 (k ^^^ (s.val rs2 % 32))) :=
  completesWith_of_word rfl hx fun k hk => by
    rw [lowBits_five, getLsbD_grev_lowWord _ (Nat.mod_lt _ (by decide)) hk]
    rfl

theorem greviw_completesWith (hx : s.xlen = .w64) (u : BitVec 5) : CompletesWith (.greviw rd rs1 u) s rd
    (sext32 fun k => s.bit rs1 (k ^^^ u.toNat)) :=
  completesWith_of_word rfl hx fun _ hk => getLsbD_grev_lowWord (s.get rs1) u.isLt hk

theorem gorcw_completesWith (hx : s.xlen = .w64) : CompletesWith (.gorcw rd rs1 rs2) s rd
    (sext32 fun k => (List.range 32).any fun j =>
      (k ^^^ j) &&& (s.val rs2 % 32) == (k ^^^ j) && s.bit rs1 j) :=
  completesWith_of_word rfl hx fun k hk => by
    rw [lowBits_five, getLsbD_gorc_lowWord _ _ hk]
    rfl

theorem gorciw_completesWith (hx : s.xlen = .w64) (u : BitVec 5) : CompletesWith (.gorciw rd rs1 u) s rd
    (sext32 fun k => (List.range 32).any fun j => (k ^^^ j) &&& u.toNat == (k ^^^ j) && s.bit rs1 j) :=
  completesWith_of_word rfl hx fun _ hk => getLsbD_gorc_lowWord (s.get rs1) u.toNat hk

theorem shflw_completesWith (hx : s.xlen = .w64) : CompletesWith (.shflw rd rs1 rs2) s rd
    (sext32 fun k => s.bit rs1 (sendIndex (s.val rs2 % 16) (List.range 4) k)) :=
  completesWith_of_word rfl hx fun k hk => by
    rw [lowBits_eq, getLsbD_shfl_lowWord _ _ hk]
    rfl

theorem unshflw_completesWith (hx : s.xlen = .w64) : CompletesWith (.unshflw rd rs1 rs2) s rd
    (sext32 fun k => s.bit rs1 (sendIndex (s.val rs2 % 16) (List.range 4).reverse k)) :=
  completesWith_of_word rfl hx fun k hk => by
    rw [lowBits_eq, getLsbD_unshfl_lowWord _ _ hk]
    rfl

end

/-! ### Words with a six-bit control for an instruction with a five-bit one (R80) -/

section
variable {s : State} {f6 : BitVec 6} {f3 : BitVec 3} {op : BitVec 7} {rd rs1 : RegNum} {u : BitVec 6} {i : Instr}

/-- A control below 32 makes the word of the instruction with these five bits. -/
theorem performs_wordIS6_of_lt {name : String} {f : Nat → Nat → Bool} (hu : u.toNat < 32) (hname : mnemonic i = name)
    (hargs : operands i = [abiName rd, abiName rs1, toString (u.setWidth 5).toNat])
    (hword : encode i = wordIS5 (f6 ++ 0#1) f3 op rd rs1 (u.setWidth 5)) (hwf : i.wf s.xlen = true)
    (hcompletes : CompletesWith i s rd (f (u.setWidth 5).toNat)) :
    Performs s (wordIS6 f6 f3 op rd rs1 u) i name [abiName rd, abiName rs1, toString u.toNat] rd (f u.toNat) := by
  rw [wordIS6_of_lt _ _ _ _ _ hu, ← toNat_setWidth_five_of_lt hu]
  exact performs_of_encode hname hargs hword hwf hcompletes

/-- A control of 32 or more is reserved, and one below 32 makes the word of an instruction that the XLEN may lack. -/
theorem trapsAsIllegal_wordIS6 (hkey : wordIS6 f6 f3 op 0 0 0 ∈ keysShuffle ++ keysWordAmount)
    (hword : encode i = wordIS5 (f6 ++ 0#1) f3 op rd rs1 (u.setWidth 5)) (hwf : u.toNat < 32 → i.wf s.xlen = false) :
    TrapsAsIllegal s (wordIS6 f6 f3 op rd rs1 u) := by
  by_cases hu : u.toNat < 32
  · rw [wordIS6_of_lt _ _ _ _ _ hu, ← hword]
    exact trapsAsIllegal_of_not_wf (hwf hu)
  · obtain ⟨_, hdecode⟩ := decode_wordIS6_of_reserved rd rs1 (mem_reservedBits_25 s.xlen hkey) hu
    exact trapsAsIllegal_of_decode hdecode

end

end Sys2Proof.Machine

namespace Sys2Proof

open Sys2Proof.Machine

/-- Settles O5: `grev` and `grevi` read bit `k XOR control`, and `grevi` exists exactly when its control is below XLEN. -/
theorem reversesPermuteByIndexXor : Obligations.ReversesPermuteByIndexXor := by
  intro s rd rs1 rs2 u
  have hwf : (Instr.grevi rd rs1 u).wf s.xlen = decide (u.toNat < s.xlen.bits) := Instr.wf_eq_amountFits _ rfl
  constructor
  · exact performs_of_encode rfl rfl rfl (Instr.wf_eq_amountFits _ rfl) (grev_completesWith s rd rs1 rs2)
  · split
    case isTrue hu =>
      exact performs_of_encode rfl rfl rfl (hwf.trans (decide_eq_true hu)) (grevi_completesWith s rd rs1 hu)
    case isFalse hu => exact trapsAsIllegal_of_not_wf (i := .grevi rd rs1 u) (hwf.trans (decide_eq_false hu))

/-- Settles O6: RV64 has both instructions and RV32 none; R80 takes the `greviw` words with control bit 5 set. -/
theorem wordReversesPermuteByIndexXor : Obligations.WordReversesPermuteByIndexXor := by
  intro s rd rs1 rs2 u
  refine ⟨fun hx => ⟨?grevw, ?greviw⟩, fun hx => ⟨?grevw32, ?greviw32⟩⟩
  case grevw => exact performs_of_encode rfl rfl rfl (wf_of_xlen_w64 hx _) (grevw_completesWith s rd rs1 rs2 hx)
  case greviw =>
    split
    case isTrue hu =>
      exact performs_wordIS6_of_lt (f := fun c => sext32 fun k => s.bit rs1 (k ^^^ c)) hu rfl rfl rfl
        (wf_of_xlen_w64 hx _) (greviw_completesWith s rd rs1 hx _)
    case isFalse hu =>
      exact trapsAsIllegal_wordIS6 (i := .greviw rd rs1 (u.setWidth 5)) (by decide) rfl fun h => absurd h hu
  case grevw32 => exact trapsAsIllegal_of_not_wf (i := .grevw rd rs1 rs2) (not_wf_of_xlen_w32 hx rfl)
  case greviw32 =>
    exact trapsAsIllegal_wordIS6 (i := .greviw rd rs1 (u.setWidth 5)) (by decide) rfl
      fun _ => not_wf_of_xlen_w32 hx rfl

/-- Settles O7: a reverse is an exclusive or on the indices, and the laws are those of exclusive or. -/
theorem reverseLaws : Obligations.ReverseLaws := by
  intro w v a b ha hb
  refine ⟨fun i hi => getLsbD_grev w v a i ha hi, grev_zero w v, grev_grev_same w v ha, grev_grev w v ha hb,
    fun j k hj hk => grevStage_comm w v a hj hk, onesCount_grev w v ha, ?bytes, ?bits, ?shorts, ?words, ?nibbles,
    ?bitsInBytes⟩
  case bytes => exact fun q r hq hr => getLsbD_grev_blocks w v (xor_rev8 w) hq hr
  case bits => exact fun i hi => getLsbD_grev_all w v hi
  case shorts => exact fun q r hq hr => getLsbD_grev_blocks w v (xor_rev16 w) hq hr
  case words =>
    rintro rfl r hr
    exact getLsbD_grev_thirtyTwo v hr
  case nibbles => exact fun q r hq hr => getLsbD_grev_blocks w v (xor_rev4 w) hq hr
  case bitsInBytes => exact fun q r hq hr => getLsbD_grev_seven w v hq hr

/-- Settles O8: `gorc` and `gorci` or the bits that the control reaches, and `gorci` needs a control below XLEN. -/
theorem orCombinesGatherBits : Obligations.OrCombinesGatherBits := by
  intro s rd rs1 rs2 u
  have hwf : (Instr.gorci rd rs1 u).wf s.xlen = decide (u.toNat < s.xlen.bits) := Instr.wf_eq_amountFits _ rfl
  constructor
  · exact performs_of_encode rfl rfl rfl (Instr.wf_eq_amountFits _ rfl) (gorc_completesWith s rd rs1 rs2)
  · split
    case isTrue hu =>
      exact performs_of_encode rfl rfl rfl (hwf.trans (decide_eq_true hu))
        ((gorci_completesWith s rd rs1 hu).congr fun _ hk => getLsbD_gorc_eq_any s.xlen (s.get rs1) u.toNat hk)
    case isFalse hu => exact trapsAsIllegal_of_not_wf (i := .gorci rd rs1 u) (hwf.trans (decide_eq_false hu))

/-- Settles O9: RV64 has both instructions and RV32 none; R80 takes the `gorciw` words with control bit 5 set. -/
theorem wordOrCombinesGatherBits : Obligations.WordOrCombinesGatherBits := by
  intro s rd rs1 rs2 u
  refine ⟨fun hx => ⟨?gorcw, ?gorciw⟩, fun hx => ⟨?gorcw32, ?gorciw32⟩⟩
  case gorcw => exact performs_of_encode rfl rfl rfl (wf_of_xlen_w64 hx _) (gorcw_completesWith s rd rs1 rs2 hx)
  case gorciw =>
    split
    case isTrue hu =>
      exact performs_wordIS6_of_lt
        (f := fun c => sext32 fun k => (List.range 32).any fun j => (k ^^^ j) &&& c == (k ^^^ j) && s.bit rs1 j)
        hu rfl rfl rfl (wf_of_xlen_w64 hx _) (gorciw_completesWith s rd rs1 hx _)
    case isFalse hu =>
      exact trapsAsIllegal_wordIS6 (i := .gorciw rd rs1 (u.setWidth 5)) (by decide) rfl fun h => absurd h hu
  case gorcw32 => exact trapsAsIllegal_of_not_wf (i := .gorcw rd rs1 rs2) (not_wf_of_xlen_w32 hx rfl)
  case gorciw32 =>
    exact trapsAsIllegal_wordIS6 (i := .gorciw rd rs1 (u.setWidth 5)) (by decide) rfl
      fun _ => not_wf_of_xlen_w32 hx rfl

/-- Settles O10: the indices that a control reaches from an index are closed under reaching again. -/
theorem orCombineLaws : Obligations.OrCombineLaws := by
  refine ⟨fun w v a _ => ⟨fun i hi => getLsbD_gorc w v a i hi, fun j k hj hk => gorcStage_comm w v a hj hk,
    gorc_zero w v, fun i hi => getLsbD_gorc_of_set w v a hi, gorc_gorc w v a, zero_gorc w a, gorc_all w v, ?byteFill⟩,
    gorc_all_not_injective⟩
  case byteFill =>
    intro q r hq hr
    have same_byte : (8 * q + r) / 8 = q := by omega
    rw [getLsbD_gorc_seven w v _ (by omega), same_byte]

/-- Settles O12: the control is `x[rs2] mod XLEN/2`, and a shuffle reads each bit from where the stages send its index. -/
theorem registerShufflesMoveBits : Obligations.RegisterShufflesMoveBits := by
  intro s rd rs1 rs2
  constructor
  · exact performs_of_encode rfl rfl rfl (Instr.wf_eq_amountFits _ rfl) (shfl_completesWith s rd rs1 rs2)
  · exact performs_of_encode rfl rfl rfl (Instr.wf_eq_amountFits _ rfl) (unshfl_completesWith s rd rs1 rs2)

/-- Settles O13: a control below XLEN/2 fits five bits and the XLEN; R80 reserves control bit 5 on both XLENs, and RV32
lacks the controls from 16 to 31. -/
theorem immediateShufflesMoveBits : Obligations.ImmediateShufflesMoveBits := by
  intro s rd rs1 u
  have hle := s.xlen.bits_le
  have amount_fits (i : Instr) (hi : i.amountFits s.xlen = decide ((u.setWidth 5).toNat < s.xlen.bits / 2))
      (hrv64 : i.rv64Only = false) (hu : u.toNat < 32) : i.wf s.xlen = decide (u.toNat < s.xlen.bits / 2) := by
    rw [Instr.wf_eq_amountFits _ hrv64, hi, toNat_setWidth_five_of_lt hu]
  have shfli_wf := amount_fits (.shfli rd rs1 (u.setWidth 5)) rfl rfl
  have unshfli_wf := amount_fits (.unshfli rd rs1 (u.setWidth 5)) rfl rfl
  by_cases hu : u.toNat < s.xlen.bits / 2
  · have hu32 : u.toNat < 32 := by omega
    have hu5 : (u.setWidth 5).toNat < s.xlen.bits / 2 := by rwa [toNat_setWidth_five_of_lt hu32]
    rw [if_pos hu, if_pos hu]
    constructor
    · exact performs_wordIS6_of_lt
        (f := fun c k => s.bit rs1 (sendIndex c (List.range (s.xlen.log2 - 1)) k)) hu32 rfl rfl rfl
        ((shfli_wf hu32).trans (decide_eq_true hu)) (shfli_completesWith s rd rs1 hu5)
    · exact performs_wordIS6_of_lt
        (f := fun c k => s.bit rs1 (sendIndex c (List.range (s.xlen.log2 - 1)).reverse k)) hu32 rfl rfl rfl
        ((unshfli_wf hu32).trans (decide_eq_true hu)) (unshfli_completesWith s rd rs1 hu5)
  · rw [if_neg hu, if_neg hu]
    constructor
    · exact trapsAsIllegal_wordIS6 (i := .shfli rd rs1 (u.setWidth 5)) (by decide) rfl
        fun hu32 => (shfli_wf hu32).trans (decide_eq_false hu)
    · exact trapsAsIllegal_wordIS6 (i := .unshfli rd rs1 (u.setWidth 5)) (by decide) rfl
        fun hu32 => (unshfli_wf hu32).trans (decide_eq_false hu)

/-- Settles O14: on RV64 the two shuffle the low word by `x[rs2] mod 16`; RV32 lacks them. -/
theorem wordShufflesMoveBits : Obligations.WordShufflesMoveBits := by
  intro s rd rs1 rs2
  refine ⟨fun hx => ⟨?shflw, ?unshflw⟩, fun hx => ⟨?shflw32, ?unshflw32⟩⟩
  case shflw => exact performs_of_encode rfl rfl rfl (wf_of_xlen_w64 hx _) (shflw_completesWith s rd rs1 rs2 hx)
  case unshflw => exact performs_of_encode rfl rfl rfl (wf_of_xlen_w64 hx _) (unshflw_completesWith s rd rs1 rs2 hx)
  case shflw32 => exact trapsAsIllegal_of_not_wf (i := .shflw rd rs1 rs2) (not_wf_of_xlen_w32 hx rfl)
  case unshflw32 => exact trapsAsIllegal_of_not_wf (i := .unshflw rd rs1 rs2) (not_wf_of_xlen_w32 hx rfl)

/-- Settles O15: every stage is its own inverse on the indices, so the opposite order undoes a shuffle. -/
theorem shuffleLaws : Obligations.ShuffleLaws := by
  refine ⟨fun w v a _ => ⟨?stage, fun k hk => shflStage_shflStage w v a hk,
    fun i hi => ⟨getLsbD_shfl w v a i hi, getLsbD_unshfl w v a i hi⟩, unshfl_shfl w v a, shfl_unshfl w v a,
    shfl_zero w v, unshfl_zero w v, fun k _ => shfl_two_pow w v k, onesCount_shfl w v a, onesCount_unshfl w v a,
    ?zipUnzip⟩, shflStage_not_comm⟩
  case stage =>
    intro k i hk hi hs
    rw [getLsbD_shflStage w v a k i hk hi, if_pos hs]
  case zipUnzip =>
    intro i hi
    obtain ⟨zip_even, zip_odd⟩ := getLsbD_zip w v hi
    obtain ⟨unzip_low, unzip_high⟩ := getLsbD_unzip w v hi
    exact ⟨zip_even, zip_odd, unzip_low, unzip_high⟩

end Sys2Proof
end

-- ==== Proofs: the carry-less multiply (spec/42_clmul.md) ====
section
/-! The exclusive-or sum that gives each bit of the carry-less product, its laws (R130), and the product read from its top,
which is what `clmulr` returns (R133). The six instructions take slices of the product (R131 to R136). -/

namespace Sys2Proof

theorem Width.bits_pos (w : Width) : 0 < w.bits := by cases w <;> decide

end Sys2Proof

namespace Sys2Proof.Machine

/-! ### Sums of exclusive ors -/

section
variable {n : Nat} {f : Nat → Bool}

theorem xorOver_eq_false (hf : ∀ i < n, f i = false) : xorOver n f = false := by
  induction n with
  | zero => rfl
  | succ n ih => rw [xorOver_succ, ih fun i hi => hf i (by omega), hf n (by omega), Bool.false_xor]

/-- A sum with one term that may be set is that term. -/
theorem xorOver_eq_term {j : Nat} (hj : j < n) (hf : ∀ i < n, i ≠ j → f i = false) : xorOver n f = f j := by
  induction n with
  | zero => omega
  | succ n ih =>
    rw [xorOver_succ]
    by_cases hjn : j = n
    · rw [xorOver_eq_false fun i hi => hf i (by omega) (by omega), Bool.false_xor, hjn]
    · rw [ih (by omega) fun i hi => hf i (by omega), hf n (by omega) (Ne.symm hjn), Bool.xor_false]

theorem xorOver_xor (n : Nat) (f g : Nat → Bool) : (xorOver n fun i => f i ^^ g i) = (xorOver n f ^^ xorOver n g) := by
  induction n with
  | zero => rfl
  | succ n ih =>
    rw [xorOver_succ, xorOver_succ, xorOver_succ, ih, Bool.xor_assoc, Bool.xor_assoc,
      Bool.xor_left_comm (xorOver n g)]

end

/-- A bit of the product reads the operands below N only. -/
theorem clprodBit_congr {n : Nat} {a a' b b' : Nat → Bool} (ha : ∀ i < n, a i = a' i) (hb : ∀ i < n, b i = b' i)
    (k : Nat) : clprodBit n a b k = clprodBit n a' b' k := by
  refine xorOver_congr fun i hi => ?_
  rw [ha i hi]
  by_cases hki : k - i < n
  · rw [hb _ hki]
  · rw [decide_eq_false hki, Bool.and_false, Bool.false_and, Bool.false_and]

/-! ### The laws of the product (R130) -/

section
variable {n : Nat} (a b c : BitVec n) {j k : Nat}

/-- The sum as R130's loop forms it, over the bits of the second operand. -/
theorem getLsbD_clprod_loop (hk : k < 2 * n) :
    (clprod a b).getLsbD k = xorOver n fun i => decide (i ≤ k) && (b.getLsbD i && a.getLsbD (k - i)) :=
  getLsbD_foldl_clStep a b n k hk

/-- "its bit 2N-1 is always 0": the two indices of a term are below N, so they add up to less. -/
theorem getLsbD_clprod_last (hn : 0 < n) : (clprod a b).getLsbD (2 * n - 1) = false := by
  rw [getLsbD_clprod a b _ (by omega)]
  refine xorOver_eq_false fun i hi => ?_
  have hindex : ¬ 2 * n - 1 - i < n := by omega
  rw [decide_eq_false hindex, Bool.and_false, Bool.false_and]

/-- The loop's sum and R130's are one sum with the operands' parts exchanged. -/
theorem clprod_comm : clprod a b = clprod b a := by
  apply BitVec.eq_of_getLsbD_eq
  intro k hk
  rw [getLsbD_clprod a b k hk, getLsbD_clprod_loop b a hk]
  refine xorOver_congr fun i _ => ?_
  by_cases hki : k - i < n
  · rw [decide_eq_true hki, Bool.and_true]
  · have beyond_b : b.getLsbD (k - i) = false := BitVec.getLsbD_of_ge b _ (by omega)
    simp [beyond_b]

theorem clprod_zero : clprod a 0#n = 0#(2 * n) := by
  apply BitVec.eq_of_getLsbD_eq
  intro k hk
  rw [getLsbD_clprod_loop a _ hk, BitVec.getLsbD_zero]
  exact xorOver_eq_false fun i _ => by rw [BitVec.getLsbD_zero, Bool.false_and, Bool.and_false]

/-- The power x^j shifts by j: one bit of it is set, so one term is left of the sum. -/
theorem clprod_twoPow (hj : j < n) : clprod a (BitVec.twoPow n j) = a.setWidth (2 * n) <<< j := by
  apply BitVec.eq_of_getLsbD_eq
  intro k hk
  have one_term : ∀ i < n, i ≠ j →
      (decide (i ≤ k) && ((BitVec.twoPow n j).getLsbD i && a.getLsbD (k - i))) = false := by
    intro i _ hij
    simp [BitVec.getLsbD_twoPow, Ne.symm hij]
  rw [getLsbD_clprod_loop a _ hk, xorOver_eq_term hj one_term, BitVec.getLsbD_shiftLeft, BitVec.getLsbD_setWidth]
  by_cases hjk : j ≤ k
  · have hkj : k - j < 2 * n := by omega
    simp [hj, hjk, hk, hkj, Nat.not_lt.mpr hjk]
  · simp [hjk, Nat.lt_of_not_le hjk]

theorem clprod_one (hn : 0 < n) : clprod a 1#n = a.setWidth (2 * n) := by
  rw [← BitVec.twoPow_zero, clprod_twoPow a hn, BitVec.shiftLeft_zero]

theorem xor_clprod : clprod (a ^^^ c) b = clprod a b ^^^ clprod c b := by
  apply BitVec.eq_of_getLsbD_eq
  intro k hk
  rw [BitVec.getLsbD_xor, getLsbD_clprod_loop _ b hk, getLsbD_clprod_loop a b hk, getLsbD_clprod_loop c b hk,
    ← xorOver_xor]
  refine xorOver_congr fun i _ => ?_
  rw [BitVec.getLsbD_xor, Bool.and_xor_distrib_left, Bool.and_xor_distrib_left]

/-! ### The parts of the product (R131 to R133) -/

/-- The high half above the low half is the full product (R132). -/
theorem clprod_eq_high_append_low : clprod a b = BitVec.setWidth (2 * n) (clmulHigh a b ++ clmulLow a b) := by
  apply BitVec.eq_of_getLsbD_eq
  intro k hk
  rw [BitVec.getLsbD_setWidth, decide_eq_true hk, Bool.true_and, BitVec.getLsbD_append]
  by_cases hkn : k < n
  · rw [if_pos hkn, getLsbD_clmulLow a b k hkn, getLsbD_clprod a b k hk]
  · rw [if_neg hkn, getLsbD_clmulHigh a b _ (by omega), getLsbD_clprod a b k hk, Nat.add_sub_cancel' (by omega)]

/-- `clmulr` is the high half with the top bit of the low half shifted in (R133). -/
theorem clmulRev_eq_high_or_low (hn : 0 < n) :
    clmulRev a b = (clmulHigh a b <<< 1) ||| (clmulLow a b >>> (n - 1)) := by
  apply BitVec.eq_of_getLsbD_eq
  intro k hk
  rw [BitVec.getLsbD_or, BitVec.getLsbD_shiftLeft, BitVec.getLsbD_ushiftRight, getLsbD_clmulRev a b k hk]
  cases k with
  | zero => simp [getLsbD_clmulLow a b (n - 1) (by omega)]
  | succ k =>
    have beyond_low : (clmulLow a b).getLsbD (n - 1 + (k + 1)) = false := BitVec.getLsbD_of_ge _ _ (by omega)
    have index : n - 1 + (k + 1) = n + k := by omega
    rw [beyond_low, index, Nat.add_sub_cancel, getLsbD_clmulHigh a b k (by omega)]
    simp [hk]

end

/-- Reversing both operands reverses the product: its bit N-1-k is bit N-1+k of the product itself. -/
theorem clprodBit_reverse {n : Nat} (a b : BitVec n) {k : Nat} (hk : k < n) :
    clprodBit n (fun i => a.getLsbD (n - 1 - i)) (fun i => b.getLsbD (n - 1 - i)) (n - 1 - k) =
      clprodBit n (fun i => a.getLsbD i) (fun i => b.getLsbD i) (n - 1 + k) := by
  unfold clprodBit
  rw [xorOver_reflect (fun i => decide (i ≤ n - 1 + k) && decide (n - 1 + k - i < n) &&
    (a.getLsbD i && b.getLsbD (n - 1 + k - i))) (n - 1)]
  · refine xorOver_congr fun i hi => ?_
    by_cases hik : i ≤ n - 1 - k
    · have partner : n - 1 + k - (n - 1 - i) = n - 1 - (n - 1 - k - i) := by omega
      have in_range : n - 1 - k - i < n ∧ n - 1 - (n - 1 - k - i) < n ∧ i ≤ n - 1 ∧ n - 1 - i ≤ n - 1 + k := by
        omega
      simp [partner, in_range, hik]
    · have out_of_range : ¬ n - 1 + k - (n - 1 - i) < n := by omega
      simp [hik, out_of_range]
  · intro i hi
    rw [BitVec.getLsbD_of_ge a i (by omega), Bool.false_and, Bool.and_false]

/-- `clmulr` is the low product of the reversed operands, reversed, which is why it is called so (R133). -/
theorem clmulRev_eq_grev_clmulLow (w : Width) (a b : BitVec w.bits) : clmulRev a b =
    grev w (clmulLow (grev w a (w.bits - 1)) (grev w b (w.bits - 1))) (w.bits - 1) := by
  apply BitVec.eq_of_getLsbD_eq
  intro k hk
  rw [getLsbD_clmulRev a b k hk, getLsbD_grev_all w _ hk, getLsbD_clmulLow _ _ _ (by omega),
    clprodBit_congr (fun _ hi => getLsbD_grev_all w a hi) (fun _ hi => getLsbD_grev_all w b hi),
    clprodBit_reverse a b hk]

/-! ### The instructions, bit by bit (R131 to R136) -/

/-- The product of low words, from the bits of the whole registers. -/
theorem clprodBit_lowWord {n : Nat} (a b : BitVec n) (k : Nat) :
    clprodBit 32 (fun i => (lowWord a).getLsbD i) (fun i => (lowWord b).getLsbD i) k =
      clprodBit 32 (fun i => a.getLsbD i) (fun i => b.getLsbD i) k :=
  clprodBit_congr (fun _ hi => getLsbD_lowWord_of_lt a hi) (fun _ hi => getLsbD_lowWord_of_lt b hi) k

section
variable (s : State) (rd rs1 rs2 : RegNum)

theorem clmul_completesWith : CompletesWith (.clmul rd rs1 rs2) s rd
    fun k => clprodBit s.xlen.bits (s.bit rs1) (s.bit rs2) k :=
  completesWith_of_retire rfl fun k hk => getLsbD_clmulLow (s.get rs1) (s.get rs2) k hk

theorem clmulh_completesWith : CompletesWith (.clmulh rd rs1 rs2) s rd
    fun k => clprodBit s.xlen.bits (s.bit rs1) (s.bit rs2) (s.xlen.bits + k) :=
  completesWith_of_retire rfl fun k hk => getLsbD_clmulHigh (s.get rs1) (s.get rs2) k hk

theorem clmulr_completesWith : CompletesWith (.clmulr rd rs1 rs2) s rd
    fun k => clprodBit s.xlen.bits (s.bit rs1) (s.bit rs2) (s.xlen.bits - 1 + k) :=
  completesWith_of_retire rfl fun k hk => getLsbD_clmulRev (s.get rs1) (s.get rs2) k hk

theorem clmulw_completesWith (hx : s.xlen = .w64) : CompletesWith (.clmulw rd rs1 rs2) s rd
    (sext32 fun k => clprodBit 32 (s.bit rs1) (s.bit rs2) k) :=
  completesWith_of_word rfl hx fun k hk => (getLsbD_clmulLow _ _ k hk).trans (clprodBit_lowWord _ _ k)

theorem clmulhw_completesWith (hx : s.xlen = .w64) : CompletesWith (.clmulhw rd rs1 rs2) s rd
    (sext32 fun k => clprodBit 32 (s.bit rs1) (s.bit rs2) (32 + k)) :=
  completesWith_of_word rfl hx fun k hk => (getLsbD_clmulHigh _ _ k hk).trans (clprodBit_lowWord _ _ (32 + k))

theorem clmulrw_completesWith (hx : s.xlen = .w64) : CompletesWith (.clmulrw rd rs1 rs2) s rd
    (sext32 fun k => clprodBit 32 (s.bit rs1) (s.bit rs2) (31 + k)) :=
  completesWith_of_word rfl hx fun k hk => (getLsbD_clmulRev _ _ k hk).trans (clprodBit_lowWord _ _ (31 + k))

end

end Sys2Proof.Machine

namespace Sys2Proof

open Sys2Proof.Machine

/-- Settles O16: each instruction retires its slice of the product, whose bits are R130's sums. -/
theorem carrylessMultiplies : Obligations.CarrylessMultiplies := by
  intro s rd rs1 rs2
  refine ⟨?clmul, ?clmulh, ?clmulr⟩
  case clmul => exact performs_of_encode rfl rfl rfl (Instr.wf_eq_amountFits _ rfl) (clmul_completesWith s rd rs1 rs2)
  case clmulh => exact performs_of_encode rfl rfl rfl (Instr.wf_eq_amountFits _ rfl) (clmulh_completesWith s rd rs1 rs2)
  case clmulr => exact performs_of_encode rfl rfl rfl (Instr.wf_eq_amountFits _ rfl) (clmulr_completesWith s rd rs1 rs2)

/-- Settles O17: on RV64 the three take slices of the product of the low words; RV32 lacks them. -/
theorem wordCarrylessMultiplies : Obligations.WordCarrylessMultiplies := by
  intro s rd rs1 rs2
  refine ⟨fun hx => ⟨?clmulw, ?clmulhw, ?clmulrw⟩, fun hx => ⟨?clmulw32, ?clmulhw32, ?clmulrw32⟩⟩
  case clmulw => exact performs_of_encode rfl rfl rfl (wf_of_xlen_w64 hx _) (clmulw_completesWith s rd rs1 rs2 hx)
  case clmulhw => exact performs_of_encode rfl rfl rfl (wf_of_xlen_w64 hx _) (clmulhw_completesWith s rd rs1 rs2 hx)
  case clmulrw => exact performs_of_encode rfl rfl rfl (wf_of_xlen_w64 hx _) (clmulrw_completesWith s rd rs1 rs2 hx)
  case clmulw32 => exact trapsAsIllegal_of_not_wf (i := .clmulw rd rs1 rs2) (not_wf_of_xlen_w32 hx rfl)
  case clmulhw32 => exact trapsAsIllegal_of_not_wf (i := .clmulhw rd rs1 rs2) (not_wf_of_xlen_w32 hx rfl)
  case clmulrw32 => exact trapsAsIllegal_of_not_wf (i := .clmulrw rd rs1 rs2) (not_wf_of_xlen_w32 hx rfl)

/-- Settles O18: each law of the product is one of the exclusive-or sums that are its bits. -/
theorem carrylessProductLaws : Obligations.CarrylessProductLaws := by
  intro w a b c
  exact ⟨getLsbD_clprod a b, getLsbD_clprod_last a b w.bits_pos, clprod_comm a b, clprod_zero a,
    clprod_one a w.bits_pos, fun _ hj => clprod_twoPow a hj, xor_clprod a b c⟩

/-- Settles O19: the bits of `clmulr` are those of the product from N-1 up, which reversing the operands brings down. -/
theorem reversedCarrylessMultiply : Obligations.ReversedCarrylessMultiply := by
  intro w a b
  exact ⟨clmulRev_eq_high_or_low a b w.bits_pos, clmulRev_eq_grev_clmulLow w a b, clprod_eq_high_append_low a b⟩

end Sys2Proof
end

-- ==== Proofs: the logic with negate (spec/43_logic_with_negate.md) ====
section
/-! The second operand is complemented, bit by bit, before the operation (R140 to R142). -/

namespace Sys2Proof.Machine

/-- An exclusive or with a complemented bit is the equality of the two bits, which is why the draft's name for `xorn` is
`xnor` (R142). -/
theorem xor_not_eq_beq (a b : Bool) : (a ^^ !b) = (a == b) := by
  cases a with
  | false => rw [Bool.false_xor, Bool.false_beq]
  | true => rw [Bool.true_xor, Bool.not_not, Bool.true_beq]

/-- The complement inverts the bits below XLEN only: those above it read false in a register and in its complement. -/
theorem State.getLsbD_not_get (s : State) (r : RegNum) {k : Nat} (hk : k < s.xlen.bits) :
    (~~~s.get r).getLsbD k = !s.bit r k := by
  rw [BitVec.getLsbD_not, decide_eq_true hk, Bool.true_and]
  rfl

section
variable (s : State) (rd rs1 rs2 : RegNum)

theorem andn_completesWith : CompletesWith (.andn rd rs1 rs2) s rd fun k => s.bit rs1 k && !s.bit rs2 k :=
  completesWith_of_retire rfl fun k hk => by
    rw [BitVec.getLsbD_and, s.getLsbD_not_get rs2 hk]
    rfl

theorem orn_completesWith : CompletesWith (.orn rd rs1 rs2) s rd fun k => s.bit rs1 k || !s.bit rs2 k :=
  completesWith_of_retire rfl fun k hk => by
    rw [BitVec.getLsbD_or, s.getLsbD_not_get rs2 hk]
    rfl

theorem xorn_completesWith : CompletesWith (.xorn rd rs1 rs2) s rd fun k => s.bit rs1 k == s.bit rs2 k :=
  completesWith_of_retire rfl fun k hk => by
    rw [BitVec.getLsbD_xor, s.getLsbD_not_get rs2 hk, xor_not_eq_beq]
    rfl

end

end Sys2Proof.Machine

namespace Sys2Proof

open Sys2Proof.Machine

/-- Settles O20: each instruction retires its operation on `x[rs1]` and the complement of `x[rs2]`. -/
theorem logicWithNegate : Obligations.LogicWithNegate := by
  intro s rd rs1 rs2
  refine ⟨?andn, ?orn, ?xorn⟩
  case andn => exact performs_of_encode rfl rfl rfl (Instr.wf_eq_amountFits _ rfl) (andn_completesWith s rd rs1 rs2)
  case orn => exact performs_of_encode rfl rfl rfl (Instr.wf_eq_amountFits _ rfl) (orn_completesWith s rd rs1 rs2)
  case xorn => exact performs_of_encode rfl rfl rfl (Instr.wf_eq_amountFits _ rfl) (xorn_completesWith s rd rs1 rs2)

end Sys2Proof
end

-- ==== Proofs: the packing instructions (spec/44_packing.md) ====
section
/-! `x[rs1]` gives the lower part of the result and `x[rs2]` the upper (R145 to R147); the `*w` forms are RV32's `pack` and
`packu` on the low words (R148, R149). -/

namespace Sys2Proof.Machine

/-! ### RV32's helpers on the low word (R148, R149) -/

section
variable {n : Nat} (a b : BitVec n) {k : Nat}

/-- Every index that RV32's `pack` reads is below 32, so the low words have there the bits of the whole registers. -/
theorem getLsbD_packLow_lowWord (hk : k < 32) : (packLow (lowWord a) (lowWord b)).getLsbD k =
    if k < 16 then a.getLsbD k else b.getLsbD (k - 16) := by
  have hupper : k - 16 < 32 := by omega
  calc (packLow (lowWord a) (lowWord b)).getLsbD k
      = if k < 16 then (lowWord a).getLsbD k else (lowWord b).getLsbD (k - 16) :=
        getLsbD_packLow .w32 (lowWord a) (lowWord b) k hk
    _ = if k < 16 then a.getLsbD k else b.getLsbD (k - 16) := by
        rw [getLsbD_lowWord_of_lt a hk, getLsbD_lowWord_of_lt b hupper]

/-- RV32's `packu` reads index k + 16 only for k below 16. -/
theorem getLsbD_packHigh_lowWord (hk : k < 32) : (packHigh (lowWord a) (lowWord b)).getLsbD k =
    if k < 16 then a.getLsbD (k + 16) else b.getLsbD k := by
  calc (packHigh (lowWord a) (lowWord b)).getLsbD k
      = if k < 16 then (lowWord a).getLsbD (k + 16) else (lowWord b).getLsbD k :=
        getLsbD_packHigh .w32 (lowWord a) (lowWord b) k hk
    _ = if k < 16 then a.getLsbD (k + 16) else b.getLsbD k :=
        ite_congr rfl (fun hlower => getLsbD_lowWord_of_lt a (by omega)) fun _ => getLsbD_lowWord_of_lt b hk

end

/-! ### The instructions, bit by bit (R145 to R149) -/

section
variable (s : State) (rd rs1 rs2 : RegNum)

theorem pack_completesWith : CompletesWith (.pack rd rs1 rs2) s rd
    fun k => if k < s.xlen.bits / 2 then s.bit rs1 k else s.bit rs2 (k - s.xlen.bits / 2) :=
  completesWith_of_retire rfl fun k hk => getLsbD_packLow s.xlen (s.get rs1) (s.get rs2) k hk

theorem packu_completesWith : CompletesWith (.packu rd rs1 rs2) s rd
    fun k => if k < s.xlen.bits / 2 then s.bit rs1 (k + s.xlen.bits / 2) else s.bit rs2 k :=
  completesWith_of_retire rfl fun k hk => getLsbD_packHigh s.xlen (s.get rs1) (s.get rs2) k hk

theorem packh_completesWith : CompletesWith (.packh rd rs1 rs2) s rd
    fun k => if k < 8 then s.bit rs1 k else if k < 16 then s.bit rs2 (k - 8) else false :=
  completesWith_of_retire rfl fun k hk => by
    rw [getLsbD_packBytes (s.get rs1) (s.get rs2) k hk, Bool.if_false_right]
    rfl

theorem packw_completesWith (hx : s.xlen = .w64) : CompletesWith (.packw rd rs1 rs2) s rd
    (sext32 fun k => if k < 16 then s.bit rs1 k else s.bit rs2 (k - 16)) :=
  completesWith_of_word rfl hx fun _ hk => getLsbD_packLow_lowWord (s.get rs1) (s.get rs2) hk

theorem packuw_completesWith (hx : s.xlen = .w64) : CompletesWith (.packuw rd rs1 rs2) s rd
    (sext32 fun k => if k < 16 then s.bit rs1 (k + 16) else s.bit rs2 k) :=
  completesWith_of_word rfl hx fun _ hk => getLsbD_packHigh_lowWord (s.get rs1) (s.get rs2) hk

end

end Sys2Proof.Machine

namespace Sys2Proof

open Sys2Proof.Machine

/-- Settles O21: each instruction retires its concatenation, `x[rs1]`'s part below `x[rs2]`'s. -/
theorem packsJoinHalves : Obligations.PacksJoinHalves := by
  intro s rd rs1 rs2
  refine ⟨?pack, ?packu, ?packh⟩
  case pack => exact performs_of_encode rfl rfl rfl (Instr.wf_eq_amountFits _ rfl) (pack_completesWith s rd rs1 rs2)
  case packu => exact performs_of_encode rfl rfl rfl (Instr.wf_eq_amountFits _ rfl) (packu_completesWith s rd rs1 rs2)
  case packh => exact performs_of_encode rfl rfl rfl (Instr.wf_eq_amountFits _ rfl) (packh_completesWith s rd rs1 rs2)

/-- Settles O22: on RV64 both pack halfwords of the low words, sign-extended; RV32 lacks them. -/
theorem wordPacksJoinHalves : Obligations.WordPacksJoinHalves := by
  intro s rd rs1 rs2
  refine ⟨fun hx => ⟨?packw, ?packuw⟩, fun hx => ⟨?packw32, ?packuw32⟩⟩
  case packw => exact performs_of_encode rfl rfl rfl (wf_of_xlen_w64 hx _) (packw_completesWith s rd rs1 rs2 hx)
  case packuw => exact performs_of_encode rfl rfl rfl (wf_of_xlen_w64 hx _) (packuw_completesWith s rd rs1 rs2 hx)
  case packw32 => exact trapsAsIllegal_of_not_wf (i := .packw rd rs1 rs2) (not_wf_of_xlen_w32 hx rfl)
  case packuw32 => exact trapsAsIllegal_of_not_wf (i := .packuw rd rs1 rs2) (not_wf_of_xlen_w32 hx rfl)

end Sys2Proof
end

-- ==== Proofs: the crossbar permutation (spec/45_xperm.md) ====
section
/-! A register read as a vector is determined by its elements; `xperm_N_w` looks each element up (R155), and the two
instructions retire it on nibbles (R156) and on bytes (R157). -/

namespace Sys2Proof

/-- Whole nibbles, and whole bytes, fill a register. -/
theorem Width.elementSize_dvd_bits (x : Width) {w : Nat} (hw : w = 4 ∨ w = 8) : w ∣ x.bits := by
  rcases hw with rfl | rfl
  · cases x <;> decide
  · cases x <;> decide

end Sys2Proof

namespace Sys2Proof.Machine

/-! ### A register as a vector of elements (R155) -/

section
variable {n w : Nat}

theorem getLsbD_element (v : BitVec n) (i : Nat) {j : Nat} (hj : j < w) :
    (element w v i).getLsbD j = v.getLsbD (w * i + j) := by
  rw [element, BitVec.getLsbD_extractLsb', decide_eq_true hj, Bool.true_and]

theorem element_zero (w i : Nat) : element w (0#n) i = 0#w := by
  apply BitVec.eq_of_toNat_eq
  rw [element_toNat, BitVec.toNat_ofNat, BitVec.toNat_ofNat, Nat.zero_mod, Nat.zero_div, Nat.zero_mod]

/-- Bit `j` of an element that the register has is a bit of the register. -/
theorem mul_add_lt_of_lt_div {i j : Nat} (hi : i < n / w) (hj : j < w) : w * i + j < n :=
  calc w * i + j < w * (i + 1) := Nat.add_lt_add_left hj _
    _ ≤ w * (n / w) := Nat.mul_le_mul_left w hi
    _ ≤ n := Nat.mul_div_le n w

/-- Where the elements fill the register, two registers with the same elements are equal: bit `k` is bit `k % w` of
element `k / w`. -/
theorem eq_of_element_eq (hw : 0 < w) (hd : w ∣ n) {u v : BitVec n}
    (h : ∀ i < n / w, element w u i = element w v i) : u = v := by
  have bit_eq (t : BitVec n) (k : Nat) : t.getLsbD k = (element w t (k / w)).getLsbD (k % w) := by
    rw [getLsbD_element t _ (Nat.mod_lt k hw), Nat.div_add_mod]
  apply BitVec.eq_of_getLsbD_eq
  intro k hk
  rw [bit_eq u, bit_eq v, h (k / w) (Nat.div_lt_div_of_lt_of_dvd hd hk)]

end

/-! ### The lookup, bit by bit and element by element (R155) -/

section
variable {n w : Nat} (hw : 0 < w) (hd : w ∣ n) (a b : BitVec n)
include hw hd

/-- The index of bit `k` is digit `k / w` of `b` to the base `2 ^ w`. -/
theorem getLsbD_xperm_digit {k : Nat} (hk : k < n) : (xperm w a b).getLsbD k =
    if b.toNat / (2 ^ w) ^ (k / w) % 2 ^ w < n / w
    then a.getLsbD (w * (b.toNat / (2 ^ w) ^ (k / w) % 2 ^ w) + k % w) else false := by
  rw [getLsbD_xperm w a b k hw hd hk, Nat.pow_mul, Bool.if_false_right]

theorem element_xperm {i : Nat} (hi : i < n / w) : element w (xperm w a b) i =
    if (element w b i).toNat < n / w then element w a (element w b i).toNat else 0#w := by
  apply BitVec.eq_of_getLsbD_eq
  intro j hj
  have hquot : (w * i + j) / w = i := by rw [Nat.mul_add_div hw, Nat.div_eq_of_lt hj, Nat.add_zero]
  have hrem : (w * i + j) % w = j := by rw [Nat.mul_add_mod, Nat.mod_eq_of_lt hj]
  rw [getLsbD_element _ i hj, getLsbD_xperm w a b _ hw hd (mul_add_lt_of_lt_div hi hj), hquot, hrem,
    ← element_toNat]
  split
  case isTrue hidx => rw [decide_eq_true hidx, Bool.true_and, getLsbD_element a _ hj]
  case isFalse hidx => rw [decide_eq_false hidx, Bool.false_and, BitVec.getLsbD_zero]

/-- Where index `i` names element `i`, every element stays in its place. -/
theorem xperm_identity (hb : ∀ i < n / w, (element w b i).toNat = i) : xperm w a b = a := by
  apply eq_of_element_eq hw hd
  intro i hi
  rw [element_xperm hw hd a b hi, hb i hi, if_pos hi]

/-- Every element of a zero table is the zero that an index out of bounds gives. -/
theorem xperm_zero_table : xperm w (0#n) b = 0#n := by
  apply eq_of_element_eq hw hd
  intro i hi
  rw [element_xperm hw hd _ b hi, element_zero, element_zero, ite_self]

/-- Zero indexes name element 0, which the table has. -/
theorem element_xperm_zero_index {i : Nat} (hi : i < n / w) : element w (xperm w a (0#n)) i = element w a 0 := by
  have hindex : (element w (0#n) i).toNat = 0 := by rw [element_zero]; rfl
  rw [element_xperm hw hd a _ hi, hindex, if_pos (Nat.zero_lt_of_lt hi)]

end

/-! ### The instructions, bit by bit (R156, R157) -/

section
variable (s : State) (rd rs1 rs2 : RegNum)

theorem xpermN_completesWith : CompletesWith (.xpermN rd rs1 rs2) s rd
    fun k => if s.val rs2 / 16 ^ (k / 4) % 16 < s.xlen.bits / 4
      then s.bit rs1 (4 * (s.val rs2 / 16 ^ (k / 4) % 16) + k % 4) else false :=
  completesWith_of_retire rfl fun _ hk =>
    getLsbD_xperm_digit (w := 4) (by decide) (s.xlen.elementSize_dvd_bits (.inl rfl)) (s.get rs1) (s.get rs2) hk

theorem xpermB_completesWith : CompletesWith (.xpermB rd rs1 rs2) s rd
    fun k => if s.val rs2 / 256 ^ (k / 8) % 256 < s.xlen.bits / 8
      then s.bit rs1 (8 * (s.val rs2 / 256 ^ (k / 8) % 256) + k % 8) else false :=
  completesWith_of_retire rfl fun _ hk =>
    getLsbD_xperm_digit (w := 8) (by decide) (s.xlen.elementSize_dvd_bits (.inr rfl)) (s.get rs1) (s.get rs2) hk

end

end Sys2Proof.Machine

namespace Sys2Proof

open Sys2Proof.Machine

/-- Settles O23: each instruction retires the lookup of `x[rs2]`'s digits, to the base 16 or 256, in `x[rs1]`. -/
theorem crossbarsLookUpElements : Obligations.CrossbarsLookUpElements := by
  intro s rd rs1 rs2
  constructor
  · exact performs_of_encode rfl rfl rfl (Instr.wf_eq_amountFits _ rfl) (xpermN_completesWith s rd rs1 rs2)
  · exact performs_of_encode rfl rfl rfl (Instr.wf_eq_amountFits _ rfl) (xpermB_completesWith s rd rs1 rs2)

/-- Settles O24: the lookup of each element, and from it, element by element, the three special operands. -/
theorem crossbarLaws : Obligations.CrossbarLaws := by
  intro x w a b hsize
  have hw : 0 < w := by omega
  have hd : w ∣ x.bits := x.elementSize_dvd_bits hsize
  exact ⟨fun _ hi => element_xperm hw hd a b hi, xperm_identity hw hd a b, xperm_zero_table hw hd b,
    fun _ hi => element_xperm_zero_index hw hd a hi⟩

end Sys2Proof
end

-- ==== Proofs: the companion base instructions (spec/46_base_companion.md) ====
section
/-! The companion instructions bit by bit (R161 to R165), the two outcomes of `jalr` with `ret` (R167, R168), and the
value that each expansion of `li` builds up in `rd` (R166). -/

namespace Sys2Proof.Machine

/-! ### The computing instructions (R161 to R165) -/

section
variable (s : State) (rd rs1 rs2 : RegNum)

theorem lui_completesWith (imm : BitVec 20) : CompletesWith (.lui rd imm) s rd
    (sext32 fun k => if k < 12 then false else imm.getLsbD (k - 12)) :=
  completesWith_of_retire rfl fun k hk => getLsbD_immU imm k hk

theorem addi_completesWith (imm : BitVec 12) : CompletesWith (.addi rd rs1 imm) s rd
    fun k => (((s.val rs1 : Int) + imm.toInt) % (2 ^ s.xlen.bits : Nat)).toNat.testBit k :=
  completesWith_of_retire rfl fun k _ => by
    rw [← BitVec.testBit_toNat, add_immI_toNat]
    rfl

theorem slli_completesWith {u : BitVec 6} (hu : u.toNat < s.xlen.bits) : CompletesWith (.slli rd rs1 u) s rd
    fun k => if k < u.toNat then false else s.bit rs1 (k - u.toNat) :=
  completesWith_of_retire (whenLegal_of_amountFits rfl (decide_eq_true hu)) fun k hk => by
    rw [BitVec.getLsbD_shiftLeft, decide_eq_true hk, Bool.true_and, Bool.if_false_left]
    rfl

theorem xor_completesWith : CompletesWith (.xor rd rs1 rs2) s rd fun k => s.bit rs1 k ^^ s.bit rs2 k :=
  completesWith_of_retire rfl fun _ _ => BitVec.getLsbD_xor

theorem or_completesWith : CompletesWith (.or rd rs1 rs2) s rd fun k => s.bit rs1 k || s.bit rs2 k :=
  completesWith_of_retire rfl fun _ _ => BitVec.getLsbD_or

end

/-! ### The jump (R168) -/

/-- Clearing bit 0 takes away the remainder by 2, and no bit above. -/
theorem toNat_and_not_one {n : Nat} (v : BitVec n) : (v &&& ~~~1).toNat = v.toNat - v.toNat % 2 := by
  have halved : v.toNat - v.toNat % 2 = 2 ^ 1 * (v.toNat / 2 ^ 1) := by omega
  rw [halved]
  apply Nat.eq_of_testBit_eq
  intro k
  rw [Nat.testBit_two_pow_mul, Nat.testBit_div_two_pow, BitVec.testBit_toNat, BitVec.testBit_toNat, BitVec.getLsbD_and,
    BitVec.getLsbD_not, BitVec.ofNat_eq_ofNat, BitVec.getLsbD_one]
  by_cases hkn : k < n
  · cases k with
    | zero => simp [hkn]
    | succ k => simp [hkn]
  · rw [BitVec.getLsbD_of_ge v k (by omega), BitVec.getLsbD_of_ge v _ (by omega)]
    simp

section
variable {s : State} {rd rs1 : RegNum} {imm : BitVec 12}

theorem exec_jalr_of_misaligned (h : (jalrTarget rs1 imm s).toNat.testBit 1 = true) :
    exec (.jalr rd rs1 imm) s =
      .fault (.trap .instructionAddressMisaligned s.pc.toNat (jalrTarget rs1 imm s).toNat) := by
  rw [BitVec.testBit_toNat] at h
  exact if_pos h

theorem exec_jalr_of_aligned (h : (jalrTarget rs1 imm s).toNat.testBit 1 = false) :
    exec (.jalr rd rs1 imm) s = .next (s.commit rd s.nextPc (jalrTarget rs1 imm s)) := by
  rw [BitVec.testBit_toNat] at h
  exact if_neg (by rw [h]; decide)

end

theorem jalrTarget_toNat (rs1 : RegNum) (imm : BitVec 12) (s : State) : (jalrTarget rs1 imm s).toNat =
    (((s.val rs1 : Int) + imm.toInt) % (2 ^ s.xlen.bits : Nat)).toNat -
      (((s.val rs1 : Int) + imm.toInt) % (2 ^ s.xlen.bits : Nat)).toNat % 2 := by
  rw [jalrTarget, toNat_and_not_one, add_immI_toNat]
  rfl

/-- With a zero immediate the target is the register itself with bit 0 cleared (R167). -/
theorem jalrTarget_zero_toNat (rs1 : RegNum) (s : State) :
    (jalrTarget rs1 0 s).toNat = s.val rs1 - s.val rs1 % 2 := by
  have no_wrap : (((s.val rs1 : Int) + (0 : BitVec 12).toInt) % (2 ^ s.xlen.bits : Nat)).toNat = s.val rs1 := by
    rw [show (0 : BitVec 12).toInt = 0 from rfl, Int.add_zero, ← Int.natCast_emod, Int.toNat_natCast, State.val,
      Nat.mod_eq_of_lt (s.get rs1).isLt]
  rw [jalrTarget_toNat, no_wrap]

/-- Bit 1 is above the bit that is cleared. -/
theorem testBit_one_sub_mod_two (a : Nat) : (a - a % 2).testBit 1 = a.testBit 1 := by
  rw [Nat.testBit_eq_decide_div_mod_eq, Nat.testBit_eq_decide_div_mod_eq, show (a - a % 2) / 2 ^ 1 = a / 2 ^ 1 by omega]

theorem State.val_commit_same (s : State) (rd : RegNum) (v next : BitVec s.xlen.bits) (h : rd ≠ 0#5) :
    (s.commit rd v next).val rd = v.toNat := by
  rw [State.val, State.get_commit_same s rd v next h]
  rfl

theorem State.val_zero (s : State) : s.val 0#5 = 0 := by
  rw [State.val, State.get_zero, BitVec.toNat_ofNat, Nat.zero_mod]

/-! ### Sequences that build a value up in one register -/

/-- The next write to the same register is the one that stays. -/
theorem RegFile.write_write {n : Nat} (f : RegFile n) (i : RegNum) (v w : BitVec n) :
    RegFile.write (RegFile.write f i v) i w = RegFile.write f i w := by
  unfold RegFile.write
  split
  case isTrue => rfl
  case isFalse => exact Vector.set_set v _

/-- Rewriting `rd` from what it holds: `f v` stands there at the end, or nothing where `rd` is x0 (R21). -/
theorem State.commit_commit_get (s : State) (rd : RegNum) (v next next' : BitVec s.xlen.bits)
    (f : BitVec s.xlen.bits → BitVec s.xlen.bits) :
    (s.commit rd v next).commit rd (f ((s.commit rd v next).get rd)) next' = s.commit rd (f v) next' := by
  by_cases hrd : rd = 0#5
  · subst hrd
    simp [State.commit]
  · rw [State.get_commit_same s rd v next hrd]
    simp only [State.commit, RegFile.write_write]

theorem State.pc_add_toNat (s : State) (n : Nat) :
    (s.pc + BitVec.ofNat s.xlen.bits n).toNat = (s.pc.toNat + n) % 2 ^ s.xlen.bits := by
  rw [BitVec.toNat_add, BitVec.toNat_ofNat, Nat.add_mod_mod]

/-- Run at `s`, the sequence completes with `v` in `rd`, pc moved on by 4 for each instruction and no other change. -/
def RunsTo (is : List Instr) (s : State) (rd : RegNum) (v : BitVec s.xlen.bits) : Prop :=
  execSeq is s = .next (s.commit rd v (s.pc + BitVec.ofNat _ (4 * is.length)))

theorem execSeq_cons_of_next {i : Instr} {s t : State} (h : exec i s = .next t) (is : List Instr) :
    execSeq (i :: is) s = execSeq is t := by
  rw [execSeq, h]

theorem execSeq_append {is js : List Instr} {s t : State} (h : execSeq is s = .next t) :
    execSeq (is ++ js) s = execSeq js t := by
  induction is generalizing s with
  | nil => rw [List.nil_append, Host.Outcome.next.inj h]
  | cons i is ih =>
    cases hi : exec i s with
    | next u =>
      rw [execSeq_cons_of_next hi] at h
      rw [List.cons_append, execSeq_cons_of_next hi, ih h]
    | fault | refused =>
      rw [execSeq, hi] at h
      exact nomatch h

section
variable {s : State} {rd : RegNum} {is : List Instr} {v : BitVec s.xlen.bits}

theorem execSeq_singleton {i : Instr} (h : exec i s = retire rd s v) :
    execSeq [i] s = .next (s.commit rd v s.nextPc) := execSeq_cons_of_next (h.trans (retire_eq rd s v)) []

theorem RunsTo.singleton {i : Instr} (h : exec i s = retire rd s v) : RunsTo [i] s rd v := execSeq_singleton h

/-- One more instruction, which computes `rd` from `rd`. -/
theorem RunsTo.snoc (h : RunsTo is s rd v) {i : Instr} (f : BitVec s.xlen.bits → BitVec s.xlen.bits)
    (hi : ∀ next, exec i (s.commit rd v next) = retire rd (s.commit rd v next) (f ((s.commit rd v next).get rd))) :
    RunsTo (is ++ [i]) s rd (f v) := by
  have pc_eq : s.pc + BitVec.ofNat _ (4 * is.length) + 4 = s.pc + BitVec.ofNat _ (4 * (is ++ [i]).length) := by
    rw [List.length_append, Nat.mul_add, BitVec.ofNat_add, ← BitVec.add_assoc]
    rfl
  rw [RunsTo, execSeq_append h, execSeq_singleton (hi _), ← pc_eq]
  exact congrArg Host.Outcome.next (s.commit_commit_get rd v _ _ f)

theorem RunsTo.addi (h : RunsTo is s rd v) (imm : BitVec 12) :
    RunsTo (is ++ [.addi rd rd imm]) s rd (v + immI imm) :=
  h.snoc (· + immI imm) fun _ => rfl

theorem RunsTo.slli (h : RunsTo is s rd v) {u : BitVec 6} (hu : u.toNat < s.xlen.bits) :
    RunsTo (is ++ [.slli rd rd u]) s rd (v <<< u.toNat) :=
  h.snoc (· <<< u.toNat) fun _ => whenLegal_of_amountFits rfl (decide_eq_true hu)

/-- The constants that fit in 12 signed bits come from x0 (R166). -/
theorem RunsTo.addi_zero (s : State) (rd : RegNum) (imm : BitVec 12) : RunsTo [.addi rd 0 imm] s rd (immI imm) :=
  RunsTo.singleton (by
    have x0_add : s.get 0#5 + immI imm = immI imm := by rw [State.get_zero, BitVec.zero_add]
    exact congrArg (retire rd s) x0_add)

theorem RunsTo.lui (s : State) (rd : RegNum) (imm : BitVec 20) : RunsTo [.lui rd imm] s rd (immU imm) :=
  RunsTo.singleton rfl

end

/-! ### The low twelve bits of a constant and the rest (R166) -/

section
variable {n : Nat} (c : BitVec n)

/-- Taking the signed low part away clears the low twelve bits. -/
theorem setWidth_sub_liLow (hn : 12 ≤ n) : (c - immI (liLow c)).setWidth 12 = 0#12 := by
  have low_of_immI : (immI (liLow c) : BitVec n).setWidth 12 = liLow c := by
    apply BitVec.eq_of_getLsbD_eq
    intro k hk
    rw [BitVec.getLsbD_setWidth, immI, BitVec.getLsbD_signExtend, if_pos hk, decide_eq_true hk,
      decide_eq_true (by omega), Bool.true_and, Bool.true_and]
  have low_of_c : c.setWidth 12 = liLow c := BitVec.setWidth_eq_extractLsb' hn
  have sum : (c - immI (liLow c)).setWidth 12 + liLow c = liLow c := by
    calc (c - immI (liLow c)).setWidth 12 + liLow c
        = (c - immI (liLow c) + immI (liLow c)).setWidth 12 := by rw [BitVec.setWidth_add _ _ hn, low_of_immI]
      _ = liLow c := by rw [BitVec.sub_add_cancel, low_of_c]
  exact add_eq_right.mp sum

theorem getLsbD_sub_liLow (hn : 12 ≤ n) {k : Nat} (hk : k < 12) : (c - immI (liLow c)).getLsbD k = false := by
  have h : ((c - immI (liLow c)).setWidth 12).getLsbD k = false := by rw [setWidth_sub_liLow c hn, BitVec.getLsbD_zero]
  rwa [BitVec.getLsbD_setWidth, decide_eq_true hk, Bool.true_and] at h

theorem toNat_sub_liLow_mod (hn : 12 ≤ n) : (c - immI (liLow c)).toNat % 4096 = 0 :=
  (BitVec.toNat_setWidth 12 _).symm.trans (congrArg BitVec.toNat (setWidth_sub_liLow c hn))

theorem liFits12_iff : liFits12 c = true ↔ immI (liLow c) = c := beq_iff_eq

end

/-- On 32 bits the upper 20 bits are all that is left. -/
theorem immU_liHigh (c : BitVec 32) : immU (liHigh c) = c - immI (liLow c) := by
  apply BitVec.eq_of_getLsbD_eq
  intro k hk
  rw [getLsbD_immU _ k hk, sext32, Nat.min_eq_left (by omega)]
  split
  case isTrue hlow => exact (getLsbD_sub_liLow c (by decide) hlow).symm
  case isFalse hhigh =>
    rw [liHigh, BitVec.getLsbD_extractLsb', decide_eq_true (by omega), Bool.true_and, Nat.add_sub_cancel' (by omega)]

theorem immI_zero (n : Nat) : (immI 0 : BitVec n) = 0#n := by
  apply BitVec.eq_of_getLsbD_eq
  intro k _
  simp [immI, BitVec.getLsbD_signExtend]

theorem RunsTo.addi_of_fits (s : State) (rd : RegNum) {c : BitVec s.xlen.bits} (hfits : liFits12 c = true) :
    RunsTo [.addi rd 0 (liLow c)] s rd c := by
  have run := RunsTo.addi_zero s rd (liLow c)
  rwa [(liFits12_iff c).mp hfits] at run

/-- A `lui`, `addi` pair leaves the constant where its two immediates sum to it, and so do its shorter forms. -/
theorem liPair_runsTo (s : State) (rd : RegNum) (c : BitVec s.xlen.bits)
    (hsum : immU (liHigh c) + immI (liLow c) = c) : RunsTo (liPair rd c) s rd c := by
  unfold liPair
  split
  case isTrue hfits => exact RunsTo.addi_of_fits s rd hfits
  case isFalse =>
    split
    case isTrue hlow =>
      have upper : immU (liHigh c) = c := by
        rwa [hlow, immI_zero, BitVec.add_zero] at hsum
      have run := RunsTo.lui s rd (liHigh c)
      rwa [upper] at run
    case isFalse =>
      have run := (RunsTo.lui s rd (liHigh c)).addi (liLow c)
      rwa [hsum] at run

/-! ### The chain of RV64 (R166) -/

section
variable {c : BitVec 64}

theorem trailingZeros_spec (hc : c ≠ 0) :
    trailingZeros c < 64 ∧ c.getLsbD (trailingZeros c) = true ∧ ∀ j < trailingZeros c, c.getLsbD j = false := by
  unfold trailingZeros
  cases hfind : (List.range 64).find? fun i => c.getLsbD i with
  | some i =>
    obtain ⟨hset, hmem, hclear⟩ := List.find?_range_eq_some.mp hfind
    exact ⟨List.mem_range.mp hmem, hset, fun j hj => by simpa using hclear j hj⟩
  | none =>
    have all_clear := List.find?_range_eq_none.mp hfind
    exact absurd (BitVec.eq_of_getLsbD_eq fun i hi => by simpa using all_clear i hi) hc

theorem twelve_le_trailingZeros (hc : c ≠ 0) (hlow : ∀ k < 12, c.getLsbD k = false) : 12 ≤ trailingZeros c := by
  obtain ⟨_, hset, _⟩ := trailingZeros_spec hc
  by_contra hlt
  rw [hlow _ (by omega)] at hset
  exact Bool.false_ne_true hset

/-- The shift to the left brings back what the arithmetic shift moved down, where only zeros fell out. -/
theorem sshiftRight_shiftLeft {a : Nat} (hclear : ∀ j < a, c.getLsbD j = false) : c.sshiftRight a <<< a = c := by
  apply BitVec.eq_of_getLsbD_eq
  intro k hk
  rw [BitVec.getLsbD_shiftLeft]
  by_cases hka : k < a
  · simp [hka, hclear k hka]
  · rw [BitVec.getLsbD_sshiftRight, Nat.add_sub_cancel' (by omega)]
    simp [hk, hka, show k - a < 64 by omega]

/-- A constant of magnitude at most 2047 is its own signed low part. -/
theorem liFits12_of_natAbs_le (h : c.toInt.natAbs ≤ 2047) : liFits12 c = true := by
  rw [liFits12_iff]
  apply BitVec.eq_of_toInt_eq
  calc (immI (liLow c) : BitVec 64).toInt
      = (c.toNat : Int).bmod (2 ^ 12) := by
        rw [immI, BitVec.toInt_signExtend_of_le (by decide), liLow, BitVec.toInt_extractLsb']
        rfl
    _ = c.toInt.bmod (2 ^ 12) := by
        rw [BitVec.toInt_eq_toNat_bmod, Int.bmod_bmod_of_dvd (by decide)]
    _ = c.toInt := Int.bmod_eq_of_le (by omega) (by omega)

/-- One turn of the chain drops twelve bits of the magnitude at least. The bound 2047 * 4096^k leaves room for the carry
that a negative low part sends up. -/
theorem natAbs_liRest_le {a bound : Nat} (ha : 12 ≤ a) (hc : c.toInt.natAbs ≤ 2047 * (bound * 4096)) :
    ((c - immI (liLow c)).sshiftRight a).toInt.natAbs ≤ 2047 * bound := by
  have low_ge : -2048 ≤ (liLow c).toInt := BitVec.le_toInt _
  have low_lt : (liLow c).toInt < 2048 := BitVec.toInt_lt
  have low_eq : (immI (liLow c) : BitVec 64).toInt = (liLow c).toInt := BitVec.toInt_signExtend_of_le (by decide)
  have rest_le : (c - immI (liLow c)).toInt.natAbs ≤ c.toInt.natAbs + 2048 := by
    rw [BitVec.toInt_sub, low_eq, Int.bmod_def]
    omega
  have rest_mod : (c - immI (liLow c)).toInt % 4096 = 0 := by
    have unsigned_mod := toNat_sub_liLow_mod c (by decide)
    rw [BitVec.toInt_eq_toNat_bmod, Int.bmod_def]
    omega
  generalize c - immI (liLow c) = rest at rest_le rest_mod ⊢
  have shift_eq : (rest.sshiftRight a).toInt = rest.toInt / 4096 / (2 ^ (a - 12) : Nat) := by
    have split_pow : ((2 ^ a : Nat) : Int) = 4096 * (2 ^ (a - 12) : Nat) := by
      rw [← Nat.add_sub_cancel' ha, Nat.pow_add, Nat.add_sub_cancel_left]
      rfl
    rw [BitVec.toInt_sshiftRight, Int.shiftRight_eq_div_pow, split_pow, Int.ediv_ediv_of_nonneg (by decide)]
  calc (rest.sshiftRight a).toInt.natAbs
      ≤ (rest.toInt / 4096).natAbs := by rw [shift_eq]; exact Int.natAbs_ediv_le_natAbs _ _
    _ ≤ 2047 * bound := by omega

end

section
variable (imem : Memory) (haltPc pc : BitVec 64) (regs : RegFile 64) (rd : RegNum)

/-- The shift of one turn moves what stands above the trailing zeros to its place. -/
theorem RunsTo.slli_trailingZeros {is : List Instr} {rest : BitVec 64} (hrest : rest ≠ 0)
    (h : RunsTo is ⟨.w64, imem, haltPc, regs, pc⟩ rd (rest.sshiftRight (trailingZeros rest))) :
    RunsTo (is ++ [.slli rd rd (BitVec.ofNat 6 (trailingZeros rest))]) ⟨.w64, imem, haltPc, regs, pc⟩ rd rest := by
  obtain ⟨amount_lt, _, clear⟩ := trailingZeros_spec hrest
  have amount_toNat : (BitVec.ofNat 6 (trailingZeros rest)).toNat = trailingZeros rest := Nat.mod_eq_of_lt amount_lt
  have run := h.slli (amount_toNat.trans_lt amount_lt)
  rwa [amount_toNat, sshiftRight_shiftLeft clear] at run

/-- On RV64 the chain leaves every constant that its turns can use up. -/
theorem liChain_runsTo (fuel : Nat) (c : BitVec 64) (hc : c.toInt.natAbs ≤ 2047 * 4096 ^ fuel) :
    RunsTo (liChain fuel rd c) ⟨.w64, imem, haltPc, regs, pc⟩ rd c := by
  induction fuel generalizing c with
  | zero => exact RunsTo.addi_of_fits _ rd (liFits12_of_natAbs_le (hc.trans_eq (Nat.mul_one _)))
  | succ fuel ih =>
    rw [liChain]
    split
    case isTrue hfits => exact RunsTo.addi_of_fits _ rd hfits
    case isFalse hfits =>
      have rest_ne_zero : c - immI (liLow c) ≠ 0 := fun h =>
        hfits ((liFits12_iff c).mpr (sub_eq_zero.mp h).symm)
      have rest_low : ∀ k < 12, (c - immI (liLow c)).getLsbD k = false := fun k => getLsbD_sub_liLow c (by decide)
      have turn_bound := natAbs_liRest_le (twelve_le_trailingZeros rest_ne_zero rest_low) hc
      have shifted := (ih _ turn_bound).slli_trailingZeros imem haltPc pc regs rd rest_ne_zero
      rw [List.append_cons]
      split
      case isTrue hlow =>
        have rest_eq : c - immI (liLow c) = c := by rw [hlow, immI_zero, BitVec.sub_zero]
        rw [List.append_nil, rest_eq]
        rwa [rest_eq] at shifted
      case isFalse =>
        have run := shifted.addi (liLow c)
        rwa [BitVec.sub_add_cancel] at run

end

/-! ### The expansion of `li` (R166) -/

/-- On either XLEN the expansion leaves the constant: RV32's pair always reaches it, RV64's pair where it is chosen, and
the chain everywhere, as 2047 * 4096^6 exceeds every 64-bit magnitude. -/
theorem li_runsTo (s : State) (rd : RegNum) (c : BitVec s.xlen.bits) : RunsTo (li s.xlen rd c) s rd c := by
  obtain ⟨x, imem, haltPc, regs, pc⟩ := s
  cases x with
  | w32 =>
    apply liPair_runsTo
    rw [immU_liHigh]
    exact BitVec.sub_add_cancel c _
  | w64 =>
    rw [li]
    split
    case isTrue hpair =>
      obtain ⟨_, hsum⟩ := hpair
      exact liPair_runsTo _ rd c hsum
    case isFalse =>
      have upper : c.toInt < 2 ^ 63 := BitVec.toInt_lt
      have lower : -2 ^ 63 ≤ c.toInt := BitVec.le_toInt c
      exact liChain_runsTo imem haltPc pc regs rd 6 c (by omega)

/-- What an expansion of `li` on `rd` may consist of (R166). -/
def LiPart (x : Width) (rd : RegNum) (i : Instr) : Prop :=
  (∃ imm, i = .lui rd imm) ∨ (∃ rs1 imm, i = .addi rd rs1 imm) ∨ (x = .w64 ∧ ∃ shamt, i = .slli rd rd shamt)

section
variable (x : Width) (rd : RegNum)

theorem LiPart.lui (imm : BitVec 20) : LiPart x rd (.lui rd imm) := .inl ⟨imm, rfl⟩

theorem LiPart.addi (rs1 : RegNum) (imm : BitVec 12) : LiPart x rd (.addi rd rs1 imm) := .inr (.inl ⟨rs1, imm, rfl⟩)

theorem LiPart.slli (shamt : BitVec 6) : LiPart .w64 rd (.slli rd rd shamt) := .inr (.inr ⟨rfl, shamt, rfl⟩)

theorem liPair_parts {n : Nat} (c : BitVec n) : ∀ i ∈ liPair rd c, LiPart x rd i := by
  have lui_part := LiPart.lui x rd (liHigh c)
  have addi_part := LiPart.addi x rd
  unfold liPair
  split
  case isTrue => exact List.forall_mem_singleton.mpr (addi_part _ _)
  case isFalse =>
    split
    case isTrue => exact List.forall_mem_singleton.mpr lui_part
    case isFalse => exact List.forall_mem_cons.mpr ⟨lui_part, List.forall_mem_singleton.mpr (addi_part _ _)⟩

theorem liChain_parts (fuel : Nat) (c : BitVec 64) : ∀ i ∈ liChain fuel rd c, LiPart .w64 rd i := by
  have addi_part := LiPart.addi .w64 rd
  induction fuel generalizing c with
  | zero => exact List.forall_mem_singleton.mpr (addi_part _ _)
  | succ fuel ih =>
    rw [liChain]
    split
    case isTrue => exact List.forall_mem_singleton.mpr (addi_part _ _)
    case isFalse =>
      refine List.forall_mem_append.mpr ⟨ih _, List.forall_mem_cons.mpr ⟨LiPart.slli rd _, ?_⟩⟩
      split
      case isTrue => exact List.forall_mem_nil _
      case isFalse => exact List.forall_mem_singleton.mpr (addi_part _ _)

theorem li_parts (c : BitVec x.bits) : ∀ i ∈ li x rd c, LiPart x rd i := by
  cases x with
  | w32 => exact liPair_parts .w32 rd c
  | w64 =>
    rw [li]
    split
    case isTrue => exact liPair_parts .w64 rd c
    case isFalse => exact liChain_parts rd 6 c

end

end Sys2Proof.Machine

namespace Sys2Proof

open Sys2Proof.Machine

/-- Settles O25: `lui` retires its immediate, sign-extended, and `addi` the sum modulo 2^XLEN. -/
theorem luiAndAddi : Obligations.LuiAndAddi := by
  intro s rd rs1 imm20 imm12
  constructor
  · exact performs_of_encode rfl rfl rfl (Instr.wf_eq_amountFits _ rfl) (lui_completesWith s rd imm20)
  · exact performs_of_encode rfl rfl rfl (Instr.wf_eq_amountFits _ rfl) (addi_completesWith s rd rs1 imm12)

/-- Settles O26: the word is that of `slli`, which exists exactly when its amount is below XLEN. -/
theorem shiftLeftImmediate : Obligations.ShiftLeftImmediate := by
  intro s rd rs1 u
  have hwf : (Instr.slli rd rs1 u).wf s.xlen = decide (u.toNat < s.xlen.bits) := Instr.wf_eq_amountFits _ rfl
  split
  case isTrue hu =>
    exact performs_of_encode rfl rfl rfl (hwf.trans (decide_eq_true hu)) (slli_completesWith s rd rs1 hu)
  case isFalse hu =>
    exact trapsAsIllegal_of_not_wf (i := .slli rd rs1 u) (hwf.trans (decide_eq_false hu))

/-- Settles O27: each instruction retires its operation, which works on each bit alone. -/
theorem xorAndOr : Obligations.XorAndOr := by
  intro s rd rs1 rs2
  constructor
  · exact performs_of_encode rfl rfl rfl (Instr.wf_eq_amountFits _ rfl) (xor_completesWith s rd rs1 rs2)
  · exact performs_of_encode rfl rfl rfl (Instr.wf_eq_amountFits _ rfl) (or_completesWith s rd rs1 rs2)

/-- Settles O28: the target is computed in the old state, and its bit 1 decides between the trap and the commit. -/
theorem jumpAndLinkRegister : Obligations.JumpAndLinkRegister := by
  rintro s rd rs1 imm _ _ rfl rfl
  rw [← jalrTarget_toNat]
  refine ⟨rfl, rfl, decode_of_encode_eq (Instr.wf_eq_amountFits _ rfl) rfl, exec_jalr_of_misaligned,
    fun haligned => ?_⟩
  exact ⟨_, exec_jalr_of_aligned haligned, s.commit_sameParameters rd _ _, rfl, s.commit_sameRegistersBut rd _ _,
    State.val_zero _, fun hrd => (s.val_commit_same rd _ _ hrd).trans s.nextPc_toNat⟩

/-- Settles O29: `ret` is the `jalr` to `x[1]` that discards the link into x0. -/
theorem retJumpsToReturnAddress : Obligations.RetJumpsToReturnAddress := by
  refine ⟨rfl, fun s => ?_⟩
  have target_bit : (jalrTarget 1 0 s).toNat.testBit 1 = s.bit 1#5 1 := by
    rw [jalrTarget_zero_toNat, testBit_one_sub_mod_two]
    exact BitVec.testBit_toNat _
  rw [← target_bit, ← jalrTarget_zero_toNat]
  refine ⟨decode_of_encode_eq (Instr.wf_eq_amountFits _ rfl) rfl, exec_jalr_of_misaligned, fun haligned => ?_⟩
  refine ⟨_, exec_jalr_of_aligned haligned, s.commit_sameParameters 0 _ _, rfl, fun r k => ?_⟩
  rw [State.bit_commit]
  split
  case isTrue hr => rw [hr, State.bit_zero]
  case isFalse hr => exact if_neg hr

/-- Settles O30: the expansion is one commit of the constant to `rd`, with pc past its last instruction. -/
theorem loadImmediateLeavesConstant : Obligations.LoadImmediateLeavesConstant := by
  intro s rd c
  exact ⟨li_parts s.xlen rd c, _, li_runsTo s rd c, s.commit_sameParameters rd c _, s.pc_add_toNat _,
    s.commit_sameRegistersBut rd c _, State.bit_zero _, fun hrd k _ => s.bit_commit_same rd c _ hrd k⟩

end Sys2Proof
end

-- ==== Proofs: the exceptions (spec/60_exceptions.md) ====
section
/-! The outcomes of a step (R180), where each trap comes from and what it reports (R182 to R185), and which instructions
cannot raise one (R186). -/

namespace Sys2Proof

theorem Instr.eq_jalr_of_isJalr {i : Instr} (h : i.isJalr = true) : ∃ rd rs1 imm, i = .jalr rd rs1 imm := by
  cases i with
  | jalr rd rs1 imm => exact ⟨rd, rs1, imm, rfl⟩
  | _ => exact absurd h Bool.false_ne_true

theorem wf_of_decode {x : Width} {w : InstrWord} {i : Instr} (h : decode x w = .instr i) : i.wf x = true :=
  (encode_of_decode h).left

end Sys2Proof

namespace Sys2Proof.Machine

/-! ### One outcome of the step at a time (R180) -/

section
variable {s : State}

theorem step_of_pc_eq_haltPc (h : s.pc = s.haltPc) : step s = .fault (.halted s) := if_pos h

theorem step_of_decode {w : InstrWord} {i : Instr} (hp : s.pc ≠ s.haltPc) (hf : s.fetch = some w)
    (hd : decode s.xlen w = .instr i) : step s = exec i s := by
  rw [step_of_fetch hp hf, hd, runDecoded]

theorem step_of_illegal {w : InstrWord} {r : IllegalRule} (hp : s.pc ≠ s.haltPc) (hf : s.fetch = some w)
    (hd : decode s.xlen w = .illegal r) : step s = .fault (.trap .illegalInstruction s.pc.toNat w.toNat) := by
  rw [step_of_fetch hp hf, hd, runDecoded, raiseIllegal_eq]

theorem step_of_outsideSpec {w : InstrWord} (hp : s.pc ≠ s.haltPc) (hf : s.fetch = some w)
    (hd : decode s.xlen w = .outsideSpec) : step s = .refused (.outsideSpec s.pc.toNat w) := by
  rw [step_of_fetch hp hf, hd, runDecoded, refuseWord_eq]

/-- A decoded instruction is one that the XLEN has, and of these `jalr` alone can do anything but complete (R186). -/
theorem exec_of_decode {w : InstrWord} {i : Instr} (hd : decode s.xlen w = .instr i) (hj : i.isJalr = false) :
    ∃ v, exec i s = .next (s.commit i.dest v s.nextPc) :=
  exec_of_wf i s (wf_of_decode hd) hj

end

/-! ### Runs (R180): `NEXT` is the only outcome after which a run goes on -/

section
variable {M : Host.Core} {s : M.State} (k : Nat)

theorem coreRun_succ_of_next {t : M.State} (h : M.step s = .next t) : M.run (k + 1) s = M.run k t := by
  rw [Host.Core.run, h]

theorem coreRun_succ_of_fault {f : M.Fault} (h : M.step s = .fault f) : M.run (k + 1) s = .fault f := by
  rw [Host.Core.run, h]

theorem coreRun_succ_of_refused {r : M.Refusal} (h : M.step s = .refused r) : M.run (k + 1) s = .refused r := by
  rw [Host.Core.run, h]

end

/-! ### The misaligned target (R183) -/

/-- The target as the spec writes it: 2 divides 2^XLEN, so bit 0 of the sum is that of the sum without the wrap. -/
theorem jalrTarget_toInt (rs1 : RegNum) (imm : BitVec 12) (s : State) : ((jalrTarget rs1 imm s).toNat : Int) =
    ((s.val rs1 : Int) + imm.toInt) % (2 ^ s.xlen.bits : Nat) - ((s.val rs1 : Int) + imm.toInt) % 2 := by
  rw [jalrTarget_toNat]
  generalize (s.val rs1 : Int) + imm.toInt = sum
  have four_dvd := s.xlen.four_dvd_two_pow_bits
  have size_pos := Nat.two_pow_pos s.xlen.bits
  generalize 2 ^ s.xlen.bits = size at four_dvd size_pos ⊢
  have two_dvd : (2 : Int) ∣ (size : Int) := by omega
  have same_bit : sum % (size : Int) % 2 = sum % 2 := Int.emod_emod_of_dvd sum two_dvd
  have wrapped_nonneg : 0 ≤ sum % (size : Int) := Int.emod_nonneg sum (by omega)
  omega

/-- An even number with bit 1 set is 2 modulo 4. -/
theorem toNat_mod_four_of_bit_one {n : Nat} (v : BitVec n) (h0 : v.getLsbD 0 = false) (h1 : v.getLsbD 1 = true) :
    v.toNat % 4 = 2 := by
  rw [← BitVec.testBit_toNat, Nat.testBit_eq_decide_div_mod_eq] at h0 h1
  simp only [decide_eq_false_iff_not, decide_eq_true_eq] at h0 h1
  omega

/-! ### Where a trap comes from (R182 to R185) -/

/-- Of the instructions that the XLEN has, only `jalr` traps, for its target. -/
theorem exec_trap {i : Instr} {s : State} {c : Cause} {epc tval : Nat} (hwf : i.wf s.xlen = true)
    (h : exec i s = .fault (.trap c epc tval)) :
    c = .instructionAddressMisaligned ∧ epc = s.pc.toNat ∧ ∃ rd rs1 imm, i = .jalr rd rs1 imm ∧
      tval = (jalrTarget rs1 imm s).toNat ∧ (jalrTarget rs1 imm s).getLsbD 1 = true := by
  cases hj : i.isJalr with
  | false =>
    obtain ⟨v, completes⟩ := exec_of_wf i s hwf hj
    exact nomatch h.symm.trans completes
  | true =>
    obtain ⟨rd, rs1, imm, rfl⟩ := Instr.eq_jalr_of_isJalr hj
    rcases exec_jalr_cases rd rs1 imm s with ⟨misaligned, traps⟩ | ⟨_, completes⟩
    · cases h.symm.trans traps
      exact ⟨rfl, rfl, rd, rs1, imm, rfl, rfl, misaligned⟩
    · exact nomatch h.symm.trans completes

/-- Every trap of a step, by what raised it: the fetch, the fetched `jalr` or the fetched word. -/
theorem step_trap {s : State} {c : Cause} {epc tval : Nat} (h : step s = .fault (.trap c epc tval)) :
    s.pc ≠ s.haltPc ∧ epc = s.pc.toNat ∧
    ((c = .instructionAccessFault ∧ s.fetch = none ∧ tval = s.pc.toNat) ∨
    ∃ w, s.fetch = some w ∧
      ((c = .instructionAddressMisaligned ∧ ∃ rd rs1 imm, decode s.xlen w = .instr (.jalr rd rs1 imm) ∧
        tval = (jalrTarget rs1 imm s).toNat ∧ (jalrTarget rs1 imm s).getLsbD 1 = true) ∨
      (c = .illegalInstruction ∧ ∃ r, decode s.xlen w = .illegal r ∧ tval = w.toNat))) := by
  rcases step_cases s with ⟨_, halts⟩ | ⟨hp, ⟨hf, faults⟩ | ⟨w, hf, ⟨i, hd, executes⟩ | ⟨r, hd, traps⟩ | ⟨_, refuses⟩⟩⟩
  · exact nomatch h.symm.trans halts
  · cases h.symm.trans faults
    exact ⟨hp, rfl, .inl ⟨rfl, hf, rfl⟩⟩
  · obtain ⟨rfl, rfl, rd, rs1, imm, rfl, htval, misaligned⟩ := exec_trap (wf_of_decode hd) (executes.symm.trans h)
    exact ⟨hp, rfl, .inr ⟨w, hf, .inl ⟨rfl, rd, rs1, imm, hd, htval, misaligned⟩⟩⟩
  · cases h.symm.trans traps
    exact ⟨hp, rfl, .inr ⟨w, hf, .inr ⟨rfl, r, hd, rfl⟩⟩⟩
  · exact nomatch h.symm.trans refuses

end Sys2Proof.Machine

namespace Sys2Proof

open Sys2Proof.Machine

/-- Settles O41: the four bytes are the fetched word, and what decodes exists on the XLEN. -/
theorem stepRunsDecodedInstruction : Obligations.StepRunsDecodedInstruction := by
  intro s b0 b1 b2 b3 i hp aligned h0 h1 h2 h3 hd
  have fetched : s.fetch = some (wordOfBytes b0 b1 b2 b3) :=
    Memory.fetchWord_eq_some.mpr ⟨aligned, b0, b1, b2, b3, h0, h1, h2, h3, rfl⟩
  exact ⟨wf_of_decode hd, step_of_decode hp fetched hd⟩

/-- Settles O42: each case of R180 by its own lemma; a decoded instruction completes or is a `jalr` that traps. -/
theorem stepOutcomes : Obligations.StepOutcomes := by
  intro s
  refine ⟨step_of_pc_eq_haltPc, step_of_fetch_none, fun w hp hf => ⟨fun i hd => ⟨step_of_decode hp hf hd, ?executed⟩,
    fun _ => step_of_illegal hp hf, step_of_outsideSpec hp hf⟩, fun k => ?run⟩
  case executed =>
    cases hj : i.isJalr with
    | false =>
      obtain ⟨v, completes⟩ := exec_of_decode hd hj
      exact .inl ⟨_, completes, fun _ => s.nextPc_toNat⟩
    | true =>
      obtain ⟨rd, rs1, imm, rfl⟩ := Instr.eq_jalr_of_isJalr hj
      rcases exec_jalr_cases rd rs1 imm s with ⟨_, traps⟩ | ⟨_, completes⟩
      · exact .inr ⟨rfl, _, traps⟩
      · exact .inl ⟨_, completes, nofun⟩
  case run =>
    cases h : step s with
    | next t => exact coreRun_succ_of_next (M := core) k h
    | fault f => exact coreRun_succ_of_fault (M := core) k h
    | refused r => exact coreRun_succ_of_refused (M := core) k h

/-- Settles O43: each trap has one of three origins, which fixes its cause, its epc and its tval. -/
theorem trapReportsCauseAndAddress : Obligations.TrapReportsCauseAndAddress := by
  refine ⟨rfl, rfl, rfl, fun s c epc tval h => ?_⟩
  obtain ⟨hp, hepc, ⟨rfl, hf, htval⟩ | ⟨w, hf, ⟨rfl, rd, rs1, imm, hd, htval, misaligned⟩ | ⟨rfl, r, hd, htval⟩⟩⟩ :=
    step_trap h
  · exact ⟨hp, hepc, nofun, fun _ => ⟨hf, htval⟩, nofun⟩
  · have mod_four := toNat_mod_four_of_bit_one _ (jalrTarget_even rs1 imm s) misaligned
    subst htval
    exact ⟨hp, hepc, fun _ => ⟨w, rd, rs1, imm, hf, hd, jalrTarget_toInt rs1 imm s, mod_four⟩,
      nofun, nofun⟩
  · exact ⟨hp, hepc, nofun, nofun, fun _ => ⟨w, r, hf, hd, htval⟩⟩

/-- Settles O44: the decoded instruction is one commit of its result at pc + 4. -/
theorem decodedInstructionsNeverRaise : Obligations.DecodedInstructionsNeverRaise := by
  intro s w i hd hj
  obtain ⟨v, completes⟩ := exec_of_decode hd hj
  exact ⟨_, completes, s.commit_sameParameters i.dest v _, s.commit_sameRegistersBut i.dest v _, s.nextPc_toNat⟩

end Sys2Proof
end

-- ==== Proofs: reset, launch and runs (spec/70_reset_and_hazards.md) ====
section
/-! The registers that a launch supplies (R200), the loader's layout of a program (R201), and straight-line programs, which
run one instruction after the other wherever they stand (R205). -/

namespace Sys2Proof.Machine

/-! ### The registers of a launch (R200) -/

/-- x<i + 1> is kept at place i. -/
theorem RegFile.read_ofNat_succ {n : Nat} (f : RegFile n) (i : Fin 31) :
    RegFile.read f (BitVec.ofNat 5 (i + 1)) = f[i] := by
  have number : (BitVec.ofNat 5 (i + 1)).toNat = i + 1 := by
    rw [BitVec.toNat_ofNat]
    omega
  have not_x0 : BitVec.ofNat 5 (i + 1) ≠ 0#5 := by
    intro e
    have := congrArg BitVec.toNat e
    rw [number] at this
    exact Nat.succ_ne_zero _ this
  rw [RegFile.read, if_neg not_x0]
  simp only [number, Nat.add_sub_cancel]
  rfl

/-! ### The loader (R201) -/

theorem Memory.read_loadWords_other (p : List InstrWord) (m : Memory) (a b : Nat) (h : b < a ∨ a + 4 * p.length ≤ b) :
    (m.loadWords a p).read b = m.read b := by
  induction p generalizing m a with
  | nil => rfl
  | cons w ws ih =>
    rw [List.length_cons] at h
    rw [Memory.loadWords, ih _ _ (by omega), Memory.read_writeWord_other _ _ _ _ (by omega)]

/-- A fetch reads its four bytes only. -/
theorem Memory.fetchWord_congr {m m' : Memory} {a : Nat} (h : ∀ j < 4, m.read (a + j) = m'.read (a + j)) :
    m.fetchWord a = m'.fetchWord a := by
  have byte0 : m.read a = m'.read a := h 0 (by decide)
  rw [Memory.fetchWord, Memory.fetchWord, Memory.readWord, Memory.readWord, byte0, h 1 (by decide), h 2 (by decide),
    h 3 (by decide)]

theorem Memory.fetchWord_of_read_none {m : Memory} {a : Nat} (h : m.read a = none) : m.fetchWord a = none := by
  simp [Memory.fetchWord, Memory.readWord, h]

/-- Each word stands where it was put: the words after it are put elsewhere. -/
theorem Memory.fetchWord_loadWords (p : List InstrWord) (m : Memory) {a : Nat} (ha : a % 4 = 0) (k : Nat)
    (hk : k < p.length) : (m.loadWords a p).fetchWord (a + 4 * k) = some p[k] := by
  induction p generalizing m a k with
  | nil => exact absurd hk (Nat.not_lt_zero k)
  | cons w ws ih =>
    rw [Memory.loadWords]
    cases k with
    | zero =>
      have tail_elsewhere : ∀ j < 4, ((m.writeWord a w).loadWords (a + 4) ws).read (a + j) =
          (m.writeWord a w).read (a + j) :=
        fun j hj => Memory.read_loadWords_other ws _ _ _ (.inl (by omega))
      exact (Memory.fetchWord_congr tail_elsewhere).trans (Memory.fetchWord_writeWord_same m ha w)
    | succ k =>
      rw [Nat.mul_succ, Nat.add_comm (4 * k), ← Nat.add_assoc]
      exact ih _ (by omega) k (Nat.lt_of_succ_lt_succ hk)

theorem Memory.read_ne_none_of_mem {m : Memory} {c : Host.Cell} (h : c ∈ m) : m.read c.1 ≠ none := by
  induction m with
  | nil => exact absurd h List.not_mem_nil
  | cons d m ih =>
    rw [Memory.read]
    split
    case isTrue => exact nofun
    case isFalse hne =>
      rcases List.mem_cons.mp h with rfl | htail
      · exact absurd rfl hne
      · exact ih htail

section
variable {a : Nat} {p : List InstrWord}

/-- The loader lists the bytes of the program, no others. -/
theorem Memory.mem_loadWords_bounds {c : Host.Cell} (hc : c ∈ Memory.loadWords [] a p) :
    a ≤ c.1 ∧ c.1 < a + 4 * p.length := by
  by_contra outside
  exact Memory.read_ne_none_of_mem hc (Memory.read_loadWords_other p [] a c.1 (by omega))

theorem Memory.loadWords_wholeWords (ha : a % 4 = 0) : Memory.wholeWords (Memory.loadWords [] a p) = true := by
  refine List.all_eq_true.mpr fun c hc => ?_
  obtain ⟨above, below⟩ := Memory.mem_loadWords_bounds hc
  have word_start : c.1 - c.1 % 4 = a + 4 * ((c.1 - a) / 4) := by omega
  rw [word_start, Memory.fetchWord_loadWords p [] ha _ (by omega)]
  rfl

theorem Memory.loadWords_within {x : Width} (hfits : a + 4 * p.length ≤ 2 ^ x.bits) :
    Memory.within (Memory.loadWords [] a p) x = true := by
  refine List.all_eq_true.mpr fun c hc => decide_eq_true ?_
  obtain ⟨_, below⟩ := Memory.mem_loadWords_bounds hc
  omega

end

/-! ### Runs -/

/-- A run goes on from where its first steps lead. -/
theorem coreRun_add {M : Host.Core} {k : Nat} {s t : M.State} (h : M.run k s = .next t) (n : Nat) :
    M.run (k + n) s = M.run n t := by
  induction k generalizing s with
  | zero => rw [Nat.zero_add, Host.Outcome.next.inj h]
  | succ k ih =>
    cases hs : M.step s with
    | next u =>
      rw [coreRun_succ_of_next k hs] at h
      rw [Nat.succ_add, coreRun_succ_of_next (k + n) hs, ih h]
    | fault f => exact nomatch h.symm.trans (coreRun_succ_of_fault k hs)
    | refused r => exact nomatch h.symm.trans (coreRun_succ_of_refused k hs)

/-- The step after `k` completed ones ends the run. -/
theorem run_succ_of_run_fault {k : Nat} {s t : State} {f : Fault} (h : run k s = .next t) (hf : step t = .fault f) :
    run (k + 1) s = .fault f :=
  (coreRun_add (M := core) h 1).trans (coreRun_succ_of_fault (M := core) 0 hf)

theorem SameParameters.refl (s : State) : SameParameters s s := ⟨rfl, rfl, fun _ => rfl⟩

theorem SameParameters.trans {s t u : State} (hst : SameParameters s t) (htu : SameParameters t u) :
    SameParameters s u := by
  obtain ⟨xlen_st, haltPc_st, imem_st⟩ := hst
  obtain ⟨xlen_tu, haltPc_tu, imem_tu⟩ := htu
  exact ⟨xlen_tu.trans xlen_st, haltPc_tu.trans haltPc_st, fun a => (imem_tu a).trans (imem_st a)⟩

/-! ### Straight-line programs (R205) -/

/-- The first step of a straight-line program commits its first instruction's result and leaves the rest of the program to
run. -/
theorem StraightLineAt.head_tail {s : State} {w : InstrWord} {ws : List InstrWord} (h : StraightLineAt s (w :: ws)) :
    ∃ i v, decode s.xlen w = .instr i ∧ i.isJalr = false ∧ exec i s = .next (s.commit i.dest v s.nextPc) ∧
      step s = .next (s.commit i.dest v s.nextPc) ∧ StraightLineAt (s.commit i.dest v s.nextPc) ws := by
  obtain ⟨fetched, haltPc_ne, i, hd, hj⟩ := h 0 (Nat.zero_lt_succ _)
  rw [Nat.mul_zero, Nat.add_zero, Nat.mod_eq_of_lt s.pc.isLt] at fetched haltPc_ne
  obtain ⟨v, executes⟩ := exec_of_decode hd hj
  have steps : step s = exec i s := step_of_decode (fun e => haltPc_ne (congrArg BitVec.toNat e.symm)) fetched hd
  refine ⟨i, v, hd, hj, executes, steps.trans executes, fun k hk => ?_⟩
  have address : (s.nextPc.toNat + 4 * k) % 2 ^ s.xlen.bits = (s.pc.toNat + 4 * (k + 1)) % 2 ^ s.xlen.bits := by
    rw [State.nextPc_toNat, Nat.mod_add_mod]
    congr 1
    omega
  have rest := h (k + 1) (Nat.succ_lt_succ hk)
  rw [← address] at rest
  exact rest

/-- The program decodes, and running its first `k` steps is executing its first `k` instructions. -/
theorem StraightLineAt.run_eq_execSeq {s : State} {p : List InstrWord} (h : StraightLineAt s p) :
    ∃ is : List Instr, p.map (decode s.xlen) = is.map Decoded.instr ∧
      ∀ k ≤ p.length, run k s = execSeq (is.take k) s := by
  induction p generalizing s with
  | nil => exact ⟨[], rfl, fun k hk => by rw [Nat.le_zero.mp hk]; rfl⟩
  | cons w ws ih =>
    obtain ⟨i, v, hd, _, executes, steps, tail⟩ := h.head_tail
    obtain ⟨is, decodes, runs⟩ := ih tail
    refine ⟨i :: is, ?_, fun k hk => ?_⟩
    · rw [List.map_cons, List.map_cons, hd, ← decodes]
      rfl
    · cases k with
      | zero => rfl
      | succ k =>
        rw [List.take_succ_cons, execSeq_cons_of_next executes, ← runs k (Nat.le_of_succ_le_succ hk)]
        exact coreRun_succ_of_next (M := core) k steps

/-- Each of the steps completes; after `k` of them pc has moved by `4 * k`. -/
theorem StraightLineAt.run_next {s : State} {p : List InstrWord} (h : StraightLineAt s p) {k : Nat}
    (hk : k ≤ p.length) :
    ∃ t, run k s = .next t ∧ SameParameters s t ∧ t.pc.toNat = (s.pc.toNat + 4 * k) % 2 ^ s.xlen.bits := by
  induction k generalizing s p with
  | zero => exact ⟨s, rfl, .refl s, (Nat.mod_eq_of_lt s.pc.isLt).symm⟩
  | succ k ih =>
    cases p with
    | nil => exact absurd hk (Nat.not_succ_le_zero k)
    | cons w ws =>
      obtain ⟨i, v, _, _, _, steps, tail⟩ := h.head_tail
      obtain ⟨t, runs, same, pc_eq⟩ := ih tail (Nat.le_of_succ_le_succ hk)
      refine ⟨t, (coreRun_succ_of_next (M := core) k steps).trans runs,
        (s.commit_sameParameters i.dest v s.nextPc).trans same, ?_⟩
      rw [pc_eq, State.commit_pc_toNat, State.nextPc_toNat, State.commit_xlen, Nat.mod_add_mod]
      congr 1
      omega

/-- Two executions of one instruction from the same registers leave the same registers (R47). -/
theorem exec_same_registers {i : Instr} {s s' t t' : State} (hx : s'.xlen = s.xlen) (hwf : i.wf s'.xlen = true)
    (hj : i.isJalr = false) (hregs : ∀ r k, s'.bit r k = s.bit r k) (h : exec i s = .next t)
    (h' : exec i s' = .next t') (r : RegNum) (k : Nat) : t'.bit r k = t.bit r k := by
  obtain ⟨v', v, retires', retires, same_value⟩ := exec_of_sources_eq hx hwf hj fun r _ => hregs r
  have same_bit : v'.getLsbD k = v.getLsbD k := by
    rw [← BitVec.testBit_toNat, ← BitVec.testBit_toNat, same_value]
  rw [retire_next.mp (retires.symm.trans h), retire_next.mp (retires'.symm.trans h'), State.bit_commit, State.bit_commit,
    same_bit, hregs]

/-- What a straight-line program leaves in the registers does not depend on where it stands. -/
theorem StraightLineAt.run_same_registers {s s' : State} {p : List InstrWord} (h : StraightLineAt s p)
    (h' : StraightLineAt s' p) (hx : s'.xlen = s.xlen) (hregs : ∀ r k, s'.bit r k = s.bit r k) :
    ∃ t t', run p.length s = .next t ∧ run p.length s' = .next t' ∧ ∀ r k, t'.bit r k = t.bit r k := by
  induction p generalizing s s' with
  | nil => exact ⟨s, s', rfl, rfl, hregs⟩
  | cons w ws ih =>
    obtain ⟨i, v, hd, hj, executes, steps, tail⟩ := h.head_tail
    obtain ⟨i', v', hd', _, executes', steps', tail'⟩ := h'.head_tail
    obtain rfl : i' = i := by
      rw [hx, hd] at hd'
      exact (Decoded.instr.inj hd').symm
    have same := exec_same_registers hx (wf_of_decode hd') hj hregs executes executes'
    obtain ⟨t, t', runs, runs', ends⟩ := ih tail tail' hx same
    exact ⟨t, t', (coreRun_succ_of_next (M := core) _ steps).trans runs,
      (coreRun_succ_of_next (M := core) _ steps').trans runs', ends⟩

end Sys2Proof.Machine

namespace Sys2Proof

open Sys2Proof.Machine

/-- Settles O49: the launch copies its fields, and register x<n + 1> is the n-th of those supplied. -/
theorem launchSetsPcAndRegisters : Obligations.LaunchSetsPcAndRegisters := by
  intro l
  exact ⟨rfl, rfl, rfl, rfl, State.val_zero _, fun n => congrArg BitVec.toNat (RegFile.read_ofNat_succ l.regs n)⟩

/-- Settles O53: the loader puts each word at its place and lists nothing else, so IMEM is a map of whole words that does
not hold HALT_PC. -/
theorem loadedProgramIsFetched : Obligations.LoadedProgramIsFetched := by
  intro x a p haltPc resetPc regs ha hfits halt_aligned reset_aligned halt_outside
  have nothing_outside (b : Nat) : b < a ∨ a + 4 * p.length ≤ b → Memory.read (Memory.loadWords [] a p) b = none :=
    Memory.read_loadWords_other p [] a b
  exact ⟨Memory.fetchWord_loadWords p [] ha, nothing_outside, reset_aligned, halt_aligned,
    Memory.loadWords_wf p [] a rfl, Memory.loadWords_wholeWords ha, Memory.loadWords_within hfits,
    Memory.fetchWord_of_read_none (nothing_outside haltPc.toNat halt_outside)⟩

/-- Settles O55: induction on the program, one completed step at a time; the step after the last finds HALT_PC or
nothing. -/
theorem straightLineProgramsRunInOrder : Obligations.StraightLineProgramsRunInOrder := by
  intro s p h
  refine ⟨h.run_eq_execSeq, fun k hk => ?_, fun s' hx h' hregs => h.run_same_registers h' hx hregs⟩
  obtain ⟨t, runs, same, pc_eq⟩ := h.run_next hk
  exact ⟨t, runs, same, pc_eq, fun _ halts => run_succ_of_run_fault runs (step_of_pc_eq_haltPc halts),
    fun _ not_halt nothing => run_succ_of_run_fault runs (step_of_fetch_none not_halt nothing)⟩

end Sys2Proof
end
